-- ==== Sys2Proof/Word.lean ====
section
/-! DEFINITION. The word types of the link block (rules R8 and R9 of spec/00_scope.md). -/

namespace Sys2Proof

/-- R8: a `Byte` is an unsigned 8-bit value. -/
abbrev Byte := BitVec 8

/-- R9: the bit pattern of a `u16` or an `i16` field. -/
abbrev Word16 := BitVec 16

/-- R9: the bit pattern of a `u32` field. -/
abbrev Word32 := BitVec 32

/-- R9: the bit pattern of an `i64` field, in two's complement. -/
abbrev Word64 := BitVec 64

/-- D30: `TIME` is a natural number of an unnamed unit. -/
abbrev Time := Nat

end Sys2Proof
end

