-- ==== Sys2Proof/Syntax/Values.lean ====
section
/-! DEFINITION. The values the link block carries: sides, commands, responses, error kinds, parse outcomes, and the
operands that name one instance of a part (rules R11, R15 to R17, R20, R280, R300). -/

namespace Sys2Proof

/-- R15: which of the two boards a message pertains to. -/
inductive Side
  | left
  | right
deriving DecidableEq, Repr

/-- R15: the other side. -/
def Side.opposite : Side → Side
  | .left => .right
  | .right => .left

/-- R2: the two boards of the chain `host → board A → board B`. -/
inductive BoardId
  | boardA
  | boardB
deriving DecidableEq, Repr

/-- The other board of the pair. -/
def BoardId.other : BoardId → BoardId
  | .boardA => .boardB
  | .boardB => .boardA

/-- R20: the two serial links of a board: toward the host, and toward the next board. -/
inductive Dir
  | up
  | down
deriving DecidableEq, Repr

/-- One value for each side of the host dispatcher (R29). -/
structure PerSide (α : Type) where
  left : α
  right : α
deriving DecidableEq, Repr

/-- One value for each board. -/
structure PerBoard (α : Type) where
  boardA : α
  boardB : α
deriving DecidableEq, Repr

/-- One value for each serial link of a board (R20). -/
structure PerDir (α : Type) where
  up : α
  down : α
deriving DecidableEq, Repr

/-- The element of a side. -/
def PerSide.get {α : Type} (p : PerSide α) : Side → α
  | .left => p.left
  | .right => p.right

/-- Replace the element of a side. -/
def PerSide.set {α : Type} (p : PerSide α) : Side → α → PerSide α
  | .left, v => { p with left := v }
  | .right, v => { p with right := v }

/-- The element of a board. -/
def PerBoard.get {α : Type} (p : PerBoard α) : BoardId → α
  | .boardA => p.boardA
  | .boardB => p.boardB

/-- Replace the element of a board. -/
def PerBoard.set {α : Type} (p : PerBoard α) : BoardId → α → PerBoard α
  | .boardA, v => { p with boardA := v }
  | .boardB, v => { p with boardB := v }

/-- The element of a link. -/
def PerDir.get {α : Type} (p : PerDir α) : Dir → α
  | .up => p.up
  | .down => p.down

/-- Replace the element of a link. -/
def PerDir.set {α : Type} (p : PerDir α) : Dir → α → PerDir α
  | .up, v => { p with up := v }
  | .down, v => { p with down := v }

/-- What a board's upstream link is wired to (R2: the host's port of a side, or the other board of the chain). -/
inductive Upstream
  | hostPort (s : Side)
  | otherBoard
deriving DecidableEq, Repr

/-- R280, U12: the device's own error value, opaque: nothing in the model inspects it. -/
structure DevError where
  code : Nat
deriving DecidableEq, Repr

/-- R280, R281: the closed enumeration of exactly seven error kinds. -/
inductive ErrKind
  | incomplete
  | invalidTag (b : Byte)
  | invalidField (b : Byte)
  | trailingBytes
  | utf8Error
  | logTooLong
  | deviceError (e : DevError)
deriving DecidableEq, Repr

/-- The result `Ok | Err(kind)` of an operation that calls a device (R146, R150, R253). -/
inductive Res
  | ok
  | err (k : ErrKind)
deriving DecidableEq, Repr

/-- R16: the sixteen commands. A signed field is held as its bit pattern. -/
inductive Command
  | setSideLed (v : Bool)
  | setOrangeLed (v : Bool)
  | setRedLed (v : Bool)
  | setGreenLed (v : Bool)
  | addBuzzerNote (frequency : Option Word32) (durationMs : Word32)
  | reportBattery
  | reportCharger
  | setMaxTorque (negative positive : Word16)
  | setSpringConstant (k : Word16)
  | setTarget (x : Word64)
  | removeTarget
  | recenter
  | incrementTarget
  | decrementTarget
  | powerOff
  | testMotor
deriving DecidableEq, Repr

/-- R17: the five responses (the three reports, the log line and the power-off notification). -/
inductive Response
  | position (x : Word64)
  | batteryReadings (batteryVoltage backupBatteryVoltage motorCurrent : Word16)
  | chargeState (chargerConnected : Bool)
  | log (s : List Byte)
  | powerOff
deriving DecidableEq, Repr

/-- R16: a command paired with its side, "the unit actually placed on the wire". -/
structure DirectedCommand where
  side : Side
  command : Command
deriving DecidableEq, Repr

/-- R17: a response paired with its side, "the unit received from the wire". -/
structure SideResponse where
  side : Side
  response : Response
deriving DecidableEq, Repr

/-- R170: the two tag maps a body is decoded with. -/
inductive MsgMap
  | command
  | response
deriving DecidableEq, Repr

/-- R97: the `map` of a wire row of the opcode table. -/
inductive TableMap
  | command
  | response
  | side
deriving DecidableEq, Repr

/-- A message body's value, of either map. -/
inductive Val
  | command (c : Command)
  | response (r : Response)
deriving DecidableEq, Repr

/-- A directed value, of either map (R81). -/
inductive Directed
  | command (dc : DirectedCommand)
  | response (sr : SideResponse)
deriving DecidableEq, Repr

/-- R11: the outcome of a decode. The count of an error is absent where "the corrupted byte count is ambiguous". -/
inductive Parse (α : Type)
  | incomplete
  | ok (v : α) (n : Nat)
  | err (k : ErrKind) (c : Option Nat)
deriving DecidableEq, Repr, Inhabited

/-- R26, R301: a serial peripheral. `ready`: it can take a byte; `out`: bytes accepted and not yet on the link, oldest
first; `answers`: the environment's answers to the calls to come, one for each fallible call: an error, or the answer
of the contract. -/
structure Device where
  ready : Bool
  out : List Byte
  answers : List (Option DevError)
deriving DecidableEq, Repr

/-- Which ring an operation of the `RB` family names: a board's stand-alone one, or the one inside a transmit engine
(R120). -/
inductive RingSel
  | alone (b : BoardId)
  | engine (b : BoardId) (d : Dir)
deriving DecidableEq, Repr

/-- Which accumulation buffer an operation of the `LINK` family names (R27). -/
inductive AccSel
  | host (s : Side)
  | board (b : BoardId) (d : Dir)
deriving DecidableEq, Repr

/-- Who may request an instruction: an agent of one board, the host's thread, any agent (a pure function), or nobody: a
wire message is not requested, it arrives on a link (R13, R14, R89). -/
inductive Owner
  | wire
  | anyone
  | board (b : BoardId)
  | host
deriving DecidableEq, Repr

end Sys2Proof
end

