-- ==== Sys2Proof/Config.lean ====
section
/-! DEFINITION. The implementation parameters of rule R7 of spec/00_scope.md. They are the fields of one record, which
State carries and no step writes: a claim about every state is a claim about every value of them (R32). -/

namespace Sys2Proof

/-- R7. The parameters the spec leaves OPEN; `upstream` is the wiring of the stations (R2). -/
structure Config where
  /-- `N` of each board's stand-alone ring (R120). -/
  ringCapacity : Nat
  /-- `TX_CAPACITY`. -/
  txCapacity : Nat
  /-- `LOG_MAX`. -/
  logMax : Nat
  /-- `MIN_SEND_INTERVAL`. -/
  minSendInterval : Time
  /-- `READ_MAX`. -/
  readMax : Nat
  /-- `STAMP_ALL_COMMANDS`. -/
  stampAllCommands : Bool
  /-- `BOARD_SIDE` of each board. -/
  boardSide : PerBoard Side
  /-- `HAS_DOWNSTREAM` of each board. -/
  hasDownstream : PerBoard Bool
  /-- `PORT_LEFT` and `PORT_RIGHT`: whether the host has the port. -/
  port : PerSide Bool
  /-- What each board's upstream link is wired to. -/
  upstream : PerBoard Upstream
deriving DecidableEq, Repr

/-- The bounds R7 puts on the parameters. -/
abbrev Config.Wf (c : Config) : Prop :=
  1 ≤ c.ringCapacity ∧ 2 ≤ c.txCapacity ∧ 0 < c.minSendInterval ∧ 1 ≤ c.readMax

/-- R7: `TARGET_STEP`, recorded; no rule of the block reads it (D37). -/
def Config.targetStep : Nat := 10

/-- DESIGN CHOICE (log entry 40): what `parse_log` answers, with `LOG_MAX`, for a string that does not begin with 0x22. R204
states the result only for a string that does, so the value is free; it is a function of the operand, since every parse
is pure (R59). -/
opaque Config.parseLogUntagged : Nat → List Byte → Parse Val

/-- The parameter values of the reset machine. `TX_CAPACITY = 300` and `STAMP_ALL_COMMANDS = false` are R7's defaults;
the others are DESIGN CHOICE (log entry 1), the values spec/95_test_vectors.md works with. -/
def Config.initial : Config where
  ringCapacity := 4
  txCapacity := 300
  logMax := 8
  minSendInterval := 100
  readMax := 16
  stampAllCommands := false
  boardSide := ⟨.left, .right⟩
  hasDownstream := ⟨true, false⟩
  port := ⟨true, false⟩
  upstream := ⟨.hostPort .left, .otherBoard⟩

end Sys2Proof
end

