-- ==== Sys2Proof/Syntax.lean ====
section
/-! DEFINITION. The instructions: one constructor for each row of spec/opcode_table.json, in the table's order. The
first 23 are the wire messages (R80, R87, R88, R81); the other 34 are the port operations (R97), whose operands name the
instance they act on. -/

namespace Sys2Proof

/-- One constructor for each row of the opcode table. -/
inductive Instr
  -- commands (R175 to R190)
  | setSideLed (v : Bool)
  | setOrangeLed (v : Bool)
  | setRedLed (v : Bool)
  | setGreenLed (v : Bool)
  | addBuzzerNote (frequency : Option Word32) (durationMs : Word32)
  | reportBattery
  | reportCharger
  | setMaxTorque (negative positive : Word16)
  | setSpringConstant (k : Word16)
  | setTarget (x : Word64)
  | removeTarget
  | recenter
  | incrementTarget
  | decrementTarget
  | powerOff
  | testMotor
  -- responses (R201 to R205)
  | position (x : Word64)
  | batteryReadings (batteryVoltage backupBatteryVoltage motorCurrent : Word16)
  | chargeState (chargerConnected : Bool)
  | log (s : List Byte)
  | powerOffResponse
  -- side tags (R81, R211)
  | sideLeft
  | sideRight
  -- ring buffer (R121 to R126)
  | rbAdd (r : RingSel) (item : Byte)
  | rbAddAll (r : RingSel) (slice : List Byte)
  | rbTake (r : RingSel)
  | rbPeek (r : RingSel)
  | rbIsEmpty (r : RingSel)
  | rbIsFull (r : RingSel)
  -- transmit engine (R142 to R150)
  | txSetDevice (b : BoardId) (d : Dir) (w : Device)
  | txKick (b : BoardId) (d : Dir)
  | txWrite (b : BoardId) (d : Dir) (bytes : List Byte)
  | txTryWrite (b : BoardId) (d : Dir)
  | txFlush (b : BoardId) (d : Dir)
  -- codec (R171 to R174, R204, R210 to R212)
  | codecParseBody (map : MsgMap) (s : List Byte)
  | codecDecodeBody (map : MsgMap) (s : List Byte)
  | codecEncode (v : Val)
  | codecParseLog (s : List Byte)
  | codecEncDirected (v : Directed)
  | codecParseDirected (map : MsgMap) (s : List Byte)
  | codecDecodeDirected (map : MsgMap) (s : List Byte)
  -- link receiver (R214, R215)
  | linkIngest (acc : AccSel) (bytes : List Byte)
  | linkResolveOnce (acc : AccSel) (map : MsgMap)
  -- side router (R230 to R236)
  | routerOnCommand (b : BoardId) (dc : DirectedCommand)
  | routerLocalDispatch (b : BoardId) (command : Command)
  | routerCannotForward (b : BoardId) (dc : DirectedCommand)
  | routerForwardCommand (b : BoardId) (dc : DirectedCommand)
  | routerOnResponse (b : BoardId) (sr : SideResponse)
  | routerLocalReaction (b : BoardId) (response : Response)
  | routerSendResponse (b : BoardId) (response : Response)
  -- host dispatcher (R251 to R257)
  | hostSelectPort (side : Side)
  | hostTransmit (side : Side) (command : Command)
  | hostSendCommand (side : Side) (command : Command) (now : Time)
  | hostTransmitTarget (side : Side) (x : Word64) (now : Time)
  | hostSetTarget (side : Side) (x : Word64) (now : Time)
  | hostReceive (p : Side)
  | hostTick (now : Time)
deriving DecidableEq, Repr

end Sys2Proof
end

