-- ==== Sys2Proof/Decode.lean ====
section
/-! DEFINITION. The wire codec: byte order (R9, R52), field codings and formats (R82, R84, R85), the tag maps (R87,
R88), UTF-8 validity (R98), the stream parse and the exact decode (R171, R172, R204, R211, R212), the decoder from bytes
to an instruction, and after it the encoder (R174, R210) and the word form of the opcode table (R97). -/

namespace Sys2Proof

/-! ## Wire rows as instructions -/

/-- The wire message of a command. -/
def Instr.ofCommand : Command → Instr
  | .setSideLed v => .setSideLed v
  | .setOrangeLed v => .setOrangeLed v
  | .setRedLed v => .setRedLed v
  | .setGreenLed v => .setGreenLed v
  | .addBuzzerNote f d => .addBuzzerNote f d
  | .reportBattery => .reportBattery
  | .reportCharger => .reportCharger
  | .setMaxTorque n p => .setMaxTorque n p
  | .setSpringConstant k => .setSpringConstant k
  | .setTarget x => .setTarget x
  | .removeTarget => .removeTarget
  | .recenter => .recenter
  | .incrementTarget => .incrementTarget
  | .decrementTarget => .decrementTarget
  | .powerOff => .powerOff
  | .testMotor => .testMotor

/-- The wire message of a response. -/
def Instr.ofResponse : Response → Instr
  | .position x => .position x
  | .batteryReadings a b c => .batteryReadings a b c
  | .chargeState v => .chargeState v
  | .log s => .log s
  | .powerOff => .powerOffResponse

/-- The wire message of a body's value. -/
def Instr.ofVal : Val → Instr
  | .command c => .ofCommand c
  | .response r => .ofResponse r

/-- The side tag of a side, as a wire row. -/
def Instr.ofSide : Side → Instr
  | .left => .sideLeft
  | .right => .sideRight

/-- The body a wire row of the command or response map stands for; absent for a side tag and a port operation. -/
def Instr.val? : Instr → Option Val
  | .setSideLed v => some (.command (.setSideLed v))
  | .setOrangeLed v => some (.command (.setOrangeLed v))
  | .setRedLed v => some (.command (.setRedLed v))
  | .setGreenLed v => some (.command (.setGreenLed v))
  | .addBuzzerNote f d => some (.command (.addBuzzerNote f d))
  | .reportBattery => some (.command .reportBattery)
  | .reportCharger => some (.command .reportCharger)
  | .setMaxTorque n p => some (.command (.setMaxTorque n p))
  | .setSpringConstant k => some (.command (.setSpringConstant k))
  | .setTarget x => some (.command (.setTarget x))
  | .removeTarget => some (.command .removeTarget)
  | .recenter => some (.command .recenter)
  | .incrementTarget => some (.command .incrementTarget)
  | .decrementTarget => some (.command .decrementTarget)
  | .powerOff => some (.command .powerOff)
  | .testMotor => some (.command .testMotor)
  | .position x => some (.response (.position x))
  | .batteryReadings a b c => some (.response (.batteryReadings a b c))
  | .chargeState v => some (.response (.chargeState v))
  | .log s => some (.response (.log s))
  | .powerOffResponse => some (.response .powerOff)
  | .sideLeft | .sideRight => none
  | .rbAdd _ _ | .rbAddAll _ _ | .rbTake _ | .rbPeek _ | .rbIsEmpty _ | .rbIsFull _ => none
  | .txSetDevice _ _ _ | .txKick _ _ | .txWrite _ _ _ | .txTryWrite _ _ | .txFlush _ _ => none
  | .codecParseBody _ _ | .codecDecodeBody _ _ | .codecEncode _ | .codecParseLog _ => none
  | .codecEncDirected _ | .codecParseDirected _ _ | .codecDecodeDirected _ _ => none
  | .linkIngest _ _ | .linkResolveOnce _ _ => none
  | .routerOnCommand _ _ | .routerLocalDispatch _ _ | .routerCannotForward _ _ => none
  | .routerForwardCommand _ _ | .routerOnResponse _ _ | .routerLocalReaction _ _ => none
  | .routerSendResponse _ _ => none
  | .hostSelectPort _ | .hostTransmit _ _ | .hostSendCommand _ _ _ | .hostTransmitTarget _ _ _ => none
  | .hostSetTarget _ _ _ | .hostReceive _ | .hostTick _ => none

/-- The side a side tag stands for. -/
def Instr.side? (i : Instr) : Option Side :=
  if i = .sideLeft then some .left else if i = .sideRight then some .right else none

/-- The map a value's body is decoded with (R89). -/
def Val.map : Val → MsgMap
  | .command _ => .command
  | .response _ => .response

/-- The map of a wire row (R97); absent for a port operation. -/
def Instr.tableMap? (i : Instr) : Option TableMap :=
  match i.val?, i.side? with
  | some (.command _), _ => some .command
  | some (.response _), _ => some .response
  | none, some _ => some .side
  | none, none => none

/-! ## Bytes and integers -/

/-- R9: `le_N(v)` with `n = N/8`: the low `n` bytes of `v`, least significant first. -/
def leBytes : Nat → Nat → List Byte
  | 0, _ => []
  | n + 1, v => BitVec.ofNat 8 v :: leBytes n (v / 256)

/-- R9: `from_le_u(s)`. A signed field is the same bits read at its own width. -/
def fromLe : List Byte → Nat
  | [] => 0
  | b :: bs => b.toNat + 256 * fromLe bs

/-! ## Codings and formats -/

/-- R82: the codings of a field. -/
inductive Coding
  | bool
  | u16
  | i16
  | u32
  | i64
  | optFreq
deriving DecidableEq, Repr

/-- R82: the width in bytes. -/
def Coding.width : Coding → Nat
  | .bool => 1
  | .u16 => 2
  | .i16 => 2
  | .u32 => 4
  | .i64 => 8
  | .optFreq => 4

/-- R84: the nine formats. -/
inductive Format
  | f0
  | fb
  | fu16
  | fi16x2
  | fu16x3
  | ffreq
  | fi64
  | flog
  | fside
deriving DecidableEq, Repr

/-- R84, R85: the fields after the tag, in order. The payload of `FLOG` is delimited and is no field of fixed width. -/
def Format.fields : Format → List Coding
  | .f0 => []
  | .fb => [.bool]
  | .fu16 => [.u16]
  | .fi16x2 => [.i16, .i16]
  | .fu16x3 => [.u16, .u16, .u16]
  | .ffreq => [.optFreq, .u32]
  | .fi64 => [.i64]
  | .flog => []
  | .fside => []

/-- R82: `BOOL`: `'0'` is false and `'1'` is true. -/
def boolByte (v : Bool) : Nat := if v then 0x31 else 0x30

/-- R82: the bytes a `BOOL` field admits. -/
def isBoolByte (b : Byte) : Bool := b == 0x30#8 || b == 0x31#8

/-- R82: the value of an admitted `BOOL` byte. -/
def boolOf (v : Nat) : Bool := v == 0x31

/-- R82: `OPTFREQ`, value to bytes: none is 0. -/
def freqValue : Option Word32 → Nat
  | none => 0
  | some f => f.toNat

/-- R82: `OPTFREQ`, bytes to value. -/
def freqOf (v : Nat) : Option Word32 := if v = 0 then none else some (BitVec.ofNat 32 v)

/-! ## Tag maps -/

/-- One row of a tag map: the tag, the format, and the value built from the raw field values in table order. -/
structure Row where
  tag : Byte
  format : Format
  build : List Nat → Val

/-- The raw value of field `i`. -/
def fieldAt (vs : List Nat) (i : Nat) : Nat := vs.getD i 0

/-- R87: the sixteen commands. -/
def commandRows : List Row := [
  ⟨0x6C#8, .fb, fun v => .command (.setSideLed (boolOf (fieldAt v 0)))⟩,
  ⟨0x6F#8, .fb, fun v => .command (.setOrangeLed (boolOf (fieldAt v 0)))⟩,
  ⟨0x72#8, .fb, fun v => .command (.setRedLed (boolOf (fieldAt v 0)))⟩,
  ⟨0x67#8, .fb, fun v => .command (.setGreenLed (boolOf (fieldAt v 0)))⟩,
  ⟨0x66#8, .ffreq, fun v => .command (.addBuzzerNote (freqOf (fieldAt v 0)) (BitVec.ofNat 32 (fieldAt v 1)))⟩,
  ⟨0x62#8, .f0, fun _ => .command .reportBattery⟩,
  ⟨0x63#8, .f0, fun _ => .command .reportCharger⟩,
  ⟨0x53#8, .fi16x2, fun v => .command (.setMaxTorque (BitVec.ofNat 16 (fieldAt v 0)) (BitVec.ofNat 16 (fieldAt v 1)))⟩,
  ⟨0x4B#8, .fu16, fun v => .command (.setSpringConstant (BitVec.ofNat 16 (fieldAt v 0)))⟩,
  ⟨0x54#8, .fi64, fun v => .command (.setTarget (BitVec.ofNat 64 (fieldAt v 0)))⟩,
  ⟨0x6E#8, .f0, fun _ => .command .removeTarget⟩,
  ⟨0x65#8, .f0, fun _ => .command .recenter⟩,
  ⟨0x2B#8, .f0, fun _ => .command .incrementTarget⟩,
  ⟨0x2D#8, .f0, fun _ => .command .decrementTarget⟩,
  ⟨0x70#8, .f0, fun _ => .command .powerOff⟩,
  ⟨0x74#8, .f0, fun _ => .command .testMotor⟩]

/-- R88: the five responses. The value of a `Log` comes from `parseLog`, not from fields. -/
def responseRows : List Row := [
  ⟨0x49#8, .fi64, fun v => .response (.position (BitVec.ofNat 64 (fieldAt v 0)))⟩,
  ⟨0x42#8, .fu16x3, fun v => .response (.batteryReadings (BitVec.ofNat 16 (fieldAt v 0))
    (BitVec.ofNat 16 (fieldAt v 1)) (BitVec.ofNat 16 (fieldAt v 2)))⟩,
  ⟨0x43#8, .fb, fun v => .response (.chargeState (boolOf (fieldAt v 0)))⟩,
  ⟨0x22#8, .flog, fun _ => .response (.log [])⟩,
  ⟨0x70#8, .f0, fun _ => .response .powerOff⟩]

/-- R89: the two tag spaces. -/
def MsgMap.rows : MsgMap → List Row
  | .command => commandRows
  | .response => responseRows

/-- The row a tag selects, where the map has it. -/
def MsgMap.row? (map : MsgMap) (t : Byte) : Option Row := map.rows.find? (fun r => r.tag == t)

/-- R15, R83: the side tags. -/
def sideTag : Side → Byte
  | .left => 0x4C#8
  | .right => 0x52#8

/-- R81: the side a byte at the side-tag position names. -/
def sideOf (b : Byte) : Option Side :=
  if b = 0x4C#8 then some .left else if b = 0x52#8 then some .right else none

/-! ## UTF-8 -/

/-- R98: what must follow a first byte: the inclusive range of each continuation byte; none where the byte begins no
sequence. -/
def utf8Lead (b : Byte) : Option (List (Nat × Nat)) :=
  let n := b.toNat
  if n ≤ 0x7F then some []
  else if 0xC2 ≤ n ∧ n ≤ 0xDF then some [(0x80, 0xBF)]
  else if n = 0xE0 then some [(0xA0, 0xBF), (0x80, 0xBF)]
  else if 0xE1 ≤ n ∧ n ≤ 0xEC then some [(0x80, 0xBF), (0x80, 0xBF)]
  else if n = 0xED then some [(0x80, 0x9F), (0x80, 0xBF)]
  else if 0xEE ≤ n ∧ n ≤ 0xEF then some [(0x80, 0xBF), (0x80, 0xBF)]
  else if n = 0xF0 then some [(0x90, 0xBF), (0x80, 0xBF), (0x80, 0xBF)]
  else if 0xF1 ≤ n ∧ n ≤ 0xF3 then some [(0x80, 0xBF), (0x80, 0xBF), (0x80, 0xBF)]
  else if n = 0xF4 then some [(0x80, 0x8F), (0x80, 0xBF), (0x80, 0xBF)]
  else none

/-- R98: the scan, with the ranges still owed by the sequence begun. -/
def utf8Scan : List (Nat × Nat) → List Byte → Bool
  | [], [] => true
  | _ :: _, [] => false
  | r :: rs, b :: bs => decide (r.1 ≤ b.toNat ∧ b.toNat ≤ r.2) && utf8Scan rs bs
  | [], b :: bs =>
    match utf8Lead b with
    | none => false
    | some rs => utf8Scan rs bs

/-- R98: whether a byte string is valid UTF-8. -/
def utf8Valid (s : List Byte) : Bool := utf8Scan [] s

/-! ## The stream parse -/

/-- The newline byte that ends a log line (R91). -/
def newline : Byte := 0x0A#8

/-- The offset of the first newline. -/
def lineEnd : List Byte → Option Nat
  | [] => none
  | b :: bs => if b = newline then some 0 else (lineEnd bs).map (· + 1)

/-- R204: `parse_log(s)`; the first byte of `s` is the tag. -/
def parseLog (logMax : Nat) (s : List Byte) : Parse Val :=
  let p := s.drop 1
  match lineEnd p with
  | some i =>
    if logMax < i then .err .logTooLong none
    else if utf8Valid (p.take i) = false then .err .utf8Error (some (i + 2))
    else .ok (.response (.log (p.take i))) (i + 2)
  | none => if logMax < p.length then .err .logTooLong none else .incomplete

/-- The outcome of scanning the fields of a body. -/
inductive FieldScan
  | incomplete
  | ok (vals : List Nat) (n : Nat)
  | bad (b : Byte) (n : Nat)
deriving DecidableEq, Repr

/-- The loop of R171 over the fields, on the bytes that follow those already read; counts are in bytes. -/
def scanFields : List Coding → List Byte → FieldScan
  | [], _ => .ok [] 0
  | c :: cs, s =>
    if s.length < c.width then .incomplete
    else if c = .bool ∧ isBoolByte (s.headD 0#8) = false then .bad (s.headD 0#8) 1
    else
      match scanFields cs (s.drop c.width) with
      | .incomplete => .incomplete
      | .ok vs n => .ok (fromLe (s.take c.width) :: vs) (c.width + n)
      | .bad b n => .bad b (c.width + n)

/-- R171: `parse_body(map, s)`. It reads no byte beyond the one that brings its verdict, so a verdict stands whatever follows
(R194). -/
def parseBody (logMax : Nat) (map : MsgMap) (s : List Byte) : Parse Val :=
  match s with
  | [] => .incomplete
  | t :: rest =>
    match map.row? t with
    | none => .err (.invalidTag t) (some 1)
    | some r =>
      if r.format = .flog then parseLog logMax (t :: rest)
      else
        match scanFields r.format.fields rest with
        | .incomplete => .incomplete
        | .ok vs n => .ok (r.build vs) (n + 1)
        | .bad b n => .err (.invalidField b) (some (n + 1))

/-- A body's value with its side. -/
def Directed.of (side : Side) : Val → Directed
  | .command c => .command ⟨side, c⟩
  | .response r => .response ⟨side, r⟩

/-- The side of a directed value. -/
def Directed.side : Directed → Side
  | .command dc => dc.side
  | .response sr => sr.side

/-- The body's value of a directed value. -/
def Directed.val : Directed → Val
  | .command dc => .command dc.command
  | .response sr => .response sr.response

/-- R211: `parse_directed(map, s)`. The laws of R191 to R194 hold of it and of `enc_directed` (R213). -/
def parseDirected (logMax : Nat) (map : MsgMap) (s : List Byte) : Parse Directed :=
  match s with
  | [] => .incomplete
  | t :: rest =>
    match sideOf t with
    | none => .err (.invalidTag t) (some 1)
    | some side =>
      match parseBody logMax map rest with
      | .incomplete => .incomplete
      | .ok v n => .ok (.of side v) (n + 1)
      | .err k c => .err k (c.map (· + 1))

/-! ## The exact decode -/

/-- Whether a value is a log line, the one variant the exact decode lets bytes follow (R172). -/
def Val.isLog : Val → Bool
  | .response (.log _) => true
  | _ => false

/-- R172: the exact decode made from a stream parse of a string of `len` bytes. -/
def exact {α : Type} (isLog : α → Bool) (len : Nat) : Parse α → Parse α
  | .ok v n => if n = len then .ok v n else if isLog v then .ok v n else .err .trailingBytes none
  | .incomplete => .incomplete
  | .err k c => .err k c

/-- R172: `decode_body(map, s)`. -/
def decodeBody (logMax : Nat) (map : MsgMap) (s : List Byte) : Parse Val :=
  exact Val.isLog s.length (parseBody logMax map s)

/-- R212: `decode_directed(map, s)`. -/
def decodeDirected (logMax : Nat) (map : MsgMap) (s : List Byte) : Parse Directed :=
  exact (fun v => v.val.isLog) s.length (parseDirected logMax map s)

/-! ## From bytes to an instruction -/

/-- What the decoder reads at the head of a byte string: an instruction and its length, too few bytes, or a rejection
with the spec's error kind and consumed count. -/
inductive Decoded
  | instr (i : Instr) (n : Nat)
  | incomplete
  | rejected (k : ErrKind) (c : Option Nat)
deriving DecidableEq, Repr

/-- R81, R92: a side tag. -/
def decodeSide : List Byte → Decoded
  | [] => .incomplete
  | t :: _ =>
    match sideOf t with
    | none => .rejected (.invalidTag t) (some 1)
    | some side => .instr (.ofSide side) 1

/-- R171 as a decoder to instructions. -/
def decodeMsg (logMax : Nat) (map : MsgMap) (s : List Byte) : Decoded :=
  match parseBody logMax map s with
  | .incomplete => .incomplete
  | .ok v n => .instr (.ofVal v) n
  | .err k c => .rejected k c

/-- The decoder: which map applies is given by the link's direction and the position, never by the bytes (R89). -/
def decode (logMax : Nat) (map : TableMap) (s : List Byte) : Decoded :=
  match map with
  | .command => decodeMsg logMax .command s
  | .response => decodeMsg logMax .response s
  | .side => decodeSide s

/-! ## The encoder -/

/-- R87: the tag of a command. -/
def Command.tag : Command → Byte
  | .setSideLed _ => 0x6C#8
  | .setOrangeLed _ => 0x6F#8
  | .setRedLed _ => 0x72#8
  | .setGreenLed _ => 0x67#8
  | .addBuzzerNote _ _ => 0x66#8
  | .reportBattery => 0x62#8
  | .reportCharger => 0x63#8
  | .setMaxTorque _ _ => 0x53#8
  | .setSpringConstant _ => 0x4B#8
  | .setTarget _ => 0x54#8
  | .removeTarget => 0x6E#8
  | .recenter => 0x65#8
  | .incrementTarget => 0x2B#8
  | .decrementTarget => 0x2D#8
  | .powerOff => 0x70#8
  | .testMotor => 0x74#8

/-- R87: the format of a command. -/
def Command.format : Command → Format
  | .setSideLed _ | .setOrangeLed _ | .setRedLed _ | .setGreenLed _ => .fb
  | .addBuzzerNote _ _ => .ffreq
  | .setMaxTorque _ _ => .fi16x2
  | .setSpringConstant _ => .fu16
  | .setTarget _ => .fi64
  | .reportBattery | .reportCharger | .removeTarget | .recenter | .incrementTarget | .decrementTarget
  | .powerOff | .testMotor => .f0

/-- The raw field values of a command, in table order. -/
def Command.values : Command → List Nat
  | .setSideLed v | .setOrangeLed v | .setRedLed v | .setGreenLed v => [boolByte v]
  | .addBuzzerNote f d => [freqValue f, d.toNat]
  | .setMaxTorque n p => [n.toNat, p.toNat]
  | .setSpringConstant k => [k.toNat]
  | .setTarget x => [x.toNat]
  | .reportBattery | .reportCharger | .removeTarget | .recenter | .incrementTarget | .decrementTarget
  | .powerOff | .testMotor => []

/-- R88: the tag of a response. -/
def Response.tag : Response → Byte
  | .position _ => 0x49#8
  | .batteryReadings _ _ _ => 0x42#8
  | .chargeState _ => 0x43#8
  | .log _ => 0x22#8
  | .powerOff => 0x70#8

/-- R88: the format of a response. -/
def Response.format : Response → Format
  | .position _ => .fi64
  | .batteryReadings _ _ _ => .fu16x3
  | .chargeState _ => .fb
  | .log _ => .flog
  | .powerOff => .f0

/-- The raw field values of a response, in table order. -/
def Response.values : Response → List Nat
  | .position x => [x.toNat]
  | .batteryReadings a b c => [a.toNat, b.toNat, c.toNat]
  | .chargeState v => [boolByte v]
  | .log _ => []
  | .powerOff => []

/-- R85: the field bytes. -/
def encFields : List Coding → List Nat → List Byte
  | c :: cs, v :: vs => leBytes c.width v ++ encFields cs vs
  | [], _ => []
  | _ :: _, [] => []

/-- R174: `enc_command(c)`. -/
def encCommand (c : Command) : List Byte := c.tag :: encFields c.format.fields c.values

/-- R174, R204: `enc_response(r)`. -/
def encResponse (r : Response) : List Byte :=
  match r with
  | .log s => r.tag :: (s ++ [newline])
  | .position _ | .batteryReadings _ _ _ | .chargeState _ | .powerOff =>
    r.tag :: encFields r.format.fields r.values

/-- R174: the body of a value of either map. -/
def encVal : Val → List Byte
  | .command c => encCommand c
  | .response r => encResponse r

/-- R210: `enc_directed_command(dc)`. -/
def encDirectedCommand (dc : DirectedCommand) : List Byte := sideTag dc.side :: encCommand dc.command

/-- R210: `enc_side_response(sr)`. -/
def encSideResponse (sr : SideResponse) : List Byte := sideTag sr.side :: encResponse sr.response

/-- R210: the encoding of a directed value. -/
def encDirected : Directed → List Byte
  | .command dc => encDirectedCommand dc
  | .response sr => encSideResponse sr

/-- The bytes of a wire row; a port operation has none (R97). -/
def encode (i : Instr) : Option (List Byte) :=
  match i.val? with
  | some v => some (encVal v)
  | none => i.side?.map (fun s => [sideTag s])

/-! ## The word form of the opcode table -/

/-- The longest body of a fixed format, in bytes (R86). -/
def longestFixedBody : Nat := 9

/-- The bytes of a table word in wire order. The table's reader takes a row's bytes as ONE number whose most significant
byte is the first on the wire (log entry 19); the zero bytes after it are the operand bytes the table gives no bits. -/
def tableBytes (nbits w : Nat) : List Byte :=
  (leBytes (nbits / 8) w).reverse ++ List.replicate (longestFixedBody - nbits / 8) 0#8

/-- A table word with the map it is read with: the command map, else the response map, else the side tags. No byte is a
tag of two of the three but 0x70, which is then the command (R89, log entry 19). -/
def decodeTable (logMax : Nat) (s : List Byte) : Option (TableMap × Instr × Nat) :=
  match decode logMax .command s with
  | .instr i n => some (.command, i, n)
  | _ =>
    match decode logMax .response s with
    | .instr i n => some (.response, i, n)
    | _ =>
      match decode logMax .side s with
      | .instr i n => some (.side, i, n)
      | _ => none

/-- The instruction the decoder reads from a word numbered as spec/opcode_table.json numbers it. -/
def decodeTableWord (nbits w : Nat) : Option Instr :=
  (decodeTable Config.initial.logMax (tableBytes nbits w)).map (fun r => r.2.1)

end Sys2Proof
end

