-- ==== Sys2Proof/WellFormed.lean ====
section
/-! DEFINITION. Well-formed values (R16, R17, R174, D38) and well-formed instructions. The bounds of the integer types
are carried by the bit vectors; what is left to check is a buzzer frequency of `some 0` and the log string. -/

namespace Sys2Proof

/-- Why a value or an instruction is not well-formed. -/
inductive IllFormed
  /-- `some 0` is no frequency (R16, C8). -/
  | frequencyZero
  /-- A log string longer than `LOG_MAX` (R17). -/
  | logTooLong
  /-- A log string that holds 0x0A (R17). -/
  | logNewline
  /-- A log string that is not valid UTF-8 (R17). -/
  | logNotUtf8
deriving DecidableEq, Repr

/-- R16. -/
def Command.check : Command → Option IllFormed
  | .addBuzzerNote (some f) _ => if f = 0#32 then some .frequencyZero else none
  | .addBuzzerNote none _ => none
  | .setSideLed _ | .setOrangeLed _ | .setRedLed _ | .setGreenLed _ | .reportBattery | .reportCharger
  | .setMaxTorque _ _ | .setSpringConstant _ | .setTarget _ | .removeTarget | .recenter | .incrementTarget
  | .decrementTarget | .powerOff | .testMotor => none

/-- R17: a log string. -/
def checkLog (logMax : Nat) (s : List Byte) : Option IllFormed :=
  if logMax < s.length then some .logTooLong
  else if s.contains newline then some .logNewline
  else if utf8Valid s = false then some .logNotUtf8
  else none

/-- R17. -/
def Response.check (logMax : Nat) : Response → Option IllFormed
  | .log s => checkLog logMax s
  | .position _ | .batteryReadings _ _ _ | .chargeState _ | .powerOff => none

/-- R174: a value of either map. -/
def Val.check (logMax : Nat) : Val → Option IllFormed
  | .command c => c.check
  | .response r => r.check logMax

/-- R174: a directed value. -/
def Directed.check (logMax : Nat) (v : Directed) : Option IllFormed := v.val.check logMax

/-- The check of an instruction's operands. -/
def Instr.check (logMax : Nat) (i : Instr) : Option IllFormed :=
  match i.val? with
  | some v => v.check logMax
  | none =>
    match i with
    | .codecEncode v => v.check logMax
    | .codecEncDirected v => v.check logMax
    | .routerOnCommand _ dc | .routerCannotForward _ dc | .routerForwardCommand _ dc => dc.command.check
    | .routerLocalDispatch _ c => c.check
    | .routerOnResponse _ sr => sr.response.check logMax
    | .routerLocalReaction _ r | .routerSendResponse _ r => r.check logMax
    | .hostTransmit _ c | .hostSendCommand _ c _ => c.check
    | .setSideLed _ | .setOrangeLed _ | .setRedLed _ | .setGreenLed _ | .addBuzzerNote _ _ | .reportBattery
    | .reportCharger | .setMaxTorque _ _ | .setSpringConstant _ | .setTarget _ | .removeTarget | .recenter
    | .incrementTarget | .decrementTarget | .powerOff | .testMotor | .position _ | .batteryReadings _ _ _
    | .chargeState _ | .log _ | .powerOffResponse | .sideLeft | .sideRight
    | .rbAdd _ _ | .rbAddAll _ _ | .rbTake _ | .rbPeek _ | .rbIsEmpty _ | .rbIsFull _
    | .txSetDevice _ _ _ | .txKick _ _ | .txWrite _ _ _ | .txTryWrite _ _ | .txFlush _ _
    | .codecParseBody _ _ | .codecDecodeBody _ _ | .codecParseLog _ | .codecParseDirected _ _ | .codecDecodeDirected _ _
    | .linkIngest _ _ | .linkResolveOnce _ _
    | .hostSelectPort _ | .hostTransmitTarget _ _ _ | .hostSetTarget _ _ _ | .hostReceive _ | .hostTick _ => none

/-- A well-formed command. -/
abbrev Command.Wf (c : Command) : Prop := c.check = none

/-- A well-formed response. -/
abbrev Response.Wf (logMax : Nat) (r : Response) : Prop := r.check logMax = none

/-- A well-formed value. -/
abbrev Val.Wf (logMax : Nat) (v : Val) : Prop := v.check logMax = none

/-- A well-formed directed value. -/
abbrev Directed.Wf (logMax : Nat) (v : Directed) : Prop := v.check logMax = none

/-- A well-formed instruction. -/
abbrev Instr.Wf (logMax : Nat) (i : Instr) : Prop := i.check logMax = none

end Sys2Proof
end

