-- ==== Sys2Proof/Machine/State.lean ====
section
/-! DEFINITION. The state of the whole link block, as plain data: two boards, the host and the
links between them (spec/10_state.md), the reasons a step stops, and the state after reset (R40, R320). -/

namespace Sys2Proof.Machine

/-- A step that reaches for an element the spec says this configuration does not have. Safe: the model stops. -/
inductive Fault
  /-- Raised by an operation on `TX_DOWN`, `RX_DOWN` or `acc_down` of a board with no downstream link (R20). Safe. -/
  | noDownstream
  /-- Raised by `HOST.receive` on a side with no configured port (R256). Safe. -/
  | noPort
deriving DecidableEq, Repr

/-- A request the spec gives no meaning: it breaks a precondition the spec names. Safe: the model stops. -/
inductive Refusal
  /-- Raised by exec's arm of an instruction that has no meaning yet. Safe. -/
  | notModelled (mnemonic : String)
  /-- Raised by `write` and `flush` while `dev = none` (R141, U4). Safe. -/
  | deviceAbsent
  /-- Raised by a second `set_device` (R142, U3). Safe. -/
  | deviceAlreadySet
  /-- Raised by a main-loop operation called from an interrupt handler (R297, R330, U2). Safe. -/
  | notMainLoop
  /-- Raised by a main-loop operation called while the board's main loop is in another (R25, R58, R333). Safe. -/
  | mainLoopBusy
  /-- Raised by a raw ring operation on the ring inside a transmit engine (R120, R330, U2). Safe. -/
  | ringInsideEngine
  /-- Raised by an operation given a value that is not well-formed (R174, U6). Safe. -/
  | illFormedValue
  /-- Raised by a host operation whose `now` is earlier than an earlier one's (R250, R261, U10). Safe. -/
  | clockBackwards
  /-- Raised by a `tick` asked for while one is in progress: the host has one thread (R57, log entry 41). Safe. -/
  | hostBusy
  /-- Raised by a step in which an agent requests an operation of another station (R61, R304). Safe. -/
  | wrongStation
  /-- Raised by a step in which an agent requests a wire message, which is no port operation (R14, R97). Safe. -/
  | notAPortOperation
deriving DecidableEq, Repr

/-- R21. A slot is `none` until `add` writes it; `take` leaves the slot as it is (log entry 8). -/
structure Ring (α : Type) where
  cap : Nat
  buf : List (Option α)
  start : Nat
  length : Nat
deriving DecidableEq, Repr

/-- R23. -/
structure Txe where
  rb : Ring Byte
  dev : Option Device
  irqEn : Bool
deriving DecidableEq, Repr

/-- R149: where a blocking operation stands between two of its atomic steps: it may take its next step; its pass has
ended and it has not begun to wait; it waits for a wake event. -/
inductive Phase
  | running
  | suspending
  | waiting
deriving DecidableEq, Repr

/-- To whom a `write` returns: the router, which logs a device error and goes on (R233, R234), or another caller. -/
inductive Caller
  | router
  | application
deriving DecidableEq, Repr

/-- R25, R216: what a board's main loop is in, between two of its steps. A receive step has three parts between which
any other agent may step (R12): the byte is in the buffer and `resolve_once` is still to run (`resolve`); `resolve_once`
has taken these bytes from the buffer, and the message or the decode error they are is still to be acted on (`settle`);
and then the operation the message asks for. -/
inductive Task
  | idle
  | resolve (d : Dir)
  | settle (d : Dir) (bytes : List Byte)
  | write (d : Dir) (rem : List Byte) (ph : Phase) (who : Caller)
  | flush (d : Dir) (ph : Phase)
deriving DecidableEq, Repr

/-- R235: the one local reaction. -/
inductive LocalEvent
  | powerOffSequence
deriving DecidableEq, Repr

/-- R237: the events of a board's `LOG` port; `writeError` is the forwarding error of R233. A `ReadError` carries the
error of the failed read (log entry 39). -/
inductive BoardLog
  | decodeError (d : Dir) (k : ErrKind) (bad : List Byte)
  | readError (d : Dir) (k : ErrKind)
  | cannotForward (dc : DirectedCommand)
  | writeError (d : Dir) (k : ErrKind)
deriving DecidableEq, Repr

/-- R250: the events of the host's `LOG` port. A `ReadError` carries the error of the failed call (log entry 39). -/
inductive HostLog
  | noPort
  | decodeError (k : ErrKind) (bad : List Byte) (p : Side)
  | readError (p : Side) (k : ErrKind)
  | writeError (s : Side) (k : ErrKind)
deriving DecidableEq, Repr

/-- R20, R28: one board. `ring` is its stand-alone ring (R120); `rxq` holds the bytes its peripherals have received and the
main loop has not yet taken (R333); `line` the bytes on the link behind each transmit device; `todo` the operations the
application asks of the main loop; `localCmd`, `localEvent` and `log` what the output ports of R237 carried, oldest
first. -/
structure Board where
  ring : Ring Byte
  tx : PerDir Txe
  acc : PerDir (List Byte)
  rxq : PerDir (List Byte)
  line : PerDir (List Byte)
  task : Task
  inHandler : Bool
  todo : List Instr
  localCmd : List Command
  localEvent : List LocalEvent
  log : List BoardLog
deriving DecidableEq, Repr

/-- R263: a write that fails after a part of its bytes is on the link. -/
structure PortFault where
  error : DevError
  sent : Nat
deriving DecidableEq, Repr

/-- R263: the host's serial port. `rx`: received and not yet read; `line`: on the link toward the board; the three lists
are the environment's answers to the calls to come. -/
structure Port where
  rx : List Byte
  line : List Byte
  writeAnswers : List (Option PortFault)
  availAnswers : List (Option DevError)
  readAnswers : List (Option DevError)
deriving DecidableEq, Repr

/-- R29: one side of the dispatcher. -/
structure HostLink where
  lastSend : Option Time
  pending : Option Word64
  acc : List Byte
  port : Port
deriving DecidableEq, Repr

/-- R257: the parts of one tick between which any other agent may step (R12): a send or a `receive`, of one side. -/
inductive TickStage
  | send (p : Side)
  | receive (p : Side)
deriving DecidableEq, Repr

/-- R57, R257: what the host's thread is in, between two of its steps: nothing, or a tick at `now` whose stage `st` comes
next. -/
inductive HostTask
  | idle
  | tick (st : TickStage) (now : Time)
deriving DecidableEq, Repr

/-- R29. `clock` is the latest `now` the dispatcher was given (R250); `task` what its thread is in; `yielded` and `log` what
the `YIELD` and `LOG` ports carried, oldest first. Which ports are configured stands in the configuration. -/
structure HostState where
  link : PerSide HostLink
  noPortLogged : Bool
  clock : Time
  task : HostTask
  yielded : List SideResponse
  log : List HostLog
deriving DecidableEq, Repr

/-- Where a response is being received. -/
inductive RespAt
  | host (p : Side)
  | board (b : BoardId)
deriving DecidableEq, Repr

/-- The receiver's context: where the message under resolution arrives (R89: the direction selects the map) and the side
tag read before its body (R81). -/
structure RxCtx where
  side : Side
  cmdAt : BoardId
  respAt : RespAt
deriving DecidableEq, Repr

/-- R215: what one attempt to resolve a buffer's head gives. -/
inductive LinkEvent
  | nothing
  | message (m : Directed)
  | decodeError (k : ErrKind) (bad : List Byte)
deriving DecidableEq, Repr

/-- What an operation returns to its caller; `unit` for one with no result. -/
inductive Ret
  | unit
  | flag (b : Bool)
  | count (n : Nat)
  | item (x : Option Byte)
  | result (r : Res)
  | body (p : Parse Val)
  | directed (p : Parse Directed)
  | bytes (bs : List Byte)
  | link (e : LinkEvent)
  | port (p : Option Side)
deriving DecidableEq, Repr

/-- A link, named by the end that sends on it. -/
inductive LinkId
  | fromPort (p : Side)
  | fromEngine (b : BoardId) (d : Dir)
deriving DecidableEq, Repr

/-- R13, R301: one step of one agent, with the choices the spec leaves to the schedule and the environment. -/
inductive Event
  /-- `APP`: the application asks board `b`'s main loop for an operation. -/
  | request (b : BoardId) (i : Instr)
  /-- `APP`: board `b`'s main loop takes its next atomic step. -/
  | mainLoop (b : BoardId)
  /-- `APP`: board `b`'s main loop takes one received byte of a link into the buffer (R216). -/
  | receive (b : BoardId) (d : Dir)
  /-- `APP`: a read on a link of board `b` raises `DeviceError(e)` (R219, R280). -/
  | readFault (b : BoardId) (d : Dir) (e : DevError)
  /-- `ISR`: the ready interrupt of an engine (R294); `seen`: it counts for a main loop about to wait (R149, U13). -/
  | readyInterrupt (b : BoardId) (d : Dir) (seen : Bool)
  /-- `OTHER_IRQ`: another handler of board `b` (R293), which may call one operation. -/
  | otherInterrupt (b : BoardId) (call : Option Instr) (seen : Bool)
  /-- `DEV`: the device becomes ready (R301 `complete`). -/
  | devComplete (b : BoardId) (d : Dir)
  /-- `DEV`: the oldest accepted byte goes onto the link (R301 `emit`). -/
  | devEmit (b : BoardId) (d : Dir)
  /-- `DEV`: what the device will answer to one more call (R301). -/
  | devAnswer (b : BoardId) (d : Dir) (a : Option DevError)
  /-- `WIRE`: the oldest byte of a link arrives (R62). -/
  | wireDeliver (l : LinkId)
  /-- `WIRE`: loss or corruption: the bytes on a link become any others (R338, U16). -/
  | wireGlitch (l : LinkId) (bytes : List Byte)
  /-- `HOSTLOOP`: the host's thread calls an operation. -/
  | hostLoop (i : Instr)
  /-- `HOSTLOOP`: the host's thread takes the next step of the tick it is in (R257). -/
  | hostNext
  /-- The host's serial port: its answer to one more `write_all`, `bytes_available` or `read` (R263). -/
  | portWriteAnswer (p : Side) (a : Option PortFault)
  | portAvailAnswer (p : Side) (a : Option DevError)
  | portReadAnswer (p : Side) (a : Option DevError)
deriving DecidableEq, Repr

/-- The link block. `cfg` is written by no step. `schedule` is the order in which agents step, with the environment's
choices: the spec leaves both open (R32), so nothing constrains the list. `ret` is what the operation run last
returned; none while it has not returned. -/
structure State where
  cfg : Config
  boards : PerBoard Board
  host : HostState
  rx : RxCtx
  ret : Option Ret
  schedule : List Event
deriving DecidableEq, Repr

/-- R40: a created ring. -/
def Ring.initial (α : Type) (cap : Nat) : Ring α := ⟨cap, List.replicate cap none, 0, 0⟩

/-- R40: a created transmit engine. -/
def Txe.initial (cap : Nat) : Txe := ⟨Ring.initial Byte cap, none, false⟩

/-- R40: a created board. -/
def Board.initial (c : Config) : Board where
  ring := Ring.initial Byte c.ringCapacity
  tx := ⟨Txe.initial c.txCapacity, Txe.initial c.txCapacity⟩
  acc := ⟨[], []⟩
  rxq := ⟨[], []⟩
  line := ⟨[], []⟩
  task := .idle
  inHandler := false
  todo := []
  localCmd := []
  localEvent := []
  log := []

/-- R40: a created side of the dispatcher. -/
def HostLink.initial : HostLink := ⟨none, none, [], ⟨[], [], [], [], []⟩⟩

/-- R40: a created dispatcher. -/
def HostState.initial : HostState := ⟨⟨HostLink.initial, HostLink.initial⟩, false, 0, .idle, [], []⟩

/-- R320: reset is creation, for any parameters. -/
def State.initial (c : Config) : State where
  cfg := c
  boards := ⟨Board.initial c, Board.initial c⟩
  host := HostState.initial
  rx := ⟨.left, .boardA, .host .left⟩
  ret := none
  schedule := []

/-- The machine right after reset, with the parameters of `Config.initial` (log entry 1). -/
def State.reset : State := State.initial Config.initial

end Sys2Proof.Machine
end

