-- ==== Sys2Proof/Machine/Flags.lean ====
section
/-! DEFINITION. The status flags of R30: the two derived flags of a ring, the device-present flag and the pending
condition of the ready interrupt. None but `irqEn` and `noPortLogged` is stored (R22, R26). -/

namespace Sys2Proof.Machine

/-- R22: `is_empty = (length = 0)`. -/
def Ring.isEmpty {α : Type} (r : Ring α) : Bool := r.length == 0

/-- R22: `is_full = (length = N)`. -/
def Ring.isFull {α : Type} (r : Ring α) : Bool := r.length == r.cap

/-- R30: `dev != none`. -/
def Txe.devicePresent (t : Txe) : Bool := t.dev.isSome

/-- R290: the ready interrupt is pending exactly when `irq_en and dev.ready`. -/
def Txe.readyPending (t : Txe) : Bool :=
  match t.dev with
  | none => false
  | some w => t.irqEn && w.ready

/-- R149, R306: whether a board's main loop is suspended in its low-power wait. -/
def Task.isWaiting : Task → Bool
  | .idle => false
  | .resolve _ => false
  | .settle _ _ => false
  | .write _ _ ph _ => ph == .waiting
  | .flush _ ph => ph == .waiting

/-- R143: the interrupt enable as every `kick` leaves it that meets no device error: `set_interrupt_enabled`. -/
def Txe.rearm (t : Txe) : Txe := { t with irqEn := !t.rb.isEmpty }

/-- R255: whether a target may be sent: nothing sent yet, or the interval has elapsed. -/
def sendDue (interval : Time) (lastSend : Option Time) (now : Time) : Bool :=
  match lastSend with
  | none => true
  | some t => decide (interval ≤ now - t)

end Sys2Proof.Machine
end

