-- ==== Sys2Proof/Machine/Operands.lean ====
section
/-! DEFINITION. Operand forms: how an operand names a board, a transmit engine, a ring, an accumulation buffer or a side
of the dispatcher, who owns an instruction, and the checks on the context an operation is called in (R297). -/

namespace Sys2Proof.Machine

/-- A step's outcome. -/
abbrev Result := Host.Outcome State Fault Refusal

/-- Go on from a next state; a stop stays a stop. -/
def andThen (o : Result) (f : State → Result) : Result :=
  match o with
  | .next s => f s
  | .fault r => .fault r
  | .refused r => .refused r

/-- One board of the state. -/
def State.board (s : State) (b : BoardId) : Board := s.boards.get b

/-- Replace one board. -/
def State.setBoard (s : State) (b : BoardId) (x : Board) : State := { s with boards := s.boards.set b x }

/-- One transmit engine. -/
def State.engine (s : State) (b : BoardId) (d : Dir) : Txe := (s.board b).tx.get d

/-- Replace one transmit engine. -/
def State.setEngine (s : State) (b : BoardId) (d : Dir) (t : Txe) : State :=
  s.setBoard b { s.board b with tx := (s.board b).tx.set d t }

/-- Set what the main loop of a board has in progress. -/
def State.setTask (s : State) (b : BoardId) (t : Task) : State := s.setBoard b { s.board b with task := t }

/-- Replace one accumulation buffer of a board. -/
def State.setBoardAcc (s : State) (b : BoardId) (d : Dir) (bs : List Byte) : State :=
  s.setBoard b { s.board b with acc := (s.board b).acc.set d bs }

/-- A board's stand-alone ring. -/
def State.ring (s : State) (b : BoardId) : Ring Byte := (s.board b).ring

/-- Replace a board's stand-alone ring. -/
def State.setRing (s : State) (b : BoardId) (q : Ring Byte) : State := s.setBoard b { s.board b with ring := q }

/-- One side of the dispatcher. -/
def State.link (s : State) (p : Side) : HostLink := s.host.link.get p

/-- Replace one side of the dispatcher. -/
def State.setLink (s : State) (p : Side) (l : HostLink) : State :=
  { s with host := { s.host with link := s.host.link.set p l } }

/-- Set what the operation returns. -/
def State.returns (s : State) (r : Ret) : State := { s with ret := some r }

/-- R20: whether the configuration has the element: `TX_DOWN`, `RX_DOWN` and `acc_down` exist only with a downstream
link. -/
def State.hasDir (s : State) (b : BoardId) : Dir → Bool
  | .up => true
  | .down => s.cfg.hasDownstream.get b

/-- Go on where the element exists. -/
def withDir (b : BoardId) (d : Dir) (k : State → Result) (s : State) : Result :=
  if s.hasDir b d then k s else .fault .noDownstream

/-- R297: the main loop of a board alone may call the operation, and it is in one operation at a time (R25, R58). -/
def onMainLoop (b : BoardId) (k : State → Result) (s : State) : Result :=
  if (s.board b).inHandler then .refused .notMainLoop
  else
    match (s.board b).task with
    | .idle => k s
    | .resolve _ => .refused .mainLoopBusy
    | .settle _ _ => .refused .mainLoopBusy
    | .write _ _ _ _ => .refused .mainLoopBusy
    | .flush _ _ => .refused .mainLoopBusy

/-- R174, U6: go on where the operand is a well-formed value. -/
def withWf (c : Option IllFormed) (k : State → Result) (s : State) : Result :=
  match c with
  | none => k s
  | some _ => .refused .illFormedValue

/-- R250, R261: `now` never decreases; the dispatcher remembers the latest. -/
def withClock (now : Time) (k : State → Result) (s : State) : Result :=
  if now < s.host.clock then .refused .clockBackwards
  else k { s with host := { s.host with clock := now } }

/-- R57: the host's one thread is in no tick. -/
def withHostFree (k : State → Result) (s : State) : Result :=
  match s.host.task with
  | .idle => k s
  | .tick _ _ => .refused .hostBusy

/-- The ring an operand names: a board's stand-alone one; the one inside an engine is not reached from outside (R120,
U2). -/
def withRing (r : RingSel) (k : BoardId → Ring Byte → Result) (s : State) : Result :=
  match r with
  | .alone b => k b (s.ring b)
  | .engine _ _ => .refused .ringInsideEngine

/-- The accumulation buffer an operand names. -/
def State.acc (s : State) : AccSel → List Byte
  | .host p => (s.link p).acc
  | .board b d => (s.board b).acc.get d

/-- Replace the accumulation buffer an operand names. -/
def State.setAcc (s : State) (a : AccSel) (bs : List Byte) : State :=
  match a with
  | .host p => s.setLink p { s.link p with acc := bs }
  | .board b d => s.setBoardAcc b d bs

/-- Go on where the buffer exists and its station's thread may touch it (R237, D39). -/
def withAcc (a : AccSel) (k : State → Result) (s : State) : Result :=
  match a with
  | .host _ => k s
  | .board b d => withDir b d (onMainLoop b k) s

/-- R89, R216: the map of a board's receive link. -/
def mapOf : Dir → MsgMap
  | .up => .command
  | .down => .response

/-- R13, R61, R304: stations share no state; an operation belongs to the station whose element it names. -/
def ownerOf (i : Instr) : Owner :=
  match i with
  | .rbAdd r _ | .rbAddAll r _ | .rbTake r | .rbPeek r | .rbIsEmpty r | .rbIsFull r =>
      match r with
      | .alone b => .board b
      | .engine b _ => .board b
  | .txSetDevice b _ _ | .txKick b _ | .txWrite b _ _ | .txTryWrite b _ | .txFlush b _ => .board b
  | .codecParseBody _ _ | .codecDecodeBody _ _ | .codecEncode _ | .codecParseLog _
  | .codecEncDirected _ | .codecParseDirected _ _ | .codecDecodeDirected _ _ => .anyone
  | .linkIngest a _ | .linkResolveOnce a _ =>
      match a with
      | .host _ => .host
      | .board b _ => .board b
  | .routerOnCommand b _ | .routerLocalDispatch b _ | .routerCannotForward b _
  | .routerForwardCommand b _ | .routerOnResponse b _ | .routerLocalReaction b _
  | .routerSendResponse b _ => .board b
  | .hostSelectPort _ | .hostTransmit _ _ | .hostSendCommand _ _ _ | .hostTransmitTarget _ _ _
  | .hostSetTarget _ _ _ | .hostReceive _ | .hostTick _ => .host
  | .setSideLed _ | .setOrangeLed _ | .setRedLed _ | .setGreenLed _ | .addBuzzerNote _ _ | .reportBattery
  | .reportCharger | .setMaxTorque _ _ | .setSpringConstant _ | .setTarget _ | .removeTarget | .recenter
  | .incrementTarget | .decrementTarget | .powerOff | .testMotor | .position _ | .batteryReadings _ _ _
  | .chargeState _ | .log _ | .powerOffResponse | .sideLeft | .sideRight => .wire

end Sys2Proof.Machine
end

