-- ==== Sys2Proof/Machine/Ops.lean ====
section
/-! DEFINITION. The shared operations: the ring (R121 to R126), the serial device (R300, R301), `kick` (R143), the passes
of `write` and the tests of `flush` (R146, R150), suspension and wake (R149), taking an interrupt and returning from it
(R294, R295), the link receiver (R214, R215), the router's branches (R230 to R236), the host's serial port (R263) and the
dispatcher's internal steps (R251 to R257). -/

namespace Sys2Proof.Machine

/-! ## Ring buffer -/

/-- R121, R129: the slot of logical element `i`, the sum computed without loss before the reduction. -/
def Ring.slot {α : Type} (r : Ring α) (i : Nat) : Nat := (r.start + i) % r.cap

/-- R21: the item of logical element `i`. -/
def Ring.item {α : Type} (r : Ring α) (i : Nat) : Option α := (r.buf[r.slot i]?).getD none

/-- R21, R127: the occupied items, oldest first. -/
def Ring.contents {α : Type} (r : Ring α) : List α := (List.range r.length).filterMap r.item

/-- R121: `add(item)`. -/
def Ring.add {α : Type} (r : Ring α) (x : α) : Ring α × Bool :=
  if r.length < r.cap then ({ r with buf := r.buf.set (r.slot r.length) (some x), length := r.length + 1 }, true)
  else (r, false)

/-- R122: `add_all(slice)`: items greedily until the first failure. -/
def Ring.addAll {α : Type} (r : Ring α) : List α → Ring α × Nat
  | [] => (r, 0)
  | x :: xs =>
    match r.add x with
    | (r', true) => (((r'.addAll xs).1), (r'.addAll xs).2 + 1)
    | (_, false) => (r, 0)

/-- R124: `peek()`. -/
def Ring.peek {α : Type} (r : Ring α) : Option α := if r.length = 0 then none else r.item 0

/-- R123: `take()`. -/
def Ring.take {α : Type} (r : Ring α) : Ring α × Option α :=
  if r.length = 0 then (r, none)
  else ({ r with start := (r.start + 1) % r.cap, length := r.length - 1 }, r.item 0)

/-! ## Serial device -/

/-- R300: what a device call answers. -/
inductive DevAnswer
  | accepted
  | wouldBlock
  | error (e : DevError)
deriving DecidableEq, Repr

/-- R301: the environment's answer to this call, where it has one, is used up by it. -/
def deviceNextAnswer (w : Device) : Option DevError × Device :=
  match w.answers with
  | [] => (none, w)
  | a :: as => (a, { w with answers := as })

/-- R301: `write_byte(b)`. -/
def deviceWriteByte (w : Device) (b : Byte) : DevAnswer × Device :=
  match deviceNextAnswer w with
  | (some e, w') => (.error e, w')
  | (none, w') =>
    if w'.ready then (.accepted, { w' with ready := false, out := w'.out ++ [b] }) else (.wouldBlock, w')

/-- R301: `flush()`: every accepted byte has left, iff `out` is empty and the device is ready. -/
def deviceFlush (w : Device) : DevAnswer × Device :=
  match deviceNextAnswer w with
  | (some e, w') => (.error e, w')
  | (none, w') => if w'.out = [] ∧ w'.ready = true then (.accepted, w') else (.wouldBlock, w')

/-! ## Transmit engine -/

/-- R143: `kick()`. -/
def Txe.kick (t : Txe) : Txe × Res :=
  match t.dev with
  | none => (t, .ok)
  | some w =>
    match t.rb.peek with
    | none => (t.rearm, .ok)
    | some b =>
      match deviceWriteByte w b with
      | (.accepted, w') => (({ t with rb := t.rb.take.1, dev := some w' } : Txe).rearm, .ok)
      | (.wouldBlock, w') => (({ t with dev := some w' } : Txe).rearm, .ok)
      | (.error e, w') => ({ t with dev := some w' }, .err (.deviceError e))

/-- R143, R147: one atomic `kick` of an engine, returned to its caller. -/
def kickEngine (b : BoardId) (d : Dir) (s : State) : State :=
  (s.setEngine b d (s.engine b d).kick.1).returns (.result (s.engine b d).kick.2)

/-- Emit an event on a board's `LOG` port. -/
def State.boardLog (s : State) (b : BoardId) (e : BoardLog) : State :=
  s.setBoard b { s.board b with log := (s.board b).log ++ [e] }

/-- A blocking operation returns: nothing is in progress any more. -/
def finishTask (b : BoardId) (r : Res) (s : State) : State := (s.setTask b .idle).returns (.result r)

/-- A `write` returns. The router logs a device error and goes on (R233). -/
def finishWrite (b : BoardId) (d : Dir) (who : Caller) (r : Res) (s : State) : State :=
  match who, r with
  | .router, .err k => finishTask b r (s.boardLog b (.writeError d k))
  | .router, .ok => finishTask b r s
  | .application, _ => finishTask b r s

/-- A blocking operation goes on in a later step. -/
def blockTask (b : BoardId) (t : Task) (s : State) : State := { s.setTask b t with ret := none }

/-- R146: one pass (a) to (d) of `write`, and what the loop does after it. -/
def writePass (b : BoardId) (d : Dir) (bytes : List Byte) (who : Caller) (s : State) : State :=
  let t := s.engine b d
  let n := (t.rb.addAll bytes).2
  let k := ({ t with rb := (t.rb.addAll bytes).1 } : Txe).kick
  let s' := s.setEngine b d k.1
  match k.2 with
  | .err e => finishWrite b d who (.err e) s'
  | .ok =>
    if bytes.drop n = [] then finishWrite b d who .ok s'
    else blockTask b (.write d (bytes.drop n) (if n = 0 then .suspending else .running) who) s'

/-- R150: one emptiness test of `flush`, and what the loop does after it. -/
def flushTest (b : BoardId) (d : Dir) (s : State) : State :=
  let t := s.engine b d
  if t.rb.isEmpty = false then blockTask b (.flush d .suspending) s
  else
    match t.dev with
    | none => blockTask b (.flush d .suspending) s
    | some w =>
      let s' := s.setEngine b d { t with dev := some (deviceFlush w).2 }
      match (deviceFlush w).1 with
      | .accepted => finishTask b .ok s'
      | .wouldBlock => blockTask b (.flush d .suspending) s'
      | .error e => finishTask b (.err (.deviceError e)) s'

/-- R141: `write` and `flush` have the precondition `dev != none`. -/
def withDevice (b : BoardId) (d : Dir) (k : State → Result) (s : State) : Result :=
  match (s.engine b d).dev with
  | none => .refused .deviceAbsent
  | some _ => k s

/-- R146: `write(bytes)` up to the end of its first pass; `write([])` runs no pass (D14). -/
def startWrite (b : BoardId) (d : Dir) (bytes : List Byte) (who : Caller) : State → Result :=
  withDir b d (onMainLoop b (withDevice b d (fun s =>
    if bytes = [] then .next (finishWrite b d who .ok s) else .next (writePass b d bytes who s))))

/-- R150: `flush()` up to the end of its first test. -/
def startFlush (b : BoardId) (d : Dir) : State → Result :=
  withDir b d (onMainLoop b (withDevice b d (fun s => .next (flushTest b d s))))

/-- R149: the next step of the blocking operation in progress: a pass or a test, or the beginning of the wait; a waiting
context takes no step. -/
def continueTask (b : BoardId) (s : State) : State :=
  match (s.board b).task with
  | .idle => s
  | .resolve _ => s
  | .settle _ _ => s
  | .write d rem .running who => writePass b d rem who s
  | .write d rem .suspending who => s.setTask b (.write d rem .waiting who)
  | .write _ _ .waiting _ => s
  | .flush d .running => flushTest b d s
  | .flush d .suspending => s.setTask b (.flush d .waiting)
  | .flush _ .waiting => s

/-! ## Interrupts -/

/-- R149: a wake event. One that comes before the wait has begun counts only if `seen` (U13). R149 bounds nothing, so any
number of events in one gap may be missed. If they drain the ring and so disable the ready interrupt, a `write` on a
healthy device waits for another interrupt of the board, whatever `TX_CAPACITY` is, where R153 and R332 say that it is
only delayed: the model follows R149 (DESIGN CHOICE, log entry 7). -/
def Phase.wake (seen : Bool) : Phase → Phase
  | .running => .running
  | .suspending => if seen then .running else .suspending
  | .waiting => .running

/-- R149: a wake event on what is in progress. -/
def Task.wake (seen : Bool) : Task → Task
  | .idle => .idle
  | .resolve d => .resolve d
  | .settle d bytes => .settle d bytes
  | .write d rem ph who => .write d rem (ph.wake seen) who
  | .flush d ph => .flush d (ph.wake seen)

/-- R294: entry: the handler runs in interrupt context, with interrupts masked; the block saves nothing. -/
def enterHandler (b : BoardId) (s : State) : State := s.setBoard b { s.board b with inHandler := true }

/-- R295: return: the main loop resumes where it was, or wakes. -/
def leaveHandler (b : BoardId) (seen : Bool) (s : State) : State :=
  s.setBoard b { s.board b with inHandler := false, task := (s.board b).task.wake seen }

/-- R294, R295: a handler of a board, from entry to return, one atomic step. -/
def takeInterrupt (b : BoardId) (seen : Bool) (handler : State → Result) (s : State) : Result :=
  andThen (handler (enterHandler b s)) (fun t => .next (leaveHandler b seen t))

/-! ## Link receiver -/

/-- R214: `ingest(acc, bytes)`. -/
def ingest (a : AccSel) (bytes : List Byte) (s : State) : State := s.setAcc a (s.acc a ++ bytes)

/-- R215: one attempt to resolve the head of a buffer: the event and the buffer left. -/
def resolveHead (logMax : Nat) (map : MsgMap) (acc : List Byte) : LinkEvent × List Byte :=
  match parseDirected logMax map acc with
  | .incomplete => (.nothing, acc)
  | .ok m n => (.message m, acc.drop n)
  | .err k (some c) => (.decodeError k (acc.take c), acc.drop c)
  | .err k none => (.decodeError k acc, [])

/-- R215, R216: a board's main loop runs `resolve_once` on a receive link's buffer: what it takes from the buffer is left
to be acted on. -/
def resolveAtBoard (b : BoardId) (d : Dir) (s : State) : State :=
  let acc := (s.board b).acc.get d
  let r := resolveHead s.cfg.logMax (mapOf d) acc
  (s.setBoardAcc b d r.2).setTask b
    (match r.1 with
      | .nothing => .idle
      | .message _ => .settle d (acc.take (acc.length - r.2.length))
      | .decodeError _ bad => .settle d bad)

/-- R211: a side tag has been read: the bodies that follow it pertain to that side. -/
def latchSide (side : Side) (s : State) : State := { s with rx := { s.rx with side := side } }

/-! ## Side router -/

/-- R231: `local_dispatch(command)`. -/
def localDispatch (b : BoardId) (c : Command) (s : State) : State :=
  (s.setBoard b { s.board b with localCmd := (s.board b).localCmd ++ [c] }).returns .unit

/-- R232: `cannot_forward(dc)`. -/
def cannotForward (b : BoardId) (dc : DirectedCommand) (s : State) : State :=
  (s.boardLog b (.cannotForward dc)).returns .unit

/-- R233: `forward_command(dc)`. -/
def forwardCommand (b : BoardId) (dc : DirectedCommand) : State → Result :=
  startWrite b .down (encDirectedCommand dc) .router

/-- R230: `on_command(dc)`. -/
def onCommand (b : BoardId) (dc : DirectedCommand) (s : State) : Result :=
  if dc.side = s.cfg.boardSide.get b then onMainLoop b (fun s => .next (localDispatch b dc.command s)) s
  else if s.cfg.hasDownstream.get b then forwardCommand b dc s
  else onMainLoop b (fun s => .next (cannotForward b dc s)) s

/-- R235: `local_reaction(response)`. -/
def localReaction (b : BoardId) (r : Response) (s : State) : State :=
  match r with
  | .powerOff => s.setBoard b { s.board b with localEvent := (s.board b).localEvent ++ [.powerOffSequence] }
  | .position _ | .batteryReadings _ _ _ | .chargeState _ | .log _ => s

/-- R234: `on_response(sr)`: the reaction, and then the forwarding, side unchanged, whose passes are steps of their own
(R12, R57). -/
def onResponse (b : BoardId) (sr : SideResponse) : State → Result :=
  withDir b .down (onMainLoop b (withDevice b .up (fun s =>
    .next (blockTask b (.write .up (encSideResponse sr) .running .router) (localReaction b sr.response s)))))

/-- R236: `send_response(response)`: the board stamps its own side. -/
def sendResponse (b : BoardId) (r : Response) (s : State) : Result :=
  startWrite b .up (encSideResponse ⟨s.cfg.boardSide.get b, r⟩) .application s

/-! ## Host dispatcher -/

/-- Emit an event on the host's `LOG` port. -/
def State.hostLog (s : State) (e : HostLog) : State := { s with host := { s.host with log := s.host.log ++ [e] } }

/-- Emit a response on the host's `YIELD` port. -/
def State.yields (s : State) (sr : SideResponse) : State :=
  { s with host := { s.host with yielded := s.host.yielded ++ [sr] } }

/-- R251: `select_port(side)`. -/
def selectPort (c : Config) (side : Side) : Option Side :=
  if c.port.get side then some side
  else if c.port.get side.opposite then some side.opposite
  else none

/-- R263: `write_all(bytes)`: all the bytes go onto the link, or a part of them and an error. -/
def Port.writeAll (p : Port) (bytes : List Byte) : Port × Res :=
  match p.writeAnswers with
  | some f :: as => ({ p with line := p.line ++ bytes.take f.sent, writeAnswers := as }, .err (.deviceError f.error))
  | none :: as => ({ p with line := p.line ++ bytes, writeAnswers := as }, .ok)
  | [] => ({ p with line := p.line ++ bytes }, .ok)

/-- R263, R280: `bytes_available()`, or the `DeviceError(e)` the call raises. -/
def Port.bytesAvailable (p : Port) : Port × Except ErrKind Nat :=
  match p.availAnswers with
  | some e :: as => ({ p with availAnswers := as }, .error (.deviceError e))
  | none :: as => ({ p with availAnswers := as }, .ok p.rx.length)
  | [] => (p, .ok p.rx.length)

/-- R263, R280: `read(k)`: exactly the next `k` received bytes, or the `DeviceError(e)` the call raises. -/
def Port.read (p : Port) (k : Nat) : Port × Except ErrKind (List Byte) :=
  match p.readAnswers with
  | some e :: as => ({ p with readAnswers := as }, .error (.deviceError e))
  | none :: as => ({ p with rx := p.rx.drop k, readAnswers := as }, .ok (p.rx.take k))
  | [] => ({ p with rx := p.rx.drop k }, .ok (p.rx.take k))

/-- R256: the two calls of `receive`, `bytes_available` and then the bounded `read`; the first error ends them. -/
def Port.poll (p : Port) (readMax : Nat) : Port × Except ErrKind (List Byte) :=
  match p.bytesAvailable with
  | (p', .error k) => (p', .error k)
  | (p', .ok n) => p'.read (min n readMax)

/-- Put bytes on the port of side `p`. -/
def writePort (p : Side) (bytes : List Byte) (s : State) : State × Res :=
  (s.setLink p { s.link p with port := ((s.link p).port.writeAll bytes).1 }, ((s.link p).port.writeAll bytes).2)

/-- R252: a command dropped for want of a port: one `NoPort` event, on the first drop. -/
def dropCommand (s : State) : State :=
  if s.host.noPortLogged then s
  else { s.hostLog .noPort with host := { (s.hostLog .noPort).host with noPortLogged := true } }

/-- R252: `transmit(side, command)`. The side tag is the logical side, never the port's (R251). -/
def transmit (side : Side) (c : Command) (s : State) : State × Res :=
  match selectPort s.cfg side with
  | none => (dropCommand s, .ok)
  | some p => writePort p (encDirectedCommand ⟨side, c⟩) s

/-- Record a send of side `side` at `now`. -/
def stampSend (side : Side) (now : Time) (s : State) : State :=
  s.setLink side { s.link side with lastSend := some now }

/-- R253: `send_command(side, command, now)`. -/
def sendCommand (side : Side) (c : Command) (now : Time) (s : State) : State × Res :=
  let r := transmit side c s
  (if r.1.cfg.stampAllCommands then stampSend side now r.1 else r.1, r.2)

/-- R254: `transmit_target(side, x, now)`: the timestamp and the pending slot are updated whatever the send gave. -/
def transmitTarget (side : Side) (x : Word64) (now : Time) (s : State) : State × Res :=
  let r := transmit side (.setTarget x) s
  (r.1.setLink side { r.1.link side with lastSend := some now, pending := none }, r.2)

/-- R255: `set_target(side, x, now)`. -/
def setTarget (side : Side) (x : Word64) (now : Time) (s : State) : State × Res :=
  if sendDue s.cfg.minSendInterval (s.link side).lastSend now then transmitTarget side x now s
  else (s.setLink side { s.link side with pending := some x }, .ok)

/-- R257: the first half of a tick, for one side. -/
def flushPending (side : Side) (now : Time) (s : State) : State :=
  match (s.link side).pending, (s.link side).lastSend with
  | some x, some t =>
    if s.cfg.minSendInterval ≤ now - t then
      match transmitTarget side x now s with
      | (s', .ok) => s'
      | (s', .err k) => s'.hostLog (.writeError side k)
    else s
  | some _, none => s
  | none, _ => s

/-- R256: what the receiver does with a buffer's head once the bytes are in it. -/
def resolveAtHost (p : Side) (s : State) : State :=
  let r := resolveHead s.cfg.logMax .response (s.link p).acc
  let s' := s.setLink p { s.link p with acc := r.2 }
  match r.1 with
  | .nothing => s'
  | .message (.response sr) => (latchSide sr.side { s' with rx := { s'.rx with respAt := .host p } }).yields sr
  | .message (.command _) => s'
  | .decodeError k bad => s'.hostLog (.decodeError k bad p)

/-- R256, R219: `receive(s)` for a configured port. -/
def receiveAtHost (p : Side) (s : State) : State :=
  let r := (s.link p).port.poll s.cfg.readMax
  match r.2 with
  | .error k => (s.setLink p { s.link p with acc := [], port := r.1 }).hostLog (.readError p k)
  | .ok chunk => resolveAtHost p (s.setLink p { s.link p with acc := (s.link p).acc ++ chunk, port := r.1 })

/-- R257: the second half of a tick, for one side. -/
def pollPort (p : Side) (s : State) : State := if s.cfg.port.get p then receiveAtHost p s else s

/-- R257: the stages of a tick: the sends and then the receives, Left before Right in both (D31). -/
def TickStage.after : TickStage → Option TickStage
  | .send .left => some (.send .right)
  | .send .right => some (.receive .left)
  | .receive .left => some (.receive .right)
  | .receive .right => none

/-- R257: what one stage of a tick at `now` does. -/
def TickStage.run (now : Time) (s : State) : TickStage → State
  | .send p => flushPending p now s
  | .receive p => pollPort p s

/-- R57, R257: one step of a tick: a stage, and then the stage that comes after it is to run, or the tick returns. R57 makes
host operations atomic with respect to each other only, so any other agent may step between two stages; that none steps
inside a stage is the model's choice (DESIGN CHOICE, log entry 41). -/
def tickStep (st : TickStage) (now : Time) (s : State) : State :=
  let t := st.run now s
  match st.after with
  | some next => { t with host := { t.host with task := .tick next now }, ret := none }
  | none => { t with host := { t.host with task := .idle }, ret := some .unit }

/-! ## Wire messages -/

/-- What a complete command message does where it arrives: it goes to the router of that board (R216, R230). -/
def runCommand (c : Command) (s : State) : Result :=
  withWf c.check (onCommand s.rx.cmdAt ⟨s.rx.side, c⟩) s

/-- What a complete response message does where it arrives: the host yields it (R256), a board forwards it (R234). -/
def runResponse (r : Response) (s : State) : Result :=
  withWf (r.check s.cfg.logMax)
    (fun s =>
      match s.rx.respAt with
      | .host _ => .next (s.yields ⟨s.rx.side, r⟩)
      | .board b => onResponse b ⟨s.rx.side, r⟩ s) s

end Sys2Proof.Machine
end

