-- ==== Sys2Proof/Machine/Codec.lean ====
section
/-! DEFINITION. The codec's functions as operations (R170): each is pure and only returns its result (R59). -/

namespace Sys2Proof.Machine

/-- R171. -/
def execCodecParseBody (map : MsgMap) (bs : List Byte) (s : State) : Result :=
  .next (s.returns (.body (parseBody s.cfg.logMax map bs)))

/-- R172. -/
def execCodecDecodeBody (map : MsgMap) (bs : List Byte) (s : State) : Result :=
  .next (s.returns (.body (decodeBody s.cfg.logMax map bs)))

/-- R174. -/
def execCodecEncode (v : Val) (s : State) : Result :=
  withWf (v.check s.cfg.logMax) (fun s => .next (s.returns (.bytes (encVal v)))) s

/-- R204: `parse_log(s)`. Where `s` does not begin with the tag 0x22 the spec states no result, and the value is free
(DESIGN CHOICE, log entry 40). -/
def execCodecParseLog (bs : List Byte) (s : State) : Result :=
  .next (s.returns (.body
    (if bs.head? = some 0x22#8 then parseLog s.cfg.logMax bs else Config.parseLogUntagged s.cfg.logMax bs)))

/-- R210. -/
def execCodecEncDirected (v : Directed) (s : State) : Result :=
  withWf (v.check s.cfg.logMax) (fun s => .next (s.returns (.bytes (encDirected v)))) s

/-- R211. -/
def execCodecParseDirected (map : MsgMap) (bs : List Byte) (s : State) : Result :=
  .next (s.returns (.directed (parseDirected s.cfg.logMax map bs)))

/-- R212. -/
def execCodecDecodeDirected (map : MsgMap) (bs : List Byte) (s : State) : Result :=
  .next (s.returns (.directed (decodeDirected s.cfg.logMax map bs)))

end Sys2Proof.Machine
end

