-- ==== Sys2Proof/Machine/Commands.lean ====
section
/-! DEFINITION. The sixteen command messages (R175 to R190): the effect of a complete command where it arrives. What a
local handler does with it is out of scope (R4); the block's output is the event on `LOCAL_CMD`, or the forwarding. -/

namespace Sys2Proof.Machine

/-- R175. -/
def execSetSideLed (v : Bool) (s : State) : Result := runCommand (.setSideLed v) s

/-- R176. -/
def execSetOrangeLed (v : Bool) (s : State) : Result := runCommand (.setOrangeLed v) s

/-- R177. -/
def execSetRedLed (v : Bool) (s : State) : Result := runCommand (.setRedLed v) s

/-- R178. -/
def execSetGreenLed (v : Bool) (s : State) : Result := runCommand (.setGreenLed v) s

/-- R179. -/
def execAddBuzzerNote (f : Option Word32) (d : Word32) (s : State) : Result := runCommand (.addBuzzerNote f d) s

/-- R180. -/
def execReportBattery (s : State) : Result := runCommand .reportBattery s

/-- R181. -/
def execReportCharger (s : State) : Result := runCommand .reportCharger s

/-- R182. -/
def execSetMaxTorque (n p : Word16) (s : State) : Result := runCommand (.setMaxTorque n p) s

/-- R183. -/
def execSetSpringConstant (k : Word16) (s : State) : Result := runCommand (.setSpringConstant k) s

/-- R184. -/
def execSetTarget (x : Word64) (s : State) : Result := runCommand (.setTarget x) s

/-- R185. -/
def execRemoveTarget (s : State) : Result := runCommand .removeTarget s

/-- R186. -/
def execRecenter (s : State) : Result := runCommand .recenter s

/-- R187. -/
def execIncrementTarget (s : State) : Result := runCommand .incrementTarget s

/-- R188. -/
def execDecrementTarget (s : State) : Result := runCommand .decrementTarget s

/-- R189. -/
def execPowerOff (s : State) : Result := runCommand .powerOff s

/-- R190. -/
def execTestMotor (s : State) : Result := runCommand .testMotor s

end Sys2Proof.Machine
end

