-- ==== Sys2Proof/Machine/HostDispatcher.lean ====
section
/-! DEFINITION. The host dispatcher's operations (R251 to R257). Each is one step of the host's thread but `tick`, whose four
stages are a step each (R57, log entry 41). -/

namespace Sys2Proof.Machine

/-- Return the result of an internal step. -/
def returning (r : State × Res) : Result := .next (r.1.returns (.result r.2))

/-- R251. -/
def execHostSelectPort (side : Side) (s : State) : Result := .next (s.returns (.port (selectPort s.cfg side)))

/-- R252. -/
def execHostTransmit (side : Side) (c : Command) (s : State) : Result :=
  withWf c.check (fun s => returning (transmit side c s)) s

/-- R253. -/
def execHostSendCommand (side : Side) (c : Command) (now : Time) (s : State) : Result :=
  withWf c.check (withClock now (fun s => returning (sendCommand side c now s))) s

/-- R254. It sends whether or not the side's interval has elapsed: R255 and R257 test that before they call it, and what a
call that comes by itself does the spec leaves open (DESIGN CHOICE, log entry 43). -/
def execHostTransmitTarget (side : Side) (x : Word64) (now : Time) (s : State) : Result :=
  withClock now (fun s => returning (transmitTarget side x now s)) s

/-- R255. -/
def execHostSetTarget (side : Side) (x : Word64) (now : Time) (s : State) : Result :=
  withClock now (fun s => returning (setTarget side x now s)) s

/-- R256. -/
def execHostReceive (p : Side) (s : State) : Result :=
  if s.cfg.port.get p then .next ((receiveAtHost p s).returns .unit) else .fault .noPort

/-- R257. The step that asks for a tick runs its first stage; the host's thread runs the others (log entry 41). -/
def execHostTick (now : Time) (s : State) : Result :=
  withHostFree (withClock now (fun s => .next (tickStep (.send .left) now s))) s

end Sys2Proof.Machine
end

