-- ==== Sys2Proof/Machine/LinkReceiver.lean ====
section
/-! DEFINITION. The link receiver's two operations (R214, R215). -/

namespace Sys2Proof.Machine

/-- R214. The bytes and the buffer are the caller's, as many as it gives: R216 and R256 say what the receive paths give it, and
that a call by itself may give others is the model's choice (DESIGN CHOICE, log entry 42). -/
def execLinkIngest (a : AccSel) (bytes : List Byte) : State → Result :=
  withAcc a (fun s => .next ((ingest a bytes s).returns .unit))

/-- R215: the event is returned; the caller acts on it (R216, R256). The map is the caller's: R215 takes it as an operand, and
R216 and R256 fix it for their own calls alone. That a call by itself may name a map that is not its link's, and that it then
runs with that map, is the model's choice (DESIGN CHOICE, log entry 42). -/
def execLinkResolveOnce (a : AccSel) (map : MsgMap) : State → Result :=
  withAcc a (fun s =>
    .next ((s.setAcc a (resolveHead s.cfg.logMax map (s.acc a)).2).returns
      (.link (resolveHead s.cfg.logMax map (s.acc a)).1)))

end Sys2Proof.Machine
end

