-- ==== Sys2Proof/Machine/Responses.lean ====
section
/-! DEFINITION. The five response messages (R201 to R205) and the two side tags (R81, R211). -/

namespace Sys2Proof.Machine

/-- R201. -/
def execPosition (x : Word64) (s : State) : Result := runResponse (.position x) s

/-- R202. -/
def execBatteryReadings (a b c : Word16) (s : State) : Result := runResponse (.batteryReadings a b c) s

/-- R203. -/
def execChargeState (v : Bool) (s : State) : Result := runResponse (.chargeState v) s

/-- R204. -/
def execLog (line : List Byte) (s : State) : Result := runResponse (.log line) s

/-- R205. -/
def execPowerOffResponse (s : State) : Result := runResponse .powerOff s

/-- R211: the side tag `'L'`. -/
def execSideLeft (s : State) : Result := .next (latchSide .left s)

/-- R211: the side tag `'R'`. -/
def execSideRight (s : State) : Result := .next (latchSide .right s)

end Sys2Proof.Machine
end

