-- ==== Sys2Proof/Machine/RingBuffer.lean ====
section
/-! DEFINITION. The six ring buffer operations (R121 to R126), on a board's stand-alone ring (R120). -/

namespace Sys2Proof.Machine

/-- R121. -/
def execRbAdd (r : RingSel) (x : Byte) (s : State) : Result :=
  withRing r (fun b q => .next ((s.setRing b (q.add x).1).returns (.flag (q.add x).2))) s

/-- R122. -/
def execRbAddAll (r : RingSel) (xs : List Byte) (s : State) : Result :=
  withRing r (fun b q => .next ((s.setRing b (q.addAll xs).1).returns (.count (q.addAll xs).2))) s

/-- R123. -/
def execRbTake (r : RingSel) (s : State) : Result :=
  withRing r (fun b q => .next ((s.setRing b q.take.1).returns (.item q.take.2))) s

/-- R124. -/
def execRbPeek (r : RingSel) (s : State) : Result := withRing r (fun _ q => .next (s.returns (.item q.peek))) s

/-- R125. -/
def execRbIsEmpty (r : RingSel) (s : State) : Result := withRing r (fun _ q => .next (s.returns (.flag q.isEmpty))) s

/-- R126. -/
def execRbIsFull (r : RingSel) (s : State) : Result := withRing r (fun _ q => .next (s.returns (.flag q.isFull))) s

end Sys2Proof.Machine
end

