-- ==== Sys2Proof/Machine/Router.lean ====
section
/-! DEFINITION. The side router's operations (R230 to R236). All run in the main loop of their board (R237). A branch of
`on_command` or `on_response` asked for by itself runs without the test that leads to it (DESIGN CHOICE, log entry 43). -/

namespace Sys2Proof.Machine

/-- R230. -/
def execRouterOnCommand (b : BoardId) (dc : DirectedCommand) (s : State) : Result :=
  withWf dc.command.check (onCommand b dc) s

/-- R231. Asked for by itself it runs for any command: the test of the side stands in R230 alone (DESIGN CHOICE, log entry
43). -/
def execRouterLocalDispatch (b : BoardId) (c : Command) (s : State) : Result :=
  withWf c.check (onMainLoop b (fun s => .next (localDispatch b c s))) s

/-- R232. Asked for by itself it runs on any board and for a command of either side: that the board is a leaf and the command
for the other side is tested in R230 alone (DESIGN CHOICE, log entry 43). -/
def execRouterCannotForward (b : BoardId) (dc : DirectedCommand) (s : State) : Result :=
  withWf dc.command.check (onMainLoop b (fun s => .next (cannotForward b dc s))) s

/-- R233. Asked for by itself it runs for a command of either side, also the board's own (DESIGN CHOICE, log entry 43). -/
def execRouterForwardCommand (b : BoardId) (dc : DirectedCommand) (s : State) : Result :=
  withWf dc.command.check (forwardCommand b dc) s

/-- R234. -/
def execRouterOnResponse (b : BoardId) (sr : SideResponse) (s : State) : Result :=
  withWf (sr.response.check s.cfg.logMax) (onResponse b sr) s

/-- R235. Asked for by itself it runs on a leaf too, which has no link a response could come from (DESIGN CHOICE, log entry
43). -/
def execRouterLocalReaction (b : BoardId) (r : Response) (s : State) : Result :=
  withWf (r.check s.cfg.logMax) (onMainLoop b (fun s => .next ((localReaction b r s).returns .unit))) s

/-- R236. -/
def execRouterSendResponse (b : BoardId) (r : Response) (s : State) : Result :=
  withWf (r.check s.cfg.logMax) (sendResponse b r) s

end Sys2Proof.Machine
end

