-- ==== Sys2Proof/Machine/TransmitEngine.lean ====
section
/-! DEFINITION. The buffered transmit engine's operations (R142 to R150). `write` and `flush` run their first atomic step
here; the steps that follow are taken by `continueTask` when the main loop is scheduled. -/

namespace Sys2Proof.Machine

/-- R142: `set_device(w)` stores the device, once, and calls nothing on it. -/
def execTxSetDevice (b : BoardId) (d : Dir) (w : Device) : State → Result :=
  withDir b d (onMainLoop b (fun s =>
    match (s.engine b d).dev with
    | some _ => .refused .deviceAlreadySet
    | none => .next ((s.setEngine b d { s.engine b d with dev := some w }).returns .unit)))

/-- R143: `kick()`, as one atomic step. -/
def execTxKick (b : BoardId) (d : Dir) : State → Result := withDir b d (fun s => .next (kickEngine b d s))

/-- R146. -/
def execTxWrite (b : BoardId) (d : Dir) (bytes : List Byte) : State → Result := startWrite b d bytes .application

/-- R147: `try_write()`. -/
def execTxTryWrite (b : BoardId) (d : Dir) : State → Result := withDir b d (fun s => .next (kickEngine b d s))

/-- R150. -/
def execTxFlush (b : BoardId) (d : Dir) : State → Result := startFlush b d

end Sys2Proof.Machine
end

