-- ==== Sys2Proof/Machine/Dispatch.lean ====
section
/-! DEFINITION. The dispatch: one arm for each constructor of Instr, each one call of that instruction's meaning. -/

namespace Sys2Proof.Machine

def exec (i : Instr) (s : State) : Host.Outcome State Fault Refusal :=
  match i with
  | .setSideLed v => Sys2Proof.Machine.execSetSideLed v s
  | .setOrangeLed v => Sys2Proof.Machine.execSetOrangeLed v s
  | .setRedLed v => Sys2Proof.Machine.execSetRedLed v s
  | .setGreenLed v => Sys2Proof.Machine.execSetGreenLed v s
  | .addBuzzerNote f d => Sys2Proof.Machine.execAddBuzzerNote f d s
  | .reportBattery => Sys2Proof.Machine.execReportBattery s
  | .reportCharger => Sys2Proof.Machine.execReportCharger s
  | .setMaxTorque n p => Sys2Proof.Machine.execSetMaxTorque n p s
  | .setSpringConstant k => Sys2Proof.Machine.execSetSpringConstant k s
  | .setTarget x => Sys2Proof.Machine.execSetTarget x s
  | .removeTarget => Sys2Proof.Machine.execRemoveTarget s
  | .recenter => Sys2Proof.Machine.execRecenter s
  | .incrementTarget => Sys2Proof.Machine.execIncrementTarget s
  | .decrementTarget => Sys2Proof.Machine.execDecrementTarget s
  | .powerOff => Sys2Proof.Machine.execPowerOff s
  | .testMotor => Sys2Proof.Machine.execTestMotor s
  | .position x => Sys2Proof.Machine.execPosition x s
  | .batteryReadings a b c => Sys2Proof.Machine.execBatteryReadings a b c s
  | .chargeState v => Sys2Proof.Machine.execChargeState v s
  | .log line => Sys2Proof.Machine.execLog line s
  | .powerOffResponse => Sys2Proof.Machine.execPowerOffResponse s
  | .sideLeft => Sys2Proof.Machine.execSideLeft s
  | .sideRight => Sys2Proof.Machine.execSideRight s
  | .rbAdd r x => Sys2Proof.Machine.execRbAdd r x s
  | .rbAddAll r xs => Sys2Proof.Machine.execRbAddAll r xs s
  | .rbTake r => Sys2Proof.Machine.execRbTake r s
  | .rbPeek r => Sys2Proof.Machine.execRbPeek r s
  | .rbIsEmpty r => Sys2Proof.Machine.execRbIsEmpty r s
  | .rbIsFull r => Sys2Proof.Machine.execRbIsFull r s
  | .txSetDevice b d w => Sys2Proof.Machine.execTxSetDevice b d w s
  | .txKick b d => Sys2Proof.Machine.execTxKick b d s
  | .txWrite b d bytes => Sys2Proof.Machine.execTxWrite b d bytes s
  | .txTryWrite b d => Sys2Proof.Machine.execTxTryWrite b d s
  | .txFlush b d => Sys2Proof.Machine.execTxFlush b d s
  | .codecParseBody map bs => Sys2Proof.Machine.execCodecParseBody map bs s
  | .codecDecodeBody map bs => Sys2Proof.Machine.execCodecDecodeBody map bs s
  | .codecEncode v => Sys2Proof.Machine.execCodecEncode v s
  | .codecParseLog bs => Sys2Proof.Machine.execCodecParseLog bs s
  | .codecEncDirected v => Sys2Proof.Machine.execCodecEncDirected v s
  | .codecParseDirected map bs => Sys2Proof.Machine.execCodecParseDirected map bs s
  | .codecDecodeDirected map bs => Sys2Proof.Machine.execCodecDecodeDirected map bs s
  | .linkIngest a bytes => Sys2Proof.Machine.execLinkIngest a bytes s
  | .linkResolveOnce a map => Sys2Proof.Machine.execLinkResolveOnce a map s
  | .routerOnCommand b dc => Sys2Proof.Machine.execRouterOnCommand b dc s
  | .routerLocalDispatch b c => Sys2Proof.Machine.execRouterLocalDispatch b c s
  | .routerCannotForward b dc => Sys2Proof.Machine.execRouterCannotForward b dc s
  | .routerForwardCommand b dc => Sys2Proof.Machine.execRouterForwardCommand b dc s
  | .routerOnResponse b sr => Sys2Proof.Machine.execRouterOnResponse b sr s
  | .routerLocalReaction b r => Sys2Proof.Machine.execRouterLocalReaction b r s
  | .routerSendResponse b r => Sys2Proof.Machine.execRouterSendResponse b r s
  | .hostSelectPort side => Sys2Proof.Machine.execHostSelectPort side s
  | .hostTransmit side c => Sys2Proof.Machine.execHostTransmit side c s
  | .hostSendCommand side c now => Sys2Proof.Machine.execHostSendCommand side c now s
  | .hostTransmitTarget side x now => Sys2Proof.Machine.execHostTransmitTarget side x now s
  | .hostSetTarget side x now => Sys2Proof.Machine.execHostSetTarget side x now s
  | .hostReceive p => Sys2Proof.Machine.execHostReceive p s
  | .hostTick now => Sys2Proof.Machine.execHostTick now s

end Sys2Proof.Machine
end

