-- ==== Sys2Proof/Machine/Environment.lean ====
section
/-! DEFINITION. The environment's steps: the serial devices (R301), the links (R62, R338) and the host's serial ports
(R263). A step the environment cannot take leaves the state as it is. -/

namespace Sys2Proof.Machine

/-- Change the device of an engine, where it has one. -/
def mapDevice (b : BoardId) (d : Dir) (f : Device → Device) (s : State) : State :=
  match (s.engine b d).dev with
  | none => s
  | some w => s.setEngine b d { s.engine b d with dev := some (f w) }

/-- R301 `complete`: when not ready, become ready. -/
def devComplete (b : BoardId) (d : Dir) : State → State := mapDevice b d (fun w => { w with ready := true })

/-- R301: what the device will answer to one more call. -/
def devAnswer (b : BoardId) (d : Dir) (a : Option DevError) : State → State :=
  mapDevice b d (fun w => { w with answers := w.answers ++ [a] })

/-- Put bytes behind those on a board's outgoing link. -/
def appendLine (b : BoardId) (d : Dir) (bs : List Byte) (s : State) : State :=
  s.setBoard b { s.board b with line := (s.board b).line.set d ((s.board b).line.get d ++ bs) }

/-- R301 `emit`: move the oldest byte of `out` onto the link. -/
def devEmit (b : BoardId) (d : Dir) (s : State) : State :=
  match (s.engine b d).dev with
  | none => s
  | some w =>
    match w.out with
    | [] => s
    | x :: xs => appendLine b d [x] (s.setEngine b d { s.engine b d with dev := some { w with out := xs } })

/-- R2: the receiving end of a link, by the wiring: nothing where the link leads nowhere. -/
inductive Receiver
  | port (p : Side)
  | path (b : BoardId) (d : Dir)
deriving DecidableEq, Repr

/-- The board whose upstream link is the host's port of a side. -/
def boardOnPort (c : Config) (p : Side) : Option BoardId :=
  if c.upstream.boardA = .hostPort p then some .boardA
  else if c.upstream.boardB = .hostPort p then some .boardB
  else none

/-- R2: where the bytes of a link arrive. -/
def receiverOf (c : Config) : LinkId → Option Receiver
  | .fromPort p => (boardOnPort c p).map (fun b => .path b .up)
  | .fromEngine b .up =>
    match c.upstream.get b with
    | .hostPort p => some (.port p)
    | .otherBoard => if c.hasDownstream.get b.other then some (.path b.other .down) else none
  | .fromEngine b .down =>
    if c.hasDownstream.get b = true ∧ c.upstream.get b.other = .otherBoard then some (.path b.other .up) else none

/-- The bytes on a link, oldest first. -/
def lineOf (l : LinkId) (s : State) : List Byte :=
  match l with
  | .fromPort p => (s.link p).port.line
  | .fromEngine b d => (s.board b).line.get d

/-- Replace the bytes on a link. -/
def setLine (l : LinkId) (bs : List Byte) (s : State) : State :=
  match l with
  | .fromPort p => s.setLink p { s.link p with port := { (s.link p).port with line := bs } }
  | .fromEngine b d => s.setBoard b { s.board b with line := (s.board b).line.set d bs }

/-- A byte arrives at the end of a link. -/
def arrive (r : Receiver) (x : Byte) (s : State) : State :=
  match r with
  | .port p => s.setLink p { s.link p with port := { (s.link p).port with rx := (s.link p).port.rx ++ [x] } }
  | .path b d => s.setBoard b { s.board b with rxq := (s.board b).rxq.set d ((s.board b).rxq.get d ++ [x]) }

/-- R62: the oldest byte of a link arrives; where no station is at the other end it is lost (R322). -/
def wireDeliver (l : LinkId) (s : State) : State :=
  match lineOf l s with
  | [] => s
  | x :: xs =>
    match receiverOf s.cfg l with
    | none => setLine l xs s
    | some r => arrive r x (setLine l xs s)

/-- R263: what the port will answer to one more call. -/
def portAnswer (p : Side) (f : Port → Port) (s : State) : State :=
  s.setLink p { s.link p with port := f (s.link p).port }

end Sys2Proof.Machine
end

