-- ==== Sys2Proof/Machine/Agents.lean ====
section
/-! DEFINITION. The agents' steps (R13): the main loop and the interrupt handlers of a board, the host's thread, and the
environment; and where a word of the opcode table is placed so that the next step runs it. A step of an agent that is not
enabled leaves the state as it is (log entry 3). -/

namespace Sys2Proof.Machine

/-- R61: an agent requests an operation; it is one of its own station, or a pure function. R13 and R250 name the requests
of `APP` and `HOSTLOOP`, and not the internal steps among the port rows of the opcode table (`kick`, the router's
branches, `select_port`, `transmit`, `transmit_target`, `receive`, the receiver's two on the station's own buffers): that
the station's agents may request these as well is the model's choice (DESIGN CHOICE, log entry 38). -/
def callAs (who : Owner) (i : Instr) (s : State) : Result :=
  match ownerOf i with
  | .wire => .refused .notAPortOperation
  | .anyone => exec i s
  | .board b => if who = .board b then exec i s else .refused .wrongStation
  | .host => if who = .host then exec i s else .refused .wrongStation

/-- R57, R297: a board's main loop may take a step of its own: no handler runs. -/
def State.mainLoopRuns (s : State) (b : BoardId) : Bool := !(s.board b).inHandler

/-- R333: a board's main loop is in no operation. -/
def State.mainLoopFree (s : State) (b : BoardId) : Bool := s.mainLoopRuns b && (s.board b).task == .idle

/-- Where the message on a receive link arrives (R89). -/
def State.arrivesAt (s : State) (b : BoardId) (d : Dir) : State :=
  match d with
  | .up => { s with rx := { s.rx with cmdAt := b } }
  | .down => { s with rx := { s.rx with respAt := .board b } }

/-- R211: the side tag at the head of a buffer runs as the row of the opcode table it is. -/
def runSideTag (acc : List Byte) (s : State) : Result :=
  match decodeSide acc with
  | .instr i _ => exec i s
  | .incomplete => .next s
  | .rejected _ _ => .next s

/-- R216: the main loop acts on the bytes `resolve_once` took: the side tag, then the instruction the body is (R230, R234),
or the log event of a decode error (R218). -/
def settle (b : BoardId) (d : Dir) (bytes : List Byte) (s : State) : Result :=
  andThen (runSideTag bytes ((s.setTask b .idle).arrivesAt b d)) (fun t =>
    match (resolveHead s.cfg.logMax (mapOf d) bytes).1 with
    | .nothing => .next t
    | .message m => exec (.ofVal m.val) t
    | .decodeError k bad => .next (t.boardLog b (.decodeError d k bad)))

/-- `APP`: the main loop goes on with what it is in, or takes the next request. -/
def mainLoopStep (b : BoardId) (s : State) : Result :=
  if s.mainLoopRuns b = false then .next s
  else
    match (s.board b).task with
    | .idle =>
      match (s.board b).todo with
      | [] => .next s
      | i :: rest => callAs (.board b) i (s.setBoard b { s.board b with todo := rest })
    | .resolve d => .next (resolveAtBoard b d s)
    | .settle d bytes => settle b d bytes s
    | .write _ _ _ _ => .next (continueTask b s)
    | .flush _ _ => .next (continueTask b s)

/-- `APP`, R216: the main loop, when it is free (R333), takes one received byte of a link into the buffer. -/
def receiveByte (b : BoardId) (d : Dir) (s : State) : State :=
  if s.mainLoopFree b && s.hasDir b d then
    match (s.board b).rxq.get d with
    | [] => s
    | x :: xs =>
      (ingest (.board b d) [x] (s.setBoard b { s.board b with rxq := (s.board b).rxq.set d xs })).setTask b (.resolve d)
  else s

/-- `APP`, R219: a read raises an error: the link's accumulation buffer is discarded, the error is logged, and the link
stays in service. That the bytes received and not yet taken stay is the model's choice (DESIGN CHOICE, log entry 39). -/
def readFault (b : BoardId) (d : Dir) (k : ErrKind) (s : State) : State :=
  if s.mainLoopFree b && s.hasDir b d then (s.setBoardAcc b d []).boardLog b (.readError d k) else s

/-- `ISR`, R290 to R295: the ready interrupt, taken when it is pending and not masked. -/
def readyInterrupt (b : BoardId) (d : Dir) (seen : Bool) (s : State) : Result :=
  if s.mainLoopRuns b && s.hasDir b d && (s.engine b d).readyPending then
    takeInterrupt b seen (exec (.txTryWrite b d)) s
  else .next s

/-- `OTHER_IRQ`, R293: another handler of the board, which may call one operation. -/
def otherInterrupt (b : BoardId) (call : Option Instr) (seen : Bool) (s : State) : Result :=
  if s.mainLoopRuns b then
    takeInterrupt b seen
      (fun t =>
        match call with
        | none => .next t
        | some i => callAs (.board b) i t) s
  else .next s

/-- `HOSTLOOP`, R57: the host's thread calls an operation, when it is in no tick. -/
def hostLoopStep (i : Instr) (s : State) : Result :=
  match s.host.task with
  | .idle => callAs .host i s
  | .tick _ _ => .next s

/-- `HOSTLOOP`, R257: the host's thread takes the next step of the tick it is in. -/
def hostNextStep (s : State) : State :=
  match s.host.task with
  | .idle => s
  | .tick st now => tickStep st now s

/-- One step of the agent an event names. -/
def runEvent (e : Event) (s : State) : Result :=
  match e with
  | .request b i => .next (s.setBoard b { s.board b with todo := (s.board b).todo ++ [i] })
  | .mainLoop b => mainLoopStep b s
  | .receive b d => .next (receiveByte b d s)
  | .readFault b d e => .next (readFault b d (.deviceError e) s)
  | .readyInterrupt b d seen => readyInterrupt b d seen s
  | .otherInterrupt b call seen => otherInterrupt b call seen s
  | .devComplete b d => .next (devComplete b d s)
  | .devEmit b d => .next (devEmit b d s)
  | .devAnswer b d a => .next (devAnswer b d a s)
  | .wireDeliver l => .next (wireDeliver l s)
  | .wireGlitch l bytes => .next (setLine l bytes s)
  | .hostLoop i => hostLoopStep i s
  | .hostNext => .next (hostNextStep s)
  | .portWriteAnswer p a => .next (portAnswer p (fun q => { q with writeAnswers := q.writeAnswers ++ [a] }) s)
  | .portAvailAnswer p a => .next (portAnswer p (fun q => { q with availAnswers := q.availAnswers ++ [a] }) s)
  | .portReadAnswer p a => .next (portAnswer p (fun q => { q with readAnswers := q.readAnswers ++ [a] }) s)

/-! ## Where a word of the opcode table is fetched from -/

/-- Bytes from upstream that board A's main loop has resolved and is about to act on. -/
def placeAtBoard (bytes : List Byte) (s : State) : State :=
  { s.setBoard .boardA { s.board .boardA with task := .settle .up bytes, inHandler := false } with
    schedule := .mainLoop .boardA :: s.schedule }

/-- The last byte of a message has arrived at the host's port of side `p`, which is there, the bytes before it being in
the buffer already, and the host's thread is free. -/
def placeAtHost (p : Side) (bytes : List Byte) (s : State) : State :=
  let l := s.link p
  let t := s.setLink p
    { l with
      acc := bytes.dropLast
      port := { l.port with rx := bytes.drop (bytes.length - 1), availAnswers := [], readAnswers := [] } }
  { t with
    host := { t.host with task := .idle }
    cfg := { s.cfg with port := s.cfg.port.set p true, readMax := max 1 s.cfg.readMax }
    schedule := .hostLoop (.hostReceive p) :: s.schedule }

/-- Place a word of the opcode table where the next step fetches: a command or a side tag at board A's upstream link, a
response at the host's left port; before a body stands a side tag, board A's own. A word the decoder refuses is placed
as a command. -/
def placeWord (nbits w : Nat) (s : State) : State :=
  let bytes := tableBytes nbits w
  let tag := sideTag (s.cfg.boardSide.get .boardA)
  match decodeTable s.cfg.logMax bytes with
  | some (.command, _, n) => placeAtBoard (tag :: bytes.take n) s
  | some (.response, _, n) => placeAtHost .left (tag :: bytes.take n) s
  | some (.side, _, n) => placeAtBoard (bytes.take n) s
  | none => placeAtBoard (tag :: bytes) s

end Sys2Proof.Machine
end

