-- ==== Sys2Proof/Machine/Step.lean ====
section
/-! DEFINITION. One step of the link block: the next event of the schedule. With nothing scheduled, nothing happens. -/

namespace Sys2Proof.Machine

/-- R61: one atomic step of one agent. -/
def step (s : State) : Host.Outcome State Fault Refusal :=
  match s.schedule with
  | [] => .next s
  | e :: rest => runEvent e { s with schedule := rest }

/-- `s` with a word of the opcode table placed where the next step fetches it (log entries 19 and 20). -/
def State.withFetchWord (s : State) (nbits w : Nat) : State := placeWord nbits w s

end Sys2Proof.Machine
end

