-- ==== Sys2Proof/Safety.lean ====
section
/-! DEFINITION. What a safe state of the link block is, and the terms the claims use: the well-formedness of a ring, an
engine, a board and the dispatcher (R21, R24, R25, R29), the invariant of the whole block, the table of `kick` on the
ring's contents (R144), what one pass of `write` has done (R146), and the bounded queue a ring stands for (R127). -/

namespace Sys2Proof.Machine

/-- R21, R128: `0 <= start < N`, `0 <= length <= N`, and every occupied slot holds an item. -/
abbrev Ring.Wf {α : Type} (r : Ring α) : Prop :=
  r.buf.length = r.cap ∧ r.start < r.cap ∧ r.length ≤ r.cap ∧ ∀ i < r.length, (r.item i).isSome = true

/-- R23, R24, R141: an engine of capacity `cap`. With no device the ring is empty and the interrupt is off. -/
abbrev Txe.Wf (cap : Nat) (t : Txe) : Prop :=
  t.rb.Wf ∧ t.rb.cap = cap ∧ (t.dev = none → t.rb.length = 0 ∧ t.irqEn = false)

/-- R24: with a device, the ready interrupt is enabled exactly while the ring is non-empty. -/
abbrev Txe.Armed (t : Txe) : Prop := t.dev ≠ none → t.irqEn = !t.rb.isEmpty

/-- Whether no error waits among the answers of an engine's device. -/
abbrev Txe.NoErrorWaits (t : Txe) : Prop := ∀ w, t.dev = some w → ∀ a ∈ w.answers, a = none

/-- R25, R141: the blocking operation in progress names an engine that exists and has a device, and a `write` still has
bytes to store. -/
def State.TaskWf (s : State) (b : BoardId) : Prop :=
  match (s.board b).task with
  | .idle => True
  | .resolve _ => True
  | .settle _ _ => True
  | .write d rem _ _ => s.hasDir b d = true ∧ (s.engine b d).dev ≠ none ∧ rem ≠ []
  | .flush d _ => s.hasDir b d = true ∧ (s.engine b d).dev ≠ none

/-- One board between two steps: its stand-alone ring and its engines are well-formed, a leaf's `TX_DOWN` has no device, no
handler is open (R294). -/
def State.BoardWf (s : State) (b : BoardId) : Prop :=
  (s.ring b).Wf ∧ (s.ring b).cap = s.cfg.ringCapacity ∧ (∀ d, (s.engine b d).Wf s.cfg.txCapacity) ∧
    (s.hasDir b .down = false → (s.engine b .down).dev = none) ∧ s.TaskWf b ∧ (s.board b).inHandler = false

/-- R257, R261: one side of the dispatcher: a pending target implies a recorded send, and no send lies in the future. -/
abbrev HostLink.Wf (clock : Time) (l : HostLink) : Prop :=
  (l.pending ≠ none → l.lastSend ≠ none) ∧ ∀ t, l.lastSend = some t → t ≤ clock

/-- The invariant of the block between two steps. -/
structure State.Inv (s : State) : Prop where
  cfg : s.cfg.Wf
  board : ∀ b, s.BoardWf b
  host : ∀ p, (s.link p).Wf s.host.clock
  /-- R250: a tick in progress is the latest operation the host was given. -/
  tick : ∀ st now, s.host.task = .tick st now → s.host.clock = now

/-- Every engine meets R24. -/
def State.Armed (s : State) : Prop := ∀ b d, (s.engine b d).Armed

/-- No device of the block has an error among its answers to come. -/
def State.NoErrorWaits (s : State) : Prop := ∀ b d, (s.engine b d).NoErrorWaits

/-- A board's main loop is free: in no operation, and no handler runs. -/
abbrev State.Free (s : State) (b : BoardId) : Prop := (s.board b).inHandler = false ∧ (s.board b).task = .idle

/-- R293, R294: the event runs a handler of board `b`: the ready interrupt of an engine, when it is pending, or another
handler, whatever it calls. -/
def RunsHandler (s : State) (b : BoardId) (seen : Bool) (e : Event) : Prop :=
  (∃ call, e = .otherInterrupt b call seen) ∨
    ∃ d w, e = .readyInterrupt b d seen ∧ s.hasDir b d = true ∧ (s.engine b d).dev = some w ∧
      (s.engine b d).irqEn = true ∧ w.ready = true

/-- R144: one `kick` with a device, on the ring's contents `q`: the contents, the interrupt enable, the device and the
result after it. -/
def kickTable (q : List Byte) (irqEn : Bool) (w : Device) : List Byte × Bool × Device × Res :=
  match q with
  | [] => ([], false, w, .ok)
  | x :: rest =>
    match w.answers with
    | some e :: as => (x :: rest, irqEn, { w with answers := as }, .err (.deviceError e))
    | as =>
      if w.ready then
        (rest, !rest.isEmpty, { ready := false, out := w.out ++ [x], answers := as.tail }, .ok)
      else (x :: rest, true, { w with answers := as.tail }, .ok)

/-- The engine of board `b` and link `d` is, after the step, a well-formed engine with these contents, enable and
device, and nothing else of the block but the board's task, the board's log and the result has changed. -/
structure EngineBecame (b : BoardId) (d : Dir) (s t : State) (q : List Byte) (irqEn : Bool) (w : Device) (task : Task)
    (log : List BoardLog) (ret : Option Ret) : Prop where
  contents : (t.engine b d).rb.contents = q
  wf : (t.engine b d).rb.Wf
  cap : (t.engine b d).rb.cap = (s.engine b d).rb.cap
  irq : (t.engine b d).irqEn = irqEn
  dev : (t.engine b d).dev = some w
  frame : t = { (s.setBoard b
    { s.board b with tx := (s.board b).tx.set d (t.engine b d), task := task, log := log }) with ret := ret }

/-- R146: how many of the bytes fit. -/
def fits (s : State) (b : BoardId) (d : Dir) (bytes : List Byte) : Nat :=
  min bytes.length ((s.engine b d).rb.cap - (s.engine b d).rb.contents.length)

/-- R146: `t` is `s` after one pass (a) to (d) of a `write` of `bytes`, not empty, on an engine with the device `w`: what
fits is stored, one `kick` runs, and the write has returned its error or `Ok`, or goes on, suspended if nothing fitted. -/
def WritePassed (b : BoardId) (d : Dir) (bytes : List Byte) (who : Caller) (w : Device) (s t : State) : Prop :=
  let n := fits s b d bytes
  let k := kickTable ((s.engine b d).rb.contents ++ bytes.take n) (s.engine b d).irqEn w
  match k.2.2.2 with
  | .err e =>
    EngineBecame b d s t k.1 k.2.1 k.2.2.1 .idle
      ((s.board b).log ++ (match who with | .router => [.writeError d e] | .application => []))
      (some (.result (.err e)))
  | .ok =>
    if n = bytes.length then
      EngineBecame b d s t k.1 k.2.1 k.2.2.1 .idle (s.board b).log (some (.result .ok))
    else
      EngineBecame b d s t k.1 k.2.1 k.2.2.1
        (.write d (bytes.drop n) (if n = 0 then .suspending else .running) who) (s.board b).log none

/-- R150: `t` is `s` after one test of a `flush` on an engine with the device `w`: a ring that holds bytes suspends it; an
empty one asks the device, whose answer ends it, or suspends it. -/
def FlushTested (b : BoardId) (d : Dir) (w : Device) (s t : State) : Prop :=
  match (s.engine b d).rb.contents with
  | _ :: _ =>
    EngineBecame b d s t (s.engine b d).rb.contents (s.engine b d).irqEn w (.flush d .suspending) (s.board b).log none
  | [] =>
    match w.answers with
    | some e :: as =>
      EngineBecame b d s t [] (s.engine b d).irqEn { w with answers := as } .idle (s.board b).log
        (some (.result (.err (.deviceError e))))
    | as =>
      if w.out = [] ∧ w.ready = true then
        EngineBecame b d s t [] (s.engine b d).irqEn { w with answers := as.tail } .idle (s.board b).log
          (some (.result .ok))
      else
        EngineBecame b d s t [] (s.engine b d).irqEn { w with answers := as.tail } (.flush d .suspending)
          (s.board b).log none

/-- R154: the bytes an engine has yet to see leave its device, oldest first: those the device has accepted, then those in
the ring. -/
def Txe.pipeline (t : Txe) (w : Device) : List Byte := w.out ++ t.rb.contents

/-- R233: the bytes `forward_command` writes, where a command's side is not the board's own: on `TX_DOWN` alone. -/
def forwardedBytes (s : State) (b : BoardId) (d : Dir) (dc : DirectedCommand) : List Byte :=
  if d = .down ∧ dc.side ≠ s.cfg.boardSide.get b then encDirectedCommand dc else []

/-- R154: the bytes of the `write` whose first pass an instruction runs on an engine; none where it runs none. -/
def instrWrites (s : State) (b : BoardId) (d : Dir) (i : Instr) : List Byte :=
  match i with
  | .txWrite c e bytes => if c = b ∧ e = d then bytes else []
  | .routerForwardCommand c dc => if c = b ∧ d = .down then encDirectedCommand dc else []
  | .routerOnCommand c dc => if c = b then forwardedBytes s b d dc else []
  | .routerSendResponse c r => if c = b ∧ d = .up then encSideResponse ⟨s.cfg.boardSide.get b, r⟩ else []
  | i =>
    match i.val? with
    | some (.command c) => if s.rx.cmdAt = b then forwardedBytes s b d ⟨s.rx.side, c⟩ else []
    | some (.response _) => []
    | none => []

/-- R154: the bytes of the `write` of which the next step of the schedule runs a pass on an engine: the first pass of one
the main loop begins, or the next pass of one in progress; none where the step runs no pass there. -/
def stepWrites (s : State) (b : BoardId) (d : Dir) : List Byte :=
  match s.schedule with
  | .mainLoop c :: _ =>
    if c = b then
      match (s.board b).task with
      | .idle => match (s.board b).todo with | i :: _ => instrWrites s b d i | [] => []
      | .settle e bytes =>
        match parseDirected s.cfg.logMax (mapOf e) bytes with
        | .ok (.command dc) _ => forwardedBytes s b d dc
        | _ => []
      | .write e rem .running _ => if e = d then rem else []
      | _ => []
    else []
  | _ => []

/-- R257: the first half of a tick, for one side: a pending target whose interval has elapsed is sent, and an error of the
port goes to `LOG`. The result register is the tick's to write. -/
def SentIfDue (p : Side) (now : Time) (s t : State) : Prop :=
  match (s.link p).pending, (s.link p).lastSend with
  | some x, some a =>
    if s.cfg.minSendInterval ≤ now - a then
      ∃ u : State, exec (.hostTransmitTarget p x now) s = .next u ∧
        ((u.ret = some (.result .ok) ∧ t = { u with ret := s.ret }) ∨
          ∃ k, u.ret = some (.result (.err k)) ∧
            t = { u with host := { u.host with log := u.host.log ++ [.writeError p k] }, ret := s.ret })
    else t = s
  | some _, none => t = s
  | none, _ => t = s

/-- R257: the second half of a tick, for one side: `receive` once where the port is configured. -/
def PolledIfPresent (p : Side) (s t : State) : Prop :=
  if s.cfg.port.get p = true then ∃ u : State, exec (.hostReceive p) s = .next u ∧ t = { u with ret := s.ret } else t = s

/-- R257: one stage of a tick at `now`. -/
def StageDone (st : TickStage) (now : Time) (s t : State) : Prop :=
  match st with
  | .send p => SentIfDue p now s t
  | .receive p => PolledIfPresent p s t

/-- R257, D31: the stages of a tick at `now`, each with what the host's thread is in after it: Left before Right, the sends
before the receives. -/
def tickStages (now : Time) : List (TickStage × HostTask) := [
  (.send .left, .tick (.send .right) now),
  (.send .right, .tick (.receive .left) now),
  (.receive .left, .tick (.receive .right) now),
  (.receive .right, .idle)]

/-- `t` with the host's thread in `task`; a tick that has come to its end has returned. -/
def State.inTask (t : State) (task : HostTask) : State :=
  { t with host := { t.host with task := task }, ret := if task = .idle then some .unit else none }

/-- R258: the message a tick at `now` sends for one side: its pending target, where the interval has elapsed. -/
def dueBytes (s : State) (now : Time) (p : Side) : List Byte :=
  match (s.link p).pending, (s.link p).lastSend with
  | some x, some a => if s.cfg.minSendInterval ≤ now - a then encDirectedCommand ⟨p, .setTarget x⟩ else []
  | some _, none => []
  | none, _ => []

/-- R98: the table of well-formed UTF-8 sequences: the inclusive range of each byte. -/
def utf8Forms : List (List (Nat × Nat)) := [
  [(0x00, 0x7F)],
  [(0xC2, 0xDF), (0x80, 0xBF)],
  [(0xE0, 0xE0), (0xA0, 0xBF), (0x80, 0xBF)],
  [(0xE1, 0xEC), (0x80, 0xBF), (0x80, 0xBF)],
  [(0xED, 0xED), (0x80, 0x9F), (0x80, 0xBF)],
  [(0xEE, 0xEF), (0x80, 0xBF), (0x80, 0xBF)],
  [(0xF0, 0xF0), (0x90, 0xBF), (0x80, 0xBF), (0x80, 0xBF)],
  [(0xF1, 0xF3), (0x80, 0xBF), (0x80, 0xBF), (0x80, 0xBF)],
  [(0xF4, 0xF4), (0x80, 0x8F), (0x80, 0xBF), (0x80, 0xBF)]]

/-- R98: a byte string is one sequence of the table. -/
def Utf8Sequence (q : List Byte) : Prop :=
  ∃ f ∈ utf8Forms, List.Forall₂ (fun (r : Nat × Nat) (b : Byte) => r.1 ≤ b.toNat ∧ b.toNat ≤ r.2) f q

/-- R62, R333: the bytes received at the end of a link and not yet taken, oldest first. -/
def receivedAt (r : Receiver) (s : State) : List Byte :=
  match r with
  | .port p => (s.link p).port.rx
  | .path b d => (s.board b).rxq.get d

/-- R216, R217: a board's receive buffer is the head of a message that waits for more bytes, and with the byte just taken
before it where `resolve_once` is still to run. -/
def State.HeadWaits (s : State) (b : BoardId) (d : Dir) : Prop :=
  if (s.board b).task = .resolve d then
    (s.board b).acc.get d ≠ [] ∧
      parseDirected s.cfg.logMax (mapOf d) ((s.board b).acc.get d).dropLast = .incomplete
  else parseDirected s.cfg.logMax (mapOf d) ((s.board b).acc.get d) = .incomplete

/-- R216, R217: the bound of a buffer that waits for more bytes: the longest fixed message or log line, less its last
byte, with the side tag (log entry 34). -/
def waitingBound (logMax : Nat) : Nat := max longestFixedBody (logMax + 2)

/-- R89, R216: the table map of a board's receive link. -/
def tableMapOf : Dir → TableMap
  | .up => .command
  | .down => .response

/-- The receiver's context while a message with the side tag of `side` is resolved on a board's receive link. -/
def RxCtx.onBoard (rx : RxCtx) (b : BoardId) (d : Dir) (side : Side) : RxCtx :=
  match d with
  | .up => ⟨side, b, rx.respAt⟩
  | .down => ⟨side, rx.cmdAt, .board b⟩

/-- A board's receive link after a step: the bytes not yet taken and the accumulation buffer. -/
def State.withReceive (s : State) (b : BoardId) (d : Dir) (rxq acc : List Byte) : State :=
  s.setBoard b { s.board b with rxq := (s.board b).rxq.set d rxq, acc := (s.board b).acc.set d acc }

/-- R127: an operation of the `RB` family, whichever ring it is asked of. -/
inductive QueueOp
  | add (x : Byte)
  | addAll (xs : List Byte)
  | take
  | peek
  | isEmpty
  | isFull
deriving DecidableEq, Repr

/-- The instruction that asks the operation of a board's stand-alone ring. -/
def QueueOp.on (b : BoardId) : QueueOp → Instr
  | .add x => .rbAdd (.alone b) x
  | .addAll xs => .rbAddAll (.alone b) xs
  | .take => .rbTake (.alone b)
  | .peek => .rbPeek (.alone b)
  | .isEmpty => .rbIsEmpty (.alone b)
  | .isFull => .rbIsFull (.alone b)

/-- R127: the bounded queue a ring of capacity `cap` stands for: an operation on the items, oldest first, and what it
returns. -/
def queueStep (cap : Nat) (o : QueueOp) (q : List Byte) : List Byte × Ret :=
  match o with
  | .add x => if q.length < cap then (q ++ [x], .flag true) else (q, .flag false)
  | .addAll xs => (q ++ xs.take (cap - q.length), .count (min xs.length (cap - q.length)))
  | .take => (q.tail, .item q.head?)
  | .peek => (q, .item q.head?)
  | .isEmpty => (q, .flag q.isEmpty)
  | .isFull => (q, .flag (q.length == cap))

/-- A run of queue operations: the results in order, and the items left. -/
def queueRun (cap : Nat) : List QueueOp → List Byte → List (Option Ret) × List Byte
  | [], q => ([], q)
  | o :: os, q =>
    (some (queueStep cap o q).2 :: (queueRun cap os (queueStep cap o q).1).1, (queueRun cap os (queueStep cap o q).1).2)

/-- A run of instructions on the machine: the results in order, and the state left; none where one of them stops. -/
def execRun : List Instr → State → Option (List (Option Ret) × State)
  | [], s => some ([], s)
  | i :: is, s =>
    match exec i s with
    | .next t => (execRun is t).map (fun o => (t.ret :: o.1, o.2))
    | .fault _ => none
    | .refused _ => none

end Sys2Proof.Machine
end

