-- ==== Sys2Proof/Certificates/Slice0/Obligations.lean ====
section
/-! DEFINITION. The statements for the provers, taken from the numbered rules of spec/. Where a statement speaks of the
schedule, of the queues of requests and answers or of the receiver's context, these are the model's own elements (log
entries 2 to 5 and 18), and such a statement is derived, not stated. What a rule says an operation returns is read from
`ret` in the state right after the operation (log entry 21). That a stand-alone ring is a board's is log entry 9. -/

open Sys2Proof Sys2Proof.Machine

/-! ## Ring buffer -/

/-- R121. On a board's stand-alone ring; nothing else of the block changes. -/
def Obligations.RingAddAppendsOrRefuses : Prop :=
  ∀ (s : State) (b : BoardId) (x : Byte), (s.ring b).Wf →
    ((s.ring b).length < (s.ring b).cap →
      ∃ q : Sys2Proof.Machine.Ring Byte,
        exec (.rbAdd (.alone b) x) s = .next ((s.setRing b q).returns (.flag true)) ∧
        q = { s.ring b with
              buf := (s.ring b).buf.set (((s.ring b).start + (s.ring b).length) % (s.ring b).cap) (some x)
              length := (s.ring b).length + 1 } ∧
        q.contents = (s.ring b).contents ++ [x] ∧ q.isEmpty = false ∧
        (q.isFull = true ↔ (s.ring b).length + 1 = (s.ring b).cap)) ∧
    ((s.ring b).length = (s.ring b).cap →
      exec (.rbAdd (.alone b) x) s = .next { s with ret := some (.flag false) })

/-- R122, the result in closed form. -/
def Obligations.RingAddAllStoresWhatFits : Prop :=
  ∀ (s : State) (b : BoardId) (xs : List Byte), (s.ring b).Wf →
    ∃ q : Sys2Proof.Machine.Ring Byte,
      exec (.rbAddAll (.alone b) xs) s =
        .next ((s.setRing b q).returns (.count (min xs.length ((s.ring b).cap - (s.ring b).length)))) ∧
      q.contents = (s.ring b).contents ++ xs.take (min xs.length ((s.ring b).cap - (s.ring b).length)) ∧
      q.cap = (s.ring b).cap ∧ q.start = (s.ring b).start ∧ q.Wf ∧
      (xs = [] ∨ (s.ring b).length = (s.ring b).cap → q = s.ring b)

/-- R123. -/
def Obligations.RingTakeReturnsTheOldest : Prop :=
  ∀ (s : State) (b : BoardId), (s.ring b).Wf →
    ((s.ring b).length = 0 → exec (.rbTake (.alone b)) s = .next { s with ret := some (.item none) }) ∧
    ((s.ring b).length ≠ 0 →
      ∃ (x : Byte) (q : Sys2Proof.Machine.Ring Byte),
        exec (.rbTake (.alone b)) s = .next ((s.setRing b q).returns (.item (some x))) ∧
        q.start = ((s.ring b).start + 1) % (s.ring b).cap ∧ q.length = (s.ring b).length - 1 ∧
        q.cap = (s.ring b).cap ∧ q.Wf ∧ (s.ring b).contents = x :: q.contents ∧ q.isFull = false ∧
        (q.isEmpty = true ↔ (s.ring b).length = 1))

/-- R124, R125, R126: the three queries read the ring and change nothing but the result. -/
def Obligations.RingQueriesOnlyReturn : Prop :=
  ∀ (s : State) (b : BoardId), (s.ring b).Wf →
    exec (.rbPeek (.alone b)) s = .next { s with ret := some (.item (s.ring b).contents.head?) } ∧
    exec (.rbIsEmpty (.alone b)) s = .next { s with ret := some (.flag (decide ((s.ring b).contents = []))) } ∧
    exec (.rbIsFull (.alone b)) s =
      .next { s with ret := some (.flag (decide ((s.ring b).contents.length = (s.ring b).cap))) }

/-- R127: a run of ring operations gives the results of the same run on a bounded queue of the items, oldest first, and
leaves the items that run leaves. -/
def Obligations.RingRefinesBoundedQueue : Prop :=
  ∀ (os : List QueueOp) (s : State) (b : BoardId), (s.ring b).Wf →
    ∃ t : State, execRun (os.map (QueueOp.on b)) s =
        some ((queueRun (s.ring b).cap os (s.ring b).contents).1, t) ∧
      (t.ring b).contents = (queueRun (s.ring b).cap os (s.ring b).contents).2 ∧ (t.ring b).Wf ∧
      (t.ring b).cap = (s.ring b).cap

/-- R128. -/
def Obligations.RingOperationsKeepTheirBounds : Prop :=
  ∀ (o : QueueOp) (s t : State) (b : BoardId),
    (s.ring b).start < (s.ring b).cap → (s.ring b).length ≤ (s.ring b).cap → exec (o.on b) s = .next t →
    (t.ring b).cap = (s.ring b).cap ∧ (t.ring b).start < (t.ring b).cap ∧ (t.ring b).length ≤ (t.ring b).cap

/-! ## Transmit engine -/

/-- R144: one `kick`, alone or as `try_write`, follows the table; the enable, the device and the result with it. -/
def Obligations.KickFollowsItsTable : Prop :=
  ∀ (s : State) (b : BoardId) (d : Dir) (w : Device) (i : Instr),
    s.hasDir b d = true → (s.engine b d).rb.Wf → (s.engine b d).dev = some w →
    i ∈ [.txKick b d, .txTryWrite b d] →
    ∃ t : State, exec i s = .next t ∧
      EngineBecame b d s t (kickTable (s.engine b d).rb.contents (s.engine b d).irqEn w).1
        (kickTable (s.engine b d).rb.contents (s.engine b d).irqEn w).2.1
        (kickTable (s.engine b d).rb.contents (s.engine b d).irqEn w).2.2.1 (s.board b).task (s.board b).log
        (some (.result (kickTable (s.engine b d).rb.contents (s.engine b d).irqEn w).2.2.2))

/-- R141: with no device, `write` and `flush` are refused and `try_write` is a no-op. -/
def Obligations.WithoutDeviceWriteAndFlushAreRefused : Prop :=
  ∀ (s : State) (b : BoardId) (d : Dir) (bytes : List Byte),
    s.hasDir b d = true → (s.engine b d).dev = none →
    (s.Free b → exec (.txWrite b d bytes) s = .refused .deviceAbsent ∧
      exec (.txFlush b d) s = .refused .deviceAbsent) ∧
    exec (.txTryWrite b d) s = .next { s with ret := some (.result .ok) } ∧
    exec (.txKick b d) s = .next { s with ret := some (.result .ok) }

/-- R142: the device is set once, nothing is called on it, and no operation clears it. -/
def Obligations.DeviceIsSetOnceForGood : Prop :=
  (∀ (s : State) (b : BoardId) (d : Dir) (w : Device), s.hasDir b d = true → s.Free b →
    ((s.engine b d).dev = none →
      exec (.txSetDevice b d w) s =
        .next ((s.setEngine b d ⟨(s.engine b d).rb, some w, (s.engine b d).irqEn⟩).returns .unit)) ∧
    ((s.engine b d).dev ≠ none → exec (.txSetDevice b d w) s = .refused .deviceAlreadySet)) ∧
  (∀ (i : Instr) (s t : State) (b : BoardId) (d : Dir),
    exec i s = .next t → (s.engine b d).dev ≠ none → (t.engine b d).dev ≠ none)

/-- R146: an empty `write` runs no pass; otherwise the operation runs its first pass, in the step that requests it (the
model's choice, log entry 36), and a scheduled main loop runs the next one while the operation is not suspended. For the
router's `write` that next pass also appends a device error to the board's `LOG` (R233, the event being log entry 25). -/
def Obligations.WriteRunsPassByPass : Prop :=
  ∀ (s : State) (b : BoardId) (d : Dir) (bytes : List Byte) (w : Device),
    s.hasDir b d = true → (s.engine b d).rb.Wf → (s.engine b d).dev = some w →
    (s.Free b → bytes = [] →
      exec (.txWrite b d bytes) s = .next { s with ret := some (.result .ok) }) ∧
    (s.Free b → bytes ≠ [] →
      ∃ t : State, exec (.txWrite b d bytes) s = .next t ∧ WritePassed b d bytes .application w s t) ∧
    (∀ (who : Caller) (rest : List Event), (s.board b).inHandler = false →
      (s.board b).task = .write d bytes .running who → s.schedule = .mainLoop b :: rest →
      ∃ t : State, step s = .next t ∧ WritePassed b d bytes who w { s with schedule := rest } t)

/-- R150: `flush` runs its first test, in the step that requests it (the model's choice, log entry 36), and a scheduled main
loop the next one while the operation is not suspended. -/
def Obligations.FlushTestsUntilDrained : Prop :=
  ∀ (s : State) (b : BoardId) (d : Dir) (w : Device),
    s.hasDir b d = true → (s.engine b d).rb.Wf → (s.engine b d).dev = some w →
    (s.Free b → ∃ t : State, exec (.txFlush b d) s = .next t ∧ FlushTested b d w s t) ∧
    (∀ rest : List Event, (s.board b).inHandler = false → (s.board b).task = .flush d .running →
      s.schedule = .mainLoop b :: rest →
      ∃ t : State, step s = .next t ∧ FlushTested b d w { s with schedule := rest } t)

/-- R297, R25, R216, R333: an operation of the main loop, the receiver's two included (D39), has no next state while a
handler runs on its board, nor while the main loop is in another. That the model stops there by a refusal is log entries
11 and 12 (DEDUCED from R330, U2). -/
def Obligations.MainLoopOperationsNeedAFreeMainLoop : Prop :=
  ∀ (s t : State) (b : BoardId) (d : Dir) (w : Device) (bytes : List Byte) (map : MsgMap) (dc : DirectedCommand)
    (sr : SideResponse) (i : Instr),
    i ∈ [.txSetDevice b d w, .txWrite b d bytes, .txFlush b d, .linkIngest (.board b d) bytes,
      .linkResolveOnce (.board b d) map, .routerOnCommand b dc, .routerLocalDispatch b dc.command,
      .routerCannotForward b dc, .routerForwardCommand b dc, .routerOnResponse b sr,
      .routerLocalReaction b sr.response, .routerSendResponse b sr.response] →
    exec i s = .next t → s.Free b

/-- R149: a context that ended a pass or a test without progress begins to wait, a waiting one takes no step, and the
completion of any handler wakes it, whatever the handler called; one that completes in the gap counts or not (log entry 7).
A handler that calls `try_write` completes, and so does the ready interrupt's. -/
def Obligations.SuspendedContextsWakeOnInterrupts : Prop :=
  ∀ (s : State) (b : BoardId) (d : Dir) (rem : List Byte) (who : Caller) (rest : List Event) (seen : Bool),
    (s.board b).inHandler = false →
    (s.schedule = .mainLoop b :: rest →
      ((s.board b).task = .write d rem .suspending who →
        step s = .next (({ s with schedule := rest } : State).setTask b (.write d rem .waiting who))) ∧
      ((s.board b).task = .flush d .suspending →
        step s = .next (({ s with schedule := rest } : State).setTask b (.flush d .waiting))) ∧
      ((s.board b).task = .write d rem .waiting who ∨ (s.board b).task = .flush d .waiting →
        step s = .next { s with schedule := rest })) ∧
    (s.schedule = .otherInterrupt b none seen :: rest →
      ((s.board b).task = .write d rem .waiting who →
        step s = .next (({ s with schedule := rest } : State).setTask b (.write d rem .running who))) ∧
      ((s.board b).task = .flush d .waiting →
        step s = .next (({ s with schedule := rest } : State).setTask b (.flush d .running))) ∧
      ((s.board b).task = .write d rem .suspending who →
        step s = .next (({ s with schedule := rest } : State).setTask b
          (.write d rem (if seen then .running else .suspending) who))) ∧
      ((s.board b).task = .flush d .suspending →
        step s = .next (({ s with schedule := rest } : State).setTask b
          (.flush d (if seen then .running else .suspending))))) ∧
    (∀ (e : Event) (t : State), RunsHandler s b seen e → s.schedule = e :: rest → step s = .next t →
      (t.board b).inHandler = false ∧
      ((s.board b).task = .write d rem .waiting who → (t.board b).task = .write d rem .running who) ∧
      ((s.board b).task = .flush d .waiting → (t.board b).task = .flush d .running) ∧
      ((s.board b).task = .write d rem .suspending who →
        (t.board b).task = .write d rem (if seen then .running else .suspending) who) ∧
      ((s.board b).task = .flush d .suspending →
        (t.board b).task = .flush d (if seen then .running else .suspending))) ∧
    (∀ (e : Event) (f : Dir), s.hasDir b f = true →
      (e = .readyInterrupt b f seen ∨ e = .otherInterrupt b (some (.txTryWrite b f)) seen) → s.schedule = e :: rest →
      ∃ t : State, step s = .next t)

/-- R290, R294, R295: the ready interrupt, taken when it is pending and not masked, runs `try_write` once between entry and
return; when it is not pending nothing happens. -/
def Obligations.ReadyInterruptRunsTryWriteOnce : Prop :=
  ∀ (s : State) (b : BoardId) (d : Dir) (seen : Bool) (rest : List Event),
    s.schedule = .readyInterrupt b d seen :: rest → (s.board b).inHandler = false → s.hasDir b d = true →
    ((∃ w, (s.engine b d).dev = some w ∧ (s.engine b d).irqEn = true ∧ w.ready = true) →
      ∃ t : State, exec (.txTryWrite b d) (enterHandler b { s with schedule := rest }) = .next t ∧
        step s = .next (leaveHandler b seen t)) ∧
    (¬(∃ w, (s.engine b d).dev = some w ∧ (s.engine b d).irqEn = true ∧ w.ready = true) →
      step s = .next { s with schedule := rest })

/-- R145, R147, R294: the interrupt of a ready device hands over the oldest byte and no other, and wakes a waiting main
loop. -/
def Obligations.ReadyInterruptSendsTheOldestByte : Prop :=
  ∀ (s : State) (b : BoardId) (d : Dir) (w : Device) (x : Byte) (q : List Byte) (rest : List Event),
    s.schedule = .readyInterrupt b d true :: rest → (s.board b).inHandler = false → s.hasDir b d = true →
    (s.engine b d).rb.Wf → (s.engine b d).dev = some w → (s.engine b d).irqEn = true → w.ready = true →
    (∀ e, w.answers.head? ≠ some (some e)) →
    (s.engine b d).rb.contents = x :: q →
    ∃ t : State, step s = .next t ∧
      EngineBecame b d { s with schedule := rest } t q (!q.isEmpty) ⟨false, w.out ++ [x], w.answers.tail⟩
        ((s.board b).task.wake true) (s.board b).log (some (.result .ok))

/-- R152, R24: with no error among the devices' answers, every step keeps the ready interrupt enabled exactly while the
ring is non-empty, on every engine with a device. -/
def Obligations.InterruptStaysArmedIffNonEmpty : Prop :=
  ∀ s t : State, s.Inv → s.Armed → s.NoErrorWaits → step s = .next t → t.Armed

/-- R154, R62, R64, R145: what a step does to an engine with a device: bytes are only appended behind those in the ring, and
these are a head of the bytes of the `write` the step runs a pass of, so none where it runs none; at most one byte goes
from the ring to the device, the oldest; and a byte leaves the device, the oldest, only onto the link. The device stays
set. -/
def Obligations.EngineBytesLeaveInOrder : Prop :=
  ∀ (s t : State) (b : BoardId) (d : Dir) (w : Device), s.Inv → step s = .next t → (s.engine b d).dev = some w →
    ∃ w' : Device, (t.engine b d).dev = some w' ∧
      ((∃ more : List Byte, more <+: stepWrites s b d ∧
          (t.engine b d).pipeline w' = (s.engine b d).pipeline w ++ more ∧
          (w'.out = w.out ∨ ∃ x, w'.out = w.out ++ [x])) ∨
        (∃ x : Byte, w.out = x :: w'.out ∧ (t.engine b d).rb.contents = (s.engine b d).rb.contents ∧
          (t.board b).line.get d = (s.board b).line.get d ++ [x]))

/-- R153: while the device takes its bytes, the interrupt drains the ring: `n` rounds of interrupt and completion move `n`
bytes to the device, in order, and then disable the interrupt. -/
def Obligations.InterruptsDrainTheRing : Prop :=
  ∀ (s : State) (b : BoardId) (d : Dir) (w : Device) (seen : Bool), (s.board b).inHandler = false →
    s.hasDir b d = true → (s.engine b d).rb.Wf → (s.engine b d).dev = some w → (s.engine b d).Armed →
    w.ready = true → w.answers = [] →
    s.schedule = (List.replicate (s.engine b d).rb.contents.length
      [Event.readyInterrupt b d seen, Event.devComplete b d]).flatten →
    ∃ t : State, core.run s.schedule.length s = .next t ∧ (t.engine b d).rb.contents = [] ∧
      (t.engine b d).irqEn = false ∧
      (t.engine b d).dev = some ⟨true, w.out ++ (s.engine b d).rb.contents, []⟩

/-- R334, R153: while a device stays not ready, no step of any agent ends a `flush` on its engine, nor a `write` on its full
ring, which stores nothing either; and the device stays not ready until it completes. The steps left out are the device's
completion and a fault it is given to answer. -/
def Obligations.StalledDeviceBlocksWriteAndFlush : Prop :=
  ∀ (s t : State) (b : BoardId) (d : Dir) (w : Device), s.Inv → (s.engine b d).dev = some w → w.ready = false →
    w.answers = [] → s.schedule.head? ≠ some (.devComplete b d) →
    (∀ a, s.schedule.head? ≠ some (.devAnswer b d a)) → step s = .next t →
    (∃ w' : Device, (t.engine b d).dev = some w' ∧ w'.ready = false ∧ w'.answers = []) ∧
    (∀ rem ph who, (s.board b).task = .write d rem ph who → (s.engine b d).rb.length = (s.engine b d).rb.cap →
      (t.engine b d).rb = (s.engine b d).rb ∧ ∃ ph', (t.board b).task = .write d rem ph' who) ∧
    (∀ ph, (s.board b).task = .flush d ph → ∃ ph', (t.board b).task = .flush d ph')

/-! ## Codec -/

/-- R171, R87, R88, R81: words written out from the encodings of the spec decode to the messages they stand for. -/
def Obligations.WordsOfEachFamilyDecode : Prop :=
  decode 8 .command [0x6C, 0x31] = .instr (.setSideLed true) 2 ∧
  decode 8 .command [0x66, 0xB8, 0x01, 0, 0, 0xFA, 0, 0, 0] = .instr (.addBuzzerNote (some 440) 250) 9 ∧
  decode 8 .command [0x53, 0x9C, 0xFF, 0xC8, 0] = .instr (.setMaxTorque (BitVec.ofInt 16 (-100)) 200) 5 ∧
  decode 8 .response [0x42, 0x74, 0x0E, 0xB8, 0x0B, 0x23, 0x01] = .instr (.batteryReadings 3700 3000 291) 7 ∧
  decode 8 .response [0x22, 0x68, 0x69, 0x0A] = .instr (.log [0x68, 0x69]) 4 ∧
  decode 8 .side [0x52] = .instr .sideRight 1

/-- R174, R171: decoding the bytes of a well-formed wire message gives the message back, with its length, whatever follows
them; for every wire row. -/
def Obligations.DecodeOfEncodeIsTheInstruction : Prop :=
  ∀ (m : Nat) (i : Instr) (bs tail : List Byte) (map : TableMap), i.Wf m → encode i = some bs →
    i.tableMap? = some map → decode m map (bs ++ tail) = .instr i bs.length

/-- R95: what decodes is the encoding of a well-formed instruction, byte for byte. -/
def Obligations.EncodeOfDecodeIsTheBytes : Prop :=
  ∀ (m : Nat) (map : TableMap) (bs : List Byte) (i : Instr) (n : Nat), decode m map bs = .instr i n →
    i.Wf m ∧ i.tableMap? = some map ∧ n ≤ bs.length ∧ encode i = some (bs.take n)

/-- R191, with the codec's operations: encoding a well-formed value and then parsing or exactly decoding the bytes; and on
every string of bytes each of the four completes with its verdict. -/
def Obligations.CodecRoundTrips : Prop :=
  ∀ (s : State),
    (∀ (map : MsgMap) (bs : List Byte),
      exec (.codecParseBody map bs) s = .next { s with ret := some (.body (parseBody s.cfg.logMax map bs)) } ∧
      exec (.codecDecodeBody map bs) s = .next { s with ret := some (.body (decodeBody s.cfg.logMax map bs)) } ∧
      exec (.codecParseDirected map bs) s =
        .next { s with ret := some (.directed (parseDirected s.cfg.logMax map bs)) } ∧
      exec (.codecDecodeDirected map bs) s =
        .next { s with ret := some (.directed (decodeDirected s.cfg.logMax map bs)) }) ∧
    (∀ v : Val, v.Wf s.cfg.logMax → ∃ bs : List Byte,
      exec (.codecEncode v) s = .next { s with ret := some (.bytes bs) } ∧
      exec (.codecParseBody v.map bs) s = .next { s with ret := some (.body (.ok v bs.length)) } ∧
      exec (.codecDecodeBody v.map bs) s = .next { s with ret := some (.body (.ok v bs.length)) }) ∧
    (∀ v : Directed, v.Wf s.cfg.logMax → ∃ bs : List Byte,
      exec (.codecEncDirected v) s = .next { s with ret := some (.bytes bs) } ∧
      exec (.codecParseDirected v.val.map bs) s = .next { s with ret := some (.directed (.ok v bs.length)) } ∧
      exec (.codecDecodeDirected v.val.map bs) s = .next { s with ret := some (.directed (.ok v bs.length)) })

/-- R192, R213. -/
def Obligations.TruncatedMessagesAreIncomplete : Prop :=
  ∀ m : Nat,
    (∀ (v : Val) (k : Nat), v.Wf m → k < (encVal v).length →
      decodeBody m v.map ((encVal v).take k) = .incomplete ∧
      parseBody m v.map ((encVal v).take k) = .incomplete) ∧
    (∀ (v : Directed) (k : Nat), v.Wf m → k < (encDirected v).length →
      decodeDirected m v.val.map ((encDirected v).take k) = .incomplete ∧
      parseDirected m v.val.map ((encDirected v).take k) = .incomplete)

/-- R193, and R213 for the directed form. That the error carries no count is R172, R195 (D16). -/
def Obligations.TrailingBytesAreAnErrorExceptAfterLogs : Prop :=
  ∀ (m : Nat) (x : Byte),
    (∀ v : Val, v.Wf m →
      decodeBody m v.map (encVal v ++ [x]) =
        (if v.isLog then .ok v (encVal v).length else .err .trailingBytes none) ∧
      parseBody m v.map (encVal v ++ [x]) = .ok v (encVal v).length) ∧
    (∀ v : Directed, v.Wf m →
      decodeDirected m v.val.map (encDirected v ++ [x]) =
        (if v.val.isLog then .ok v (encDirected v).length else .err .trailingBytes none) ∧
      parseDirected m v.val.map (encDirected v ++ [x]) = .ok v (encDirected v).length)

/-- R194, and R213 for the directed form: a verdict stands whatever bytes follow, and every head of an incomplete string is
incomplete. -/
def Obligations.ParseVerdictsArePrefixStable : Prop :=
  ∀ (m : Nat) (map : MsgMap) (p q : List Byte),
    (parseBody m map p ≠ .incomplete → parseBody m map (p ++ q) = parseBody m map p) ∧
    (parseBody m map (p ++ q) = .incomplete → parseBody m map p = .incomplete) ∧
    (parseDirected m map p ≠ .incomplete → parseDirected m map (p ++ q) = parseDirected m map p) ∧
    (parseDirected m map (p ++ q) = .incomplete → parseDirected m map p = .incomplete)

/-- R195, R211: the consumed count of every error of a body and of a directed message, in both modes. -/
def Obligations.ErrorsReportTheirCount : Prop :=
  ∀ (m : Nat) (map : MsgMap) (s : List Byte) (k : ErrKind) (c : Option Nat),
    (parseBody m map s = .err k c →
      (∃ t, k = .invalidTag t ∧ s.head? = some t ∧ map.row? t = none ∧ c = some 1) ∨
      (∃ x, k = .invalidField x ∧ s[1]? = some x ∧ x ≠ 0x30#8 ∧ x ≠ 0x31#8 ∧ c = some 2) ∨
      (∃ i, k = .utf8Error ∧ s[i + 1]? = some 0x0A#8 ∧ i ≤ m ∧ c = some (i + 2)) ∨
      (k = .logTooLong ∧ c = none)) ∧
    (decodeBody m map s = .err k c → parseBody m map s = .err k c ∨ (k = .trailingBytes ∧ c = none)) ∧
    (parseDirected m map s = .err k c →
      (∃ t, k = .invalidTag t ∧ s.head? = some t ∧ t ≠ 0x4C#8 ∧ t ≠ 0x52#8 ∧ c = some 1) ∨
      (∃ side body n, s = sideTag side :: body ∧ parseBody m map body = .err k (some n) ∧ c = some (n + 1)) ∨
      (∃ side body, s = sideTag side :: body ∧ parseBody m map body = .err k none ∧ c = none)) ∧
    (decodeDirected m map s = .err k c → parseDirected m map s = .err k c ∨ (k = .trailingBytes ∧ c = none))

/-- R204: `parse_log` on a string that begins with the tag, by whether a newline follows. On any other string it answers as
well, with a value the spec leaves free (log entry 40). -/
def Obligations.LogLinesEndAtTheFirstNewline : Prop :=
  ∀ (s : State) (line rest : List Byte),
    (0x0A#8 ∉ line →
      exec (.codecParseLog (0x22#8 :: (line ++ 0x0A#8 :: rest))) s =
        .next { s with ret := some (.body
          (if s.cfg.logMax < line.length then .err .logTooLong none
            else if utf8Valid line then .ok (.response (.log line)) (line.length + 2)
            else .err .utf8Error (some (line.length + 2)))) } ∧
      exec (.codecParseLog (0x22#8 :: line)) s =
        .next { s with ret := some (.body
          (if s.cfg.logMax < line.length then .err .logTooLong none else .incomplete)) }) ∧
    (line.head? ≠ some 0x22#8 → ∃ p, exec (.codecParseLog line) s = .next { s with ret := some (.body p) })

/-- R96, with and without the side tag. -/
def Obligations.NoEncodingBeginsAnother : Prop :=
  ∀ m : Nat,
    (∀ v w : Val, v.Wf m → w.Wf m → v.map = w.map → encVal v <+: encVal w → v = w) ∧
    (∀ v w : Directed, v.Wf m → w.Wf m → v.val.map = w.val.map → encDirected v <+: encDirected w → v = w)

/-- R98: a string is valid UTF-8 exactly if it is a concatenation of sequences of the table, and no sequence of more than
one byte holds a newline. With it, what the rules use: ASCII strings are valid, and behind a valid string another is valid
exactly if the two joined are. -/
def Obligations.ValidUtf8IsSequencesOfTheTable : Prop :=
  (∀ s : List Byte, utf8Valid s = true ↔ ∃ qs : List (List Byte), (∀ q ∈ qs, Utf8Sequence q) ∧ s = qs.flatten) ∧
  (∀ q : List Byte, Utf8Sequence q → q.length ≠ 1 → 0x0A#8 ∉ q) ∧
  (∀ s : List Byte, (∀ b ∈ s, b.toNat ≤ 0x7F) → utf8Valid s = true) ∧
  (∀ s t : List Byte, utf8Valid s = true → utf8Valid t = utf8Valid (s ++ t))

/-! ## Link receiver -/

/-- R214: on the buffer of a host port, and on a board's while its main loop is free. It holds of any bytes, also such as no
receive path hands it (log entry 42). -/
def Obligations.IngestAppendsToTheBuffer : Prop :=
  ∀ (s : State) (p : Side) (b : BoardId) (d : Dir) (bytes : List Byte),
    exec (.linkIngest (.host p) bytes) s =
      .next ((s.setLink p { s.link p with acc := (s.link p).acc ++ bytes }).returns .unit) ∧
    (s.hasDir b d = true → s.Free b →
      exec (.linkIngest (.board b d) bytes) s =
        .next ((s.withReceive b d ((s.board b).rxq.get d) ((s.board b).acc.get d ++ bytes)).returns .unit))

/-- R215: one attempt to resolve the head of a buffer, with the map the operand names. That a map which is not the buffer's
own (R216, R256) is taken too is the model's choice (log entry 42). -/
def Obligations.ResolveOnceDropsOnlyWhatWasSettled : Prop :=
  ∀ (s : State) (a : AccSel) (map : MsgMap),
    (∀ b d, a = .board b d → s.hasDir b d = true ∧ s.Free b) →
    (parseDirected s.cfg.logMax map (s.acc a) = .incomplete →
      exec (.linkResolveOnce a map) s = .next { s with ret := some (.link .nothing) }) ∧
    (∀ m n, parseDirected s.cfg.logMax map (s.acc a) = .ok m n →
      exec (.linkResolveOnce a map) s = .next ((s.setAcc a ((s.acc a).drop n)).returns (.link (.message m)))) ∧
    (∀ k c, parseDirected s.cfg.logMax map (s.acc a) = .err k (some c) →
      exec (.linkResolveOnce a map) s =
        .next ((s.setAcc a ((s.acc a).drop c)).returns (.link (.decodeError k ((s.acc a).take c))))) ∧
    (∀ k, parseDirected s.cfg.logMax map (s.acc a) = .err k none →
      exec (.linkResolveOnce a map) s = .next ((s.setAcc a []).returns (.link (.decodeError k (s.acc a)))))

/-- R216: when a board's main loop acts on bytes it has resolved, and these are a message, the step is the run of that
message's instruction, with the side tag read. -/
def Obligations.StepRunsTheDecodedMessage : Prop :=
  ∀ (s : State) (b : BoardId) (d : Dir) (bytes : List Byte) (side : Side) (i : Instr) (k : Nat) (rest : List Event),
    s.schedule = .mainLoop b :: rest → (s.board b).inHandler = false → (s.board b).task = .settle d bytes →
    decode s.cfg.logMax .side bytes = .instr (.ofSide side) 1 →
    decode s.cfg.logMax (tableMapOf d) (bytes.drop 1) = .instr i k →
    step s = exec i { s.setTask b .idle with schedule := rest, rx := s.rx.onBoard b d side }

/-- R13, R57: a scheduled main loop runs its next request, and the host's thread its call, where the operation is of its own
station; a call while the thread is in a tick does not run, nor does a next step with no tick (log entries 3 and 41). That this holds of the internal steps too, which R13 and R250 do not list, is the model's choice (log entry 38). -/
def Obligations.StepRunsTheRequestedOperation : Prop :=
  ∀ (s : State) (b : BoardId) (i : Instr) (more : List Instr) (rest : List Event),
    (s.schedule = .mainLoop b :: rest → s.Free b → (s.board b).todo = i :: more →
      (ownerOf i = .board b ∨ ownerOf i = .anyone) →
      step s = exec i { s.setBoard b { s.board b with todo := more } with schedule := rest }) ∧
    (s.schedule = .hostLoop i :: rest → s.host.task = .idle → (ownerOf i = .host ∨ ownerOf i = .anyone) →
      step s = exec i { s with schedule := rest }) ∧
    ((s.schedule = .hostLoop i :: rest ∧ s.host.task ≠ .idle) ∨ (s.schedule = .hostNext :: rest ∧ s.host.task = .idle) →
      step s = .next { s with schedule := rest })

/-- R216, R217: a board's receive buffer is a head of some message that waits for more bytes, with the byte just taken behind
it until `resolve_once` has run; every step keeps that, but the step in which the application itself runs `ingest` or
`resolve_once` on the buffer (log entry 38), and the buffer is bounded. For `LOG_MAX` of at least 7 the bound is R217's
`LOG_MAX + 3` (log entry 34). -/
def Obligations.BoardBufferStaysAHeadOfAMessage : Prop :=
  ∀ (s t : State) (b : BoardId) (d : Dir), s.HeadWaits b d →
    (s.schedule.head? = some (.mainLoop b) → (s.board b).task = .idle → ∀ i, (s.board b).todo.head? = some i →
      (∀ bytes, i ≠ .linkIngest (.board b d) bytes) ∧ ∀ map, i ≠ .linkResolveOnce (.board b d) map) →
    step s = .next t →
    t.HeadWaits b d ∧ ((t.board b).acc.get d).length ≤ waitingBound s.cfg.logMax + 1 ∧
    (7 ≤ s.cfg.logMax → ((t.board b).acc.get d).length ≤ s.cfg.logMax + 3)

/-- R213, R216: a message that arrives byte by byte into an empty buffer, each byte taken and then resolved, is run in the
step after its last byte was resolved and not before, and nothing but the receiver has changed until then. -/
def Obligations.MessagesArriveByteByByte : Prop :=
  ∀ (s : State) (b : BoardId) (d : Dir) (m : Directed) (more : List Byte) (rest : List Event),
    m.Wf s.cfg.logMax → m.val.map = mapOf d → s.Free b → s.hasDir b d = true → (s.board b).acc.get d = [] →
    (s.board b).rxq.get d = encDirected m ++ more →
    s.schedule = (List.replicate (encDirected m).length [Event.receive b d, Event.mainLoop b]).flatten ++
      .mainLoop b :: rest →
    ∃ t : State, core.run (2 * (encDirected m).length) s = .next t ∧
      step t = exec (.ofVal m.val)
        { s.withReceive b d more [] with schedule := rest, rx := s.rx.onBoard b d m.side }

/-- R214, R215, R216, R218, R219: the parts of a board's receive step, each one step. A free main loop takes a received byte
into the buffer; `resolve_once` leaves a buffer that waits for more bytes, and takes the whole of one with a verdict; a
decode error is logged with its bytes; and a read error discards the buffer, is logged, and leaves the link in service.
That the bytes not yet taken stay at a read error, and that the event carries the error, is log entry 39. -/
def Obligations.ReceiveStepsTakeResolveAndSettle : Prop :=
  ∀ (s : State) (b : BoardId) (d : Dir) (rest : List Event), (s.board b).inHandler = false →
    (∀ x xs, s.schedule = .receive b d :: rest → (s.board b).task = .idle → s.hasDir b d = true →
      (s.board b).rxq.get d = x :: xs →
      step s = .next
        { (s.withReceive b d xs ((s.board b).acc.get d ++ [x])).setTask b (.resolve d) with schedule := rest }) ∧
    (s.schedule = .mainLoop b :: rest → (s.board b).task = .resolve d → s.HeadWaits b d →
      (parseDirected s.cfg.logMax (mapOf d) ((s.board b).acc.get d) = .incomplete →
        step s = .next { s.setTask b .idle with schedule := rest }) ∧
      (parseDirected s.cfg.logMax (mapOf d) ((s.board b).acc.get d) ≠ .incomplete →
        step s = .next { (s.withReceive b d ((s.board b).rxq.get d) []).setTask b
          (.settle d ((s.board b).acc.get d)) with schedule := rest })) ∧
    (∀ bytes k c, s.schedule = .mainLoop b :: rest → (s.board b).task = .settle d bytes →
      parseDirected s.cfg.logMax (mapOf d) bytes = .err k c →
      ∃ rx, step s = .next { s.setBoard b { s.board b with
        task := .idle
        log := (s.board b).log ++ [.decodeError d k (match c with | some n => bytes.take n | none => bytes)] } with
        rx := rx, schedule := rest }) ∧
    (∀ e, s.schedule = .readFault b d e :: rest → (s.board b).task = .idle → s.hasDir b d = true →
      step s = .next { s.setBoard b { s.board b with
        acc := (s.board b).acc.set d []
        log := (s.board b).log ++ [.readError d (.deviceError e)] } with schedule := rest })

/-! ## Side router -/

/-- R231: each of the sixteen commands that carries the board's own side is handed to `LOCAL_CMD`, once, and no byte is
written; as a message received and as the router's operations. That `local_dispatch` by itself runs for any command is the
model's choice (log entry 43). -/
def Obligations.CommandsForThisBoardAreDispatched : Prop :=
  ∀ (s : State) (b : BoardId) (c : Command) (i : Instr), c.Wf → s.Free b →
    ((i = .ofCommand c ∧ s.rx.cmdAt = b ∧ s.rx.side = s.cfg.boardSide.get b) ∨
      i = .routerOnCommand b ⟨s.cfg.boardSide.get b, c⟩ ∨ i = .routerLocalDispatch b c) →
    exec i s = .next ((s.setBoard b { s.board b with localCmd := (s.board b).localCmd ++ [c] }).returns .unit)

/-- R232: a leaf that receives a command for the other side logs that it cannot forward it, and does nothing else. That
`cannot_forward` by itself does so on any board and for either side is the model's choice (log entry 43). -/
def Obligations.LeavesLogWhatTheyCannotForward : Prop :=
  ∀ (s : State) (b : BoardId) (dc : DirectedCommand) (i : Instr), dc.command.Wf → s.Free b →
    (i = .routerCannotForward b dc ∨
      (dc.side ≠ s.cfg.boardSide.get b ∧ s.cfg.hasDownstream.get b = false ∧
        (i = .routerOnCommand b dc ∨ (i = .ofCommand dc.command ∧ s.rx.cmdAt = b ∧ s.rx.side = dc.side)))) →
    exec i s = .next ((s.setBoard b
      { s.board b with log := (s.board b).log ++ [.cannotForward dc] }).returns .unit)

/-- R233: a command for the other side goes unchanged, side tag and body, into `TX_DOWN`, by one `write`. That
`forward_command` by itself does so for either side is the model's choice (log entry 43). -/
def Obligations.CommandsForTheOtherSideAreForwarded : Prop :=
  ∀ (s : State) (b : BoardId) (dc : DirectedCommand) (w : Device) (i : Instr), dc.command.Wf → s.Free b →
    s.cfg.hasDownstream.get b = true → (s.engine b .down).rb.Wf → (s.engine b .down).dev = some w →
    (i = .routerForwardCommand b dc ∨
      (dc.side ≠ s.cfg.boardSide.get b ∧
        (i = .routerOnCommand b dc ∨ (i = .ofCommand dc.command ∧ s.rx.cmdAt = b ∧ s.rx.side = dc.side)))) →
    ∃ t : State, exec i s = .next t ∧
      WritePassed b .down (sideTag dc.side :: encCommand dc.command) .router w s t

/-- R234, R235: a response from downstream: the local reaction is recorded and the `write` of the same bytes into `TX_UP`
begun, and the main loop's next step runs the first pass of that write. On a device error the pass appends the forwarding
error to the board's `LOG` (R233, log entry 25). -/
def Obligations.ResponsesClimbTheChain : Prop :=
  ∀ (s : State) (b : BoardId) (sr : SideResponse) (w : Device) (i : Instr), sr.response.Wf s.cfg.logMax → s.Free b →
    s.cfg.hasDownstream.get b = true → (s.engine b .up).rb.Wf → (s.engine b .up).dev = some w →
    (i = .routerOnResponse b sr ∨
      (i = .ofResponse sr.response ∧ s.rx.respAt = .board b ∧ s.rx.side = sr.side)) →
    ∃ t : State, exec i s = .next t ∧
      t = { s.setBoard b { s.board b with
        localEvent := (s.board b).localEvent ++ (if sr.response = .powerOff then [.powerOffSequence] else [])
        task := .write .up (sideTag sr.side :: encResponse sr.response) .running .router } with ret := none } ∧
      ∀ rest, s.schedule = .mainLoop b :: rest → ∃ u : State, step t = .next u ∧
        WritePassed b .up (sideTag sr.side :: encResponse sr.response) .router w { t with schedule := rest } u

/-- R235. That `PowerOff` alone has a reaction is the spec's own decision (D25); that `local_reaction` by itself runs on a
leaf too is the model's choice (log entry 43). -/
def Obligations.OnlyPowerOffHasALocalReaction : Prop :=
  ∀ (s : State) (b : BoardId) (r : Response), r.Wf s.cfg.logMax → s.Free b →
    exec (.routerLocalReaction b r) s =
      .next ((s.setBoard b { s.board b with
        localEvent := (s.board b).localEvent ++ (if r = .powerOff then [.powerOffSequence] else []) }).returns .unit)

/-- R236: a board's own response goes into `TX_UP` with the board's own side. -/
def Obligations.OwnResponsesCarryTheOwnSide : Prop :=
  ∀ (s : State) (b : BoardId) (r : Response) (w : Device), r.Wf s.cfg.logMax → s.Free b →
    (s.engine b .up).rb.Wf → (s.engine b .up).dev = some w →
    ∃ t : State, exec (.routerSendResponse b r) s = .next t ∧
      WritePassed b .up (sideTag (s.cfg.boardSide.get b) :: encResponse r) .application w s t

/-- R200, R256: each of the five responses, complete at the host, is yielded to the application with its side. -/
def Obligations.ResponsesAtTheHostAreYielded : Prop :=
  ∀ (s : State) (r : Response) (p : Side), r.Wf s.cfg.logMax → s.rx.respAt = .host p →
    exec (.ofResponse r) s =
      .next { s with host := { s.host with yielded := s.host.yielded ++ [⟨s.rx.side, r⟩] } }

/-- R211: a side tag says which side the body that follows pertains to. -/
def Obligations.SideTagsSetTheSide : Prop :=
  ∀ (s : State) (side : Side),
    decode s.cfg.logMax .side [sideTag side] = .instr (.ofSide side) 1 ∧
    exec (.ofSide side) s = .next { s with rx := { s.rx with side := side } }

/-! ## Host dispatcher -/

/-- R251. -/
def Obligations.EachSideUsesItsOwnPortOrTheOther : Prop :=
  ∀ (s : State) (side : Side),
    exec (.hostSelectPort side) s = .next { s with ret := some (.port
      (if s.cfg.port.get side = true then some side
        else if s.cfg.port.get side.opposite = true then some side.opposite else none)) }

/-- R252, R263: with no port the command is dropped, logged on the first drop only, and the caller gets `Ok`; else all its
bytes go onto the port's link, or a part of them and the port's error. That a failed `write_all` leaves the first `sent`
bytes on the link, as the port's answer says, is log entry 35. -/
def Obligations.TransmitWritesOrDrops : Prop :=
  ∀ (s : State) (side : Side) (c : Command), c.Wf →
    (selectPort s.cfg side = none →
      exec (.hostTransmit side c) s =
        .next { s with
          host := { s.host with
            noPortLogged := true
            log := if s.host.noPortLogged then s.host.log else s.host.log ++ [.noPort] }
          ret := some (.result .ok) }) ∧
    (∀ p, selectPort s.cfg side = some p →
      ((∀ f, (s.link p).port.writeAnswers.head? ≠ some (some f)) →
        exec (.hostTransmit side c) s =
          .next ((s.setLink p { s.link p with
            port := { (s.link p).port with
              line := (s.link p).port.line ++ (sideTag side :: encCommand c)
              writeAnswers := (s.link p).port.writeAnswers.tail } }).returns (.result .ok))) ∧
      (∀ f, (s.link p).port.writeAnswers.head? = some (some f) →
        exec (.hostTransmit side c) s =
          .next ((s.setLink p { s.link p with
            port := { (s.link p).port with
              line := (s.link p).port.line ++ (sideTag side :: encCommand c).take f.sent
              writeAnswers := (s.link p).port.writeAnswers.tail } }).returns
                (.result (.err (.deviceError f.error))))))

/-- R253, R254: `send_command` is `transmit`, stamped if every command is; `transmit_target` is `transmit` of the target,
always stamped, with the pending slot cleared. That `transmit_target` by itself sends also where the interval has not elapsed
is the model's choice (log entry 43). -/
def Obligations.SendsAreStampedAsTheirRuleSays : Prop :=
  ∀ (s : State) (side : Side) (c : Command) (x : Word64) (now : Time), c.Wf → s.host.clock ≤ now →
    (∃ t : State, exec (.hostTransmit side c) { s with host := { s.host with clock := now } } = .next t ∧
      exec (.hostSendCommand side c now) s =
        .next (if s.cfg.stampAllCommands then t.setLink side { t.link side with lastSend := some now } else t)) ∧
    (∃ t : State,
      exec (.hostTransmit side (.setTarget x)) { s with host := { s.host with clock := now } } = .next t ∧
      exec (.hostTransmitTarget side x now) s =
        .next (t.setLink side { t.link side with lastSend := some now, pending := none }))

/-- R255: a target is sent at once where the side has sent nothing or its interval has elapsed, else it is held, in place
of an older one. -/
def Obligations.TargetsAreSentOrHeld : Prop :=
  ∀ (s : State) (side : Side) (x : Word64) (now : Time), s.host.clock ≤ now →
    (((s.link side).lastSend = none ∨
        ∃ a, (s.link side).lastSend = some a ∧ s.cfg.minSendInterval ≤ now - a) →
      ∃ t : State, exec (.hostSetTarget side x now) s = .next t ∧
        exec (.hostTransmitTarget side x now) s = .next t) ∧
    (∀ a, (s.link side).lastSend = some a → now - a < s.cfg.minSendInterval →
      exec (.hostSetTarget side x now) s =
        .next ((({ s with host := { s.host with clock := now } } : State).setLink side
          { s.link side with pending := some x }).returns (.result .ok)))

/-- R257, and R258 for its rows of `tick`. A tick is four steps of the host's thread, the first of them in the step that asks
for it: the sends that are due, Left before Right, a port's error going to `LOG`; then one `receive` on each configured port,
Left before Right (D31). Where nothing steps between them, a pending target whose interval has elapsed is sent, on the port
its side uses, and stamped, and every other side keeps its state. The last two clauses say each stage by itself, whatever the
other agents have done since the stage before it, and that a second tick is refused meanwhile. The stages are log entry 41,
and the premise on each side is the invariant's, which rules out the case of log entry 26. -/
def Obligations.TicksSendWhatIsDue : Prop :=
  (∀ (s : State) (now : Time), (∀ p, (s.link p).Wf s.host.clock) → s.host.clock ≤ now → s.host.task = .idle →
    ∃ a t : State, exec (.hostTick now) s = .next (a.inTask (.tick (.send .right) now)) ∧
      SentIfDue .left now { s with host := { s.host with clock := now } } a ∧
      core.run 3 { a.inTask (.tick (.send .right) now) with schedule := List.replicate 3 .hostNext } = .next t ∧
      t.host.task = .idle ∧ t.ret = some .unit ∧ t.boards = s.boards ∧
      (∀ p, ((∃ x a, (s.link p).pending = some x ∧ (s.link p).lastSend = some a ∧
            s.cfg.minSendInterval ≤ now - a) →
          (t.link p).pending = none ∧ (t.link p).lastSend = some now) ∧
        (¬(∃ x a, (s.link p).pending = some x ∧ (s.link p).lastSend = some a ∧
            s.cfg.minSendInterval ≤ now - a) →
          (t.link p).pending = (s.link p).pending ∧ (t.link p).lastSend = (s.link p).lastSend)) ∧
      ((∀ q, (s.link q).port.writeAnswers = []) → ∀ q,
        (t.link q).port.line = (s.link q).port.line ++
          (([Side.left, Side.right].filter (fun p => selectPort s.cfg p = some q)).map (dueBytes s now)).flatten)) ∧
  (∀ (s : State) (now : Time) (st : TickStage) (after : HostTask) (rest : List Event), (st, after) ∈ tickStages now →
    s.host.task = .tick st now → s.host.clock = now → s.schedule = .hostNext :: rest →
    ∃ t : State, StageDone st now { s with schedule := rest } t ∧ step s = .next (t.inTask after)) ∧
  (∀ (s : State) (now : Time), s.host.task ≠ .idle → exec (.hostTick now) s = .refused .hostBusy)

/-- R256, R263, R219, R280: what `receive` does on a configured port, by what the port's two calls give. The model's own in
it: that a side with no port faults is log entry 17 (DEDUCED), that the received bytes stay when a call fails is log entry
24 (DESIGN CHOICE), and that the event carries the error is log entry 39. -/
def Obligations.ReceiveResolvesOneMessage : Prop :=
  ∀ (s : State) (p : Side),
    (s.cfg.port.get p = false → exec (.hostReceive p) s = .fault .noPort) ∧
    (s.cfg.port.get p = true →
      ∃ t : State, exec (.hostReceive p) s = .next t ∧ t.ret = some .unit ∧ t.boards = s.boards ∧
        (t.link p).lastSend = (s.link p).lastSend ∧ (t.link p).pending = (s.link p).pending ∧
        t.link p.opposite = s.link p.opposite ∧
        t.host = { s.host with link := t.host.link, yielded := t.host.yielded, log := t.host.log } ∧
        (∀ e, ((s.link p).port.availAnswers.head? = some (some e) ∨
            ((∀ e', (s.link p).port.availAnswers.head? ≠ some (some e')) ∧
              (s.link p).port.readAnswers.head? = some (some e))) →
          (t.link p).acc = [] ∧ (t.link p).port.rx = (s.link p).port.rx ∧
          t.host.log = s.host.log ++ [.readError p (.deviceError e)] ∧ t.host.yielded = s.host.yielded) ∧
        ((∀ e, (s.link p).port.availAnswers.head? ≠ some (some e)) →
          (∀ e, (s.link p).port.readAnswers.head? ≠ some (some e)) →
          ∃ k, k = min (s.link p).port.rx.length s.cfg.readMax ∧
            (t.link p).port.rx = (s.link p).port.rx.drop k ∧
            (∀ acc, acc = (s.link p).acc ++ (s.link p).port.rx.take k →
              (parseDirected s.cfg.logMax .response acc = .incomplete →
                (t.link p).acc = acc ∧ t.host.log = s.host.log ∧ t.host.yielded = s.host.yielded) ∧
              (∀ m n, parseDirected s.cfg.logMax .response acc = .ok (.response m) n →
                (t.link p).acc = acc.drop n ∧ t.host.log = s.host.log ∧
                t.host.yielded = s.host.yielded ++ [m]) ∧
              (∀ e c, parseDirected s.cfg.logMax .response acc = .err e (some c) →
                (t.link p).acc = acc.drop c ∧ t.host.log = s.host.log ++ [.decodeError e (acc.take c) p] ∧
                t.host.yielded = s.host.yielded) ∧
              (∀ e, parseDirected s.cfg.logMax .response acc = .err e none →
                (t.link p).acc = [] ∧ t.host.log = s.host.log ++ [.decodeError e acc p] ∧
                t.host.yielded = s.host.yielded))))

/-- R259: two sends of targets of one side, by `set_target` or by a stage of a `tick`, are never less than the interval
apart. -/
def Obligations.TargetSendsAreSpaced : Prop :=
  ∀ (s t : State) (side p : Side) (x : Word64) (now a b : Time) (i : Instr) (rest : List Event), s.cfg.Wf →
    (i ∈ [.hostSetTarget side x now, .hostTick now] ∧ exec i s = .next t) ∨
      (s.schedule = .hostNext :: rest ∧ step s = .next t) →
    (s.link p).lastSend = some a → (t.link p).lastSend = some b → b = a ∨ a + s.cfg.minSendInterval ≤ b

/-- R259: of two targets given within the interval after a send, a tick at or after the interval's end sends the second
and not the first. -/
def Obligations.OnlyTheLatestHeldTargetIsSent : Prop :=
  ∀ (s : State) (side : Side) (x y : Word64) (a m n k : Time), s.host.clock ≤ m → m ≤ n → n ≤ k →
    s.host.task = .idle → (s.link side).lastSend = some a → m - a < s.cfg.minSendInterval →
    n - a < s.cfg.minSendInterval → s.cfg.minSendInterval ≤ k - a → (s.link side.opposite).pending = none →
    (∀ q, (s.link q).port.writeAnswers = []) →
    ∃ t1 t2 t3 t4 : State, exec (.hostSetTarget side x m) s = .next t1 ∧ exec (.hostSetTarget side y n) t1 = .next t2 ∧
      exec (.hostTick k) t2 = .next t3 ∧ core.run 3 { t3 with schedule := List.replicate 3 .hostNext } = .next t4 ∧
      t4.host.task = .idle ∧ (t4.link side).pending = none ∧ (t4.link side).lastSend = some k ∧
      ∀ q, (t4.link q).port.line = (s.link q).port.line ++
        (if selectPort s.cfg side = some q then encDirectedCommand ⟨side, .setTarget y⟩ else [])

/-- R260: an operation on one side leaves the other side's timestamp, pending target and buffer alone, also when both use
one port. -/
def Obligations.SidesOfTheHostAreIndependent : Prop :=
  ∀ (s t : State) (side : Side) (c : Command) (x : Word64) (now : Time) (i : Instr),
    i ∈ [.hostSetTarget side x now, .hostTransmitTarget side x now, .hostSendCommand side c now,
      .hostTransmit side c, .hostReceive side] →
    exec i s = .next t →
    (t.link side.opposite).lastSend = (s.link side.opposite).lastSend ∧
    (t.link side.opposite).pending = (s.link side.opposite).pending ∧
    (t.link side.opposite).acc = (s.link side.opposite).acc

/-! ## The whole block -/

/-- R40, R320: the state after creation, for any parameters within the bounds of R7; it meets the invariant of the
block. -/
def Obligations.CreationLeavesTheResetTable : Prop :=
  ∀ c : Config, c.Wf →
    (∀ b d, ((State.initial c).engine b d).rb.length = 0 ∧ ((State.initial c).engine b d).rb.start = 0 ∧
      ((State.initial c).engine b d).dev = none ∧ ((State.initial c).engine b d).irqEn = false ∧
      ((State.initial c).board b).acc.get d = []) ∧
    (∀ b, ((State.initial c).ring b).length = 0 ∧ ((State.initial c).ring b).start = 0 ∧
      ((State.initial c).board b).task = .idle) ∧
    (∀ p, ((State.initial c).link p).acc = [] ∧ ((State.initial c).link p).lastSend = none ∧
      ((State.initial c).link p).pending = none) ∧
    (State.initial c).host.noPortLogged = false ∧ (State.initial c).host.task = .idle ∧ (State.initial c).Inv

/-- R301, R62, R322: the steps of the environment that carry a byte. A device that completes becomes ready; one that emits
puts the oldest byte it has accepted behind those on the link; and a link hands its oldest byte to the receiver it is wired
to, behind the bytes received there, or loses it where there is none. Nothing else of the block changes. The wiring of the
two directions of one serial link (R2) fits together. The wiring and the link's step are log entry 23, and that a step of a
device that is absent or has nothing to emit does nothing is log entry 3. -/
def Obligations.DevicesEmitAndLinksDeliver : Prop :=
  (∀ (s : State) (b : BoardId) (d : Dir) (rest : List Event),
    (s.schedule = .devEmit b d :: rest →
      (∀ w x xs, (s.engine b d).dev = some w → w.out = x :: xs →
        step s = .next { s.setBoard b { s.board b with
          tx := (s.board b).tx.set d { s.engine b d with dev := some ⟨w.ready, xs, w.answers⟩ }
          line := (s.board b).line.set d ((s.board b).line.get d ++ [x]) } with schedule := rest }) ∧
      ((∀ w, (s.engine b d).dev = some w → w.out = []) → step s = .next { s with schedule := rest })) ∧
    (s.schedule = .devComplete b d :: rest →
      (∀ w, (s.engine b d).dev = some w →
        step s = .next { s.setEngine b d { s.engine b d with dev := some ⟨true, w.out, w.answers⟩ } with
          schedule := rest }) ∧
      ((s.engine b d).dev = none → step s = .next { s with schedule := rest }))) ∧
  (∀ (s : State) (l : LinkId) (rest : List Event), s.schedule = .wireDeliver l :: rest →
    (lineOf l s = [] → step s = .next { s with schedule := rest }) ∧
    (∀ x xs, lineOf l s = x :: xs →
      ∃ t : State, step s = .next t ∧
        lineOf l t = xs ∧ (∀ k, k ≠ l → lineOf k t = lineOf k s) ∧
        (∀ r, receivedAt r t = receivedAt r s ++ (if receiverOf s.cfg l = some r then [x] else [])) ∧
        t.cfg = s.cfg ∧ t.rx = s.rx ∧ t.ret = s.ret ∧ t.schedule = rest ∧
        (∀ b, t.board b = { s.board b with rxq := (t.board b).rxq, line := (t.board b).line }) ∧
        t.host = { s.host with link := t.host.link } ∧
        (∀ p, t.link p = { s.link p with port :=
          { (s.link p).port with rx := (t.link p).port.rx, line := (t.link p).port.line } }))) ∧
  (∀ (c : Config) (b : BoardId) (p : Side), c.upstream.get b = .hostPort p → c.upstream.get b.other ≠ .hostPort p →
    receiverOf c (.fromPort p) = some (.path b .up) ∧ receiverOf c (.fromEngine b .up) = some (.port p)) ∧
  (∀ (c : Config) (b : BoardId), c.upstream.get b = .otherBoard → c.hasDownstream.get b.other = true →
    receiverOf c (.fromEngine b .up) = some (.path b.other .down) ∧
    receiverOf c (.fromEngine b.other .down) = some (.path b .up))

/-- R21, R25, R128, R141, R142, R250, R257: the invariant of the block is kept by every step of every agent. -/
def Obligations.EveryStepKeepsTheInvariant : Prop := ∀ s t : State, s.Inv → step s = .next t → t.Inv

/-- R61, R304: stations share no state: an instruction of one board changes neither the other board nor the host, one of the
host no board, and a pure function no station. None changes the parameters or the schedule (R32). -/
def Obligations.StationsShareNoState : Prop :=
  ∀ (i : Instr) (s t : State), exec i s = .next t →
    t.cfg = s.cfg ∧ t.schedule = s.schedule ∧
    (∀ b, ownerOf i = .board b → t.boards.get b.other = s.boards.get b.other ∧ t.host = s.host) ∧
    (ownerOf i = .host → t.boards = s.boards) ∧
    (ownerOf i = .anyone → t.boards = s.boards ∧ t.host = s.host)

/-- R59: the pure operations write nothing but their result. -/
def Obligations.PureOperationsOnlyReturn : Prop :=
  ∀ (i : Instr) (s t : State) (bs : List Byte) (map : MsgMap) (v : Val) (d : Directed) (side : Side)
    (a : BoardId),
    i ∈ [.rbPeek (.alone a), .rbIsEmpty (.alone a), .rbIsFull (.alone a), .codecParseBody map bs, .codecDecodeBody map bs,
      .codecEncode v, .codecParseLog bs, .codecEncDirected d, .codecParseDirected map bs, .codecDecodeDirected map bs,
      .hostSelectPort side] →
    exec i s = .next t → t = { s with ret := t.ret } ∧ ∀ u, exec i t = .next u → u.ret = t.ret

/-- R20, R234: the elements of a downstream link do not exist on a leaf, and neither does `on_response`. That an operation on
one faults is the model's reading, log entry 17 (DEDUCED). -/
def Obligations.LeavesHaveNoDownstreamElements : Prop :=
  ∀ (s : State) (b : BoardId) (w : Device) (bytes : List Byte) (map : MsgMap) (dc : DirectedCommand)
    (sr : SideResponse) (i : Instr), s.cfg.hasDownstream.get b = false →
    (i ∈ [.txSetDevice b .down w, .txKick b .down, .txWrite b .down bytes, .txTryWrite b .down, .txFlush b .down,
        .linkIngest (.board b .down) bytes, .linkResolveOnce (.board b .down) map] ∨
      (dc.command.Wf ∧ i = .routerForwardCommand b dc) ∨
      (sr.response.Wf s.cfg.logMax ∧
        (i = .routerOnResponse b sr ∨ (i = .ofResponse sr.response ∧ s.rx.respAt = .board b)))) →
    exec i s = .fault .noDownstream
end

