-- ==== Sys2Proof/Laws/State.lean ====
section
/-! SUPPORT. The small lemmas of the state's records: reading an element after replacing one. -/

namespace Sys2Proof

@[simp] theorem PerSide.get_set_same {α : Type} (p : PerSide α) (i : Side) (v : α) : (p.set i v).get i = v := by
  cases i <;> rfl

@[simp] theorem PerSide.get_set_opposite {α : Type} (p : PerSide α) (i : Side) (v : α) :
    (p.set i v).get i.opposite = p.get i.opposite := by
  cases i <;> rfl

theorem PerSide.get_set {α : Type} (p : PerSide α) (i j : Side) (v : α) :
    (p.set i v).get j = if j = i then v else p.get j := by
  cases i <;> cases j <;> rfl

@[simp] theorem PerSide.set_get {α : Type} (p : PerSide α) (i : Side) : p.set i (p.get i) = p := by
  cases i <;> rfl

@[simp] theorem PerSide.set_set {α : Type} (p : PerSide α) (i : Side) (v w : α) : (p.set i v).set i w = p.set i w := by
  cases i <;> rfl

@[simp] theorem PerBoard.get_set_same {α : Type} (p : PerBoard α) (i : BoardId) (v : α) : (p.set i v).get i = v := by
  cases i <;> rfl

@[simp] theorem PerBoard.get_set_other {α : Type} (p : PerBoard α) (i : BoardId) (v : α) :
    (p.set i v).get i.other = p.get i.other := by
  cases i <;> rfl

theorem PerBoard.get_set {α : Type} (p : PerBoard α) (i j : BoardId) (v : α) :
    (p.set i v).get j = if j = i then v else p.get j := by
  cases i <;> cases j <;> rfl

@[simp] theorem PerBoard.set_get {α : Type} (p : PerBoard α) (i : BoardId) : p.set i (p.get i) = p := by
  cases i <;> rfl

@[simp] theorem PerBoard.set_set {α : Type} (p : PerBoard α) (i : BoardId) (v w : α) :
    (p.set i v).set i w = p.set i w := by
  cases i <;> rfl

@[simp] theorem PerDir.get_set_same {α : Type} (p : PerDir α) (i : Dir) (v : α) : (p.set i v).get i = v := by
  cases i <;> rfl

theorem PerDir.get_set {α : Type} (p : PerDir α) (i j : Dir) (v : α) :
    (p.set i v).get j = if j = i then v else p.get j := by
  cases i <;> cases j <;> rfl

@[simp] theorem PerDir.set_get {α : Type} (p : PerDir α) (i : Dir) : p.set i (p.get i) = p := by
  cases i <;> rfl

@[simp] theorem PerDir.set_set {α : Type} (p : PerDir α) (i : Dir) (v w : α) : (p.set i v).set i w = p.set i w := by
  cases i <;> rfl

@[simp] theorem BoardId.other_ne (b : BoardId) : b.other ≠ b := by cases b <;> decide

@[simp] theorem BoardId.ne_other (b : BoardId) : b ≠ b.other := by cases b <;> decide

@[simp] theorem BoardId.other_other (b : BoardId) : b.other.other = b := by cases b <;> rfl

@[simp] theorem Side.opposite_ne (s : Side) : s.opposite ≠ s := by cases s <;> decide

@[simp] theorem Side.ne_opposite (s : Side) : s ≠ s.opposite := by cases s <;> decide

@[simp] theorem Side.opposite_opposite (s : Side) : s.opposite.opposite = s := by cases s <;> rfl

namespace Machine

/-! One lemma for each field after each update. -/

@[simp] theorem State.setBoard_cfg (s : State) (b : BoardId) (x : Board) : (s.setBoard b x).cfg = s.cfg := rfl
@[simp] theorem State.setBoard_host (s : State) (b : BoardId) (x : Board) : (s.setBoard b x).host = s.host := rfl
@[simp] theorem State.setBoard_rx (s : State) (b : BoardId) (x : Board) : (s.setBoard b x).rx = s.rx := rfl
@[simp] theorem State.setBoard_ret (s : State) (b : BoardId) (x : Board) : (s.setBoard b x).ret = s.ret := rfl
@[simp] theorem State.setBoard_schedule (s : State) (b : BoardId) (x : Board) :
    (s.setBoard b x).schedule = s.schedule := rfl
@[simp] theorem State.setBoard_link (s : State) (b : BoardId) (x : Board) (p : Side) :
    (s.setBoard b x).link p = s.link p := rfl
@[simp] theorem State.setBoard_hasDir (s : State) (b c : BoardId) (x : Board) (d : Dir) :
    (s.setBoard b x).hasDir c d = s.hasDir c d := by cases d <;> rfl

@[simp] theorem State.setLink_cfg (s : State) (p : Side) (l : HostLink) : (s.setLink p l).cfg = s.cfg := rfl
@[simp] theorem State.setLink_ring (s : State) (p : Side) (l : HostLink) (b : BoardId) :
    (s.setLink p l).ring b = s.ring b := rfl
@[simp] theorem State.setLink_boards (s : State) (p : Side) (l : HostLink) : (s.setLink p l).boards = s.boards := rfl
@[simp] theorem State.setLink_rx (s : State) (p : Side) (l : HostLink) : (s.setLink p l).rx = s.rx := rfl
@[simp] theorem State.setLink_ret (s : State) (p : Side) (l : HostLink) : (s.setLink p l).ret = s.ret := rfl
@[simp] theorem State.setLink_schedule (s : State) (p : Side) (l : HostLink) :
    (s.setLink p l).schedule = s.schedule := rfl
@[simp] theorem State.setLink_clock (s : State) (p : Side) (l : HostLink) :
    (s.setLink p l).host.clock = s.host.clock := rfl
@[simp] theorem State.setLink_yielded (s : State) (p : Side) (l : HostLink) :
    (s.setLink p l).host.yielded = s.host.yielded := rfl
@[simp] theorem State.setLink_log (s : State) (p : Side) (l : HostLink) : (s.setLink p l).host.log = s.host.log := rfl
@[simp] theorem State.setLink_noPortLogged (s : State) (p : Side) (l : HostLink) :
    (s.setLink p l).host.noPortLogged = s.host.noPortLogged := rfl
@[simp] theorem State.setLink_task (s : State) (p : Side) (l : HostLink) :
    (s.setLink p l).host.task = s.host.task := rfl
@[simp] theorem State.setLink_board (s : State) (p : Side) (l : HostLink) (b : BoardId) :
    (s.setLink p l).board b = s.board b := rfl
@[simp] theorem State.setLink_engine (s : State) (p : Side) (l : HostLink) (b : BoardId) (d : Dir) :
    (s.setLink p l).engine b d = s.engine b d := rfl
@[simp] theorem State.setLink_hasDir (s : State) (p : Side) (l : HostLink) (b : BoardId) (d : Dir) :
    (s.setLink p l).hasDir b d = s.hasDir b d := by cases d <;> rfl

@[simp] theorem State.returns_cfg (s : State) (r : Ret) : (s.returns r).cfg = s.cfg := rfl
@[simp] theorem State.returns_ring (s : State) (r : Ret) (b : BoardId) : (s.returns r).ring b = s.ring b := rfl
@[simp] theorem State.returns_boards (s : State) (r : Ret) : (s.returns r).boards = s.boards := rfl
@[simp] theorem State.returns_host (s : State) (r : Ret) : (s.returns r).host = s.host := rfl
@[simp] theorem State.returns_rx (s : State) (r : Ret) : (s.returns r).rx = s.rx := rfl
@[simp] theorem State.returns_ret (s : State) (r : Ret) : (s.returns r).ret = some r := rfl
@[simp] theorem State.returns_schedule (s : State) (r : Ret) : (s.returns r).schedule = s.schedule := rfl
@[simp] theorem State.returns_board (s : State) (r : Ret) (b : BoardId) : (s.returns r).board b = s.board b := rfl
@[simp] theorem State.returns_link (s : State) (r : Ret) (p : Side) : (s.returns r).link p = s.link p := rfl
@[simp] theorem State.returns_engine (s : State) (r : Ret) (b : BoardId) (d : Dir) :
    (s.returns r).engine b d = s.engine b d := rfl
@[simp] theorem State.returns_hasDir (s : State) (r : Ret) (b : BoardId) (d : Dir) :
    (s.returns r).hasDir b d = s.hasDir b d := by cases d <;> rfl

/-! Reading a board, an engine or a side of the dispatcher after replacing one. -/

@[simp] theorem State.board_setBoard_same (s : State) (b : BoardId) (x : Board) : (s.setBoard b x).board b = x :=
  PerBoard.get_set_same _ _ _

@[simp] theorem State.board_setBoard_other (s : State) (b : BoardId) (x : Board) :
    (s.setBoard b x).board b.other = s.board b.other :=
  PerBoard.get_set_other _ _ _

theorem State.board_setBoard (s : State) (b c : BoardId) (x : Board) :
    (s.setBoard b x).board c = if c = b then x else s.board c :=
  PerBoard.get_set _ _ _ _

@[simp] theorem State.setBoard_setBoard (s : State) (b : BoardId) (x y : Board) :
    (s.setBoard b x).setBoard b y = s.setBoard b y := by
  simp [State.setBoard]

@[simp] theorem State.setBoard_board (s : State) (b : BoardId) : s.setBoard b (s.board b) = s := by
  simp [State.setBoard, State.board]

@[simp] theorem State.ring_setRing_same (s : State) (b : BoardId) (q : Ring Byte) : (s.setRing b q).ring b = q := by
  simp [State.ring, State.setRing]

@[simp] theorem State.setRing_ring (s : State) (b : BoardId) : s.setRing b (s.ring b) = s := State.setBoard_board s b

@[simp] theorem State.setRing_engine (s : State) (b c : BoardId) (d : Dir) (q : Ring Byte) :
    (s.setRing b q).engine c d = s.engine c d := by
  simp only [State.setRing, State.engine, State.board_setBoard]; split <;> simp_all

@[simp] theorem State.engine_setEngine_same (s : State) (b : BoardId) (d : Dir) (t : Txe) :
    (s.setEngine b d t).engine b d = t := by
  simp [State.engine, State.setEngine]

theorem State.engine_setEngine (s : State) (b c : BoardId) (d e : Dir) (t : Txe) :
    (s.setEngine b d t).engine c e = if c = b ∧ e = d then t else s.engine c e := by
  simp only [State.engine, State.setEngine, State.board_setBoard]
  by_cases h : c = b <;> simp [h, PerDir.get_set]

@[simp] theorem State.setEngine_engine (s : State) (b : BoardId) (d : Dir) : s.setEngine b d (s.engine b d) = s := by
  have h : s.setBoard b { s.board b with tx := (s.board b).tx } = s := State.setBoard_board s b
  simpa [State.setEngine, State.engine] using h

@[simp] theorem State.setEngine_hasDir (s : State) (b c : BoardId) (d e : Dir) (t : Txe) :
    (s.setEngine b d t).hasDir c e = s.hasDir c e := by cases e <;> rfl

@[simp] theorem State.setEngine_task (s : State) (b c : BoardId) (d : Dir) (t : Txe) :
    ((s.setEngine b d t).board c).task = (s.board c).task := by
  simp only [State.setEngine, State.board_setBoard]; split <;> simp_all

@[simp] theorem State.setEngine_inHandler (s : State) (b c : BoardId) (d : Dir) (t : Txe) :
    ((s.setEngine b d t).board c).inHandler = (s.board c).inHandler := by
  simp only [State.setEngine, State.board_setBoard]; split <;> simp_all

@[simp] theorem State.setEngine_log (s : State) (b c : BoardId) (d : Dir) (t : Txe) :
    ((s.setEngine b d t).board c).log = (s.board c).log := by
  simp only [State.setEngine, State.board_setBoard]; split <;> simp_all

@[simp] theorem State.setTask_engine (s : State) (b c : BoardId) (d : Dir) (t : Task) :
    (s.setTask b t).engine c d = s.engine c d := by
  simp only [State.setTask, State.engine, State.board_setBoard]; split <;> simp_all

@[simp] theorem State.setTask_hasDir (s : State) (b c : BoardId) (d : Dir) (t : Task) :
    (s.setTask b t).hasDir c d = s.hasDir c d := by cases d <;> rfl

@[simp] theorem State.setTask_task (s : State) (b : BoardId) (t : Task) : ((s.setTask b t).board b).task = t := by
  simp [State.setTask]

theorem State.setTask_idle {s : State} {b : BoardId} (h : (s.board b).task = .idle) : s.setTask b .idle = s := by
  have hs : { s.board b with task := Task.idle } = s.board b := by rw [← h]
  rw [State.setTask, hs, State.setBoard_board]

@[simp] theorem State.link_setLink_same (s : State) (p : Side) (l : HostLink) : (s.setLink p l).link p = l :=
  PerSide.get_set_same _ _ _

@[simp] theorem State.link_setLink_opposite (s : State) (p : Side) (l : HostLink) :
    (s.setLink p l).link p.opposite = s.link p.opposite :=
  PerSide.get_set_opposite _ _ _

theorem State.link_setLink (s : State) (p q : Side) (l : HostLink) :
    (s.setLink p l).link q = if q = p then l else s.link q :=
  PerSide.get_set _ _ _ _

@[simp] theorem State.setLink_link (s : State) (p : Side) : s.setLink p (s.link p) = s := by
  simp [State.setLink, State.link]

/-! The guards: when an operation goes on, and that it then is its body. -/

@[simp] theorem andThen_next (s : State) (f : State → Result) : andThen (.next s) f = f s := rfl

theorem andThen_eq_next {o : Result} {f : State → Result} {t : State} :
    andThen o f = .next t ↔ ∃ s, o = .next s ∧ f s = .next t := by
  cases o <;> simp [andThen]

theorem withDir_eq_next {b : BoardId} {d : Dir} {k : State → Result} {s t : State} :
    withDir b d k s = .next t ↔ s.hasDir b d = true ∧ k s = .next t := by
  unfold withDir; split <;> simp_all

theorem onMainLoop_eq_next {b : BoardId} {k : State → Result} {s t : State} :
    onMainLoop b k s = .next t ↔ s.Free b ∧ k s = .next t := by
  unfold onMainLoop State.Free
  cases h : (s.board b).inHandler <;> cases h' : (s.board b).task <;> simp

theorem withDevice_eq_next {b : BoardId} {d : Dir} {k : State → Result} {s t : State} :
    withDevice b d k s = .next t ↔ (s.engine b d).dev ≠ none ∧ k s = .next t := by
  unfold withDevice; split <;> simp_all

theorem withWf_eq_next {c : Option IllFormed} {k : State → Result} {s t : State} :
    withWf c k s = .next t ↔ c = none ∧ k s = .next t := by
  unfold withWf; cases c <;> simp

theorem withClock_eq_next {now : Time} {k : State → Result} {s t : State} :
    withClock now k s = .next t ↔
      s.host.clock ≤ now ∧ k { s with host := { s.host with clock := now } } = .next t := by
  unfold withClock
  split
  · rename_i h
    simp [Nat.not_le.mpr h]
  · rename_i h
    simp [Nat.not_lt.mp h]

theorem withHostFree_eq_next {k : State → Result} {s t : State} :
    withHostFree k s = .next t ↔ s.host.task = .idle ∧ k s = .next t := by
  unfold withHostFree; split <;> simp_all

theorem withHostFree_of {s : State} (h : s.host.task = .idle) (k : State → Result) : withHostFree k s = k s := by
  simp [withHostFree, h]

theorem withDir_of {b : BoardId} {d : Dir} {s : State} (h : s.hasDir b d = true) (k : State → Result) :
    withDir b d k s = k s := by simp [withDir, h]

theorem onMainLoop_of {b : BoardId} {s : State} (h : s.Free b) (k : State → Result) : onMainLoop b k s = k s := by
  simp [onMainLoop, h.1, h.2]

theorem withDevice_of {b : BoardId} {d : Dir} {s : State} {w : Device} (h : (s.engine b d).dev = some w)
    (k : State → Result) : withDevice b d k s = k s := by simp [withDevice, h]

end Machine

end Sys2Proof
end

