-- ==== Sys2Proof/Laws/Codec.lean ====
section
/-! SUPPORT. The codec's lemmas: byte order, the field scan against the field encoding, the tag maps against the
encoder's tags, and what any parse outcome says of the bytes (R82, R171, R174, R204). -/

namespace Sys2Proof

/-! ## Byte order -/

@[simp] theorem leBytes_length (n v : Nat) : (leBytes n v).length = n := by
  induction n generalizing v with
  | zero => rfl
  | succ n ih => simp [leBytes, ih]

/-- R9: reading back what `le_N` wrote. -/
theorem fromLe_leBytes (n v : Nat) : fromLe (leBytes n v) = v % 256 ^ n := by
  induction n generalizing v with
  | zero => simp [leBytes, fromLe, Nat.mod_one]
  | succ n ih =>
    simp only [leBytes, fromLe, ih, BitVec.toNat_ofNat]
    rw [show 256 ^ (n + 1) = 256 * 256 ^ n from Nat.pow_succ', Nat.mod_mul]

theorem fromLe_leBytes_of_lt {n v : Nat} (h : v < 256 ^ n) : fromLe (leBytes n v) = v := by
  rw [fromLe_leBytes, Nat.mod_eq_of_lt h]

theorem fromLe_lt (bs : List Byte) : fromLe bs < 256 ^ bs.length := by
  induction bs with
  | nil => simp [fromLe]
  | cons b bs ih =>
    have := b.isLt
    simp only [fromLe, List.length_cons, Nat.pow_succ]
    omega

/-- R95: writing back what was read. -/
theorem leBytes_fromLe (bs : List Byte) : leBytes bs.length (fromLe bs) = bs := by
  induction bs with
  | nil => rfl
  | cons b bs ih =>
    have hb := b.isLt
    have h1 : (b.toNat + 256 * fromLe bs) / 256 = fromLe bs := by omega
    simp only [List.length_cons, leBytes, fromLe, h1, ih, List.cons.injEq, and_true]
    apply BitVec.eq_of_toNat_eq
    simp
    omega

/-! ## The field scan -/

/-- R82: raw values that their codings admit. -/
def FieldsOk : List Coding → List Nat → Prop
  | [], [] => True
  | c :: cs, v :: vs => v < 256 ^ c.width ∧ (c = .bool → v = 0x30 ∨ v = 0x31) ∧ FieldsOk cs vs
  | [], _ :: _ => False
  | _ :: _, [] => False

theorem width_pos (c : Coding) : 0 < c.width := by cases c <;> decide

theorem isBoolByte_iff (b : Byte) : isBoolByte b = true ↔ b.toNat = 0x30 ∨ b.toNat = 0x31 := by
  simp only [isBoolByte, Bool.or_eq_true, beq_iff_eq]
  constructor
  · rintro (h | h) <;> simp [h]
  · rintro (h | h)
    · exact .inl (BitVec.eq_of_toNat_eq h)
    · exact .inr (BitVec.eq_of_toNat_eq h)

/-- R171: scanning encoded fields gives them back, whatever follows. -/
theorem scanFields_encFields {cs : List Coding} {vs : List Nat} (h : FieldsOk cs vs) (tail : List Byte) :
    scanFields cs (encFields cs vs ++ tail) = .ok vs (encFields cs vs).length := by
  induction cs generalizing vs with
  | nil => cases vs <;> simp_all [FieldsOk, scanFields, encFields]
  | cons c cs ih =>
    cases vs with
    | nil => simp [FieldsOk] at h
    | cons v vs =>
      obtain ⟨h1, h2, h3⟩ := h
      have hnb : ¬(c = .bool ∧ isBoolByte ((leBytes c.width v ++ (encFields cs vs ++ tail)).headD 0#8) = false) := by
        rintro ⟨rfl, hb⟩
        have := (isBoolByte_iff (BitVec.ofNat 8 v)).mpr (by rcases h2 rfl with rfl | rfl <;> simp)
        simp [Coding.width, leBytes, this] at hb
      simp only [scanFields, encFields, List.append_assoc]
      rw [if_neg (by simp), if_neg hnb, List.drop_left' (by simp), List.take_left' (by simp), ih h3,
        fromLe_leBytes_of_lt h1]
      simp

/-- R95: an accepted field string is the encoding of what was read. -/
theorem scanFields_ok {cs : List Coding} {s : List Byte} {vs : List Nat} {n : Nat} (h : scanFields cs s = .ok vs n) :
    FieldsOk cs vs ∧ n ≤ s.length ∧ encFields cs vs = s.take n := by
  induction cs generalizing s vs n with
  | nil =>
    simp only [scanFields, FieldScan.ok.injEq] at h
    obtain ⟨rfl, rfl⟩ := h
    simp [FieldsOk, encFields]
  | cons c cs ih =>
    simp only [scanFields] at h
    split at h
    · cases h
    · rename_i hl
      split at h
      · cases h
      · rename_i hb
        split at h
        · cases h
        · rename_i vs' n' hs
          simp only [FieldScan.ok.injEq] at h
          obtain ⟨rfl, rfl⟩ := h
          obtain ⟨i1, i2, i3⟩ := ih hs
          have hlen : (s.take c.width).length = c.width := by simp; omega
          refine ⟨⟨by simpa [hlen] using fromLe_lt (s.take c.width), ?_, i1⟩, ?_, ?_⟩
          · rintro rfl
            cases s with
            | nil => simp [Coding.width] at hl
            | cons b s =>
              simp only [List.headD_cons, true_and, Bool.not_eq_false] at hb
              simpa [Coding.width, fromLe] using (isBoolByte_iff b).mp hb
          · simp at i2; omega
          · have := leBytes_fromLe (s.take c.width)
            rw [hlen] at this
            rw [encFields, this, i3, List.take_add]
        · cases h

/-- R195: a rejected field string names its offending byte and the bytes through it. -/
theorem scanFields_bad {cs : List Coding} {s : List Byte} {b : Byte} {n : Nat} (h : scanFields cs s = .bad b n) :
    0 < n ∧ n ≤ s.length ∧ s[n - 1]? = some b ∧ isBoolByte b = false := by
  induction cs generalizing s b n with
  | nil => simp [scanFields] at h
  | cons c cs ih =>
    simp only [scanFields] at h
    split at h
    · cases h
    · rename_i hl
      split at h
      · rename_i hb
        simp only [FieldScan.bad.injEq] at h
        obtain ⟨rfl, rfl⟩ := h
        cases s with
        | nil => have := width_pos c; simp at hl; omega
        | cons b s => exact ⟨by omega, by simp, by simp, hb.2⟩
      · split at h
        · cases h
        · cases h
        · rename_i b' n' hs
          simp only [FieldScan.bad.injEq] at h
          obtain ⟨rfl, rfl⟩ := h
          obtain ⟨i1, i2, i3, i4⟩ := ih hs
          rw [List.length_drop] at i2
          rw [List.getElem?_drop] at i3
          exact ⟨by omega, by omega, by rw [← i3]; congr 1; omega, i4⟩

/-- R194: the scan looks no further than its verdict. -/
theorem scanFields_append {cs : List Coding} {p : List Byte} (q : List Byte) (h : scanFields cs p ≠ .incomplete) :
    scanFields cs (p ++ q) = scanFields cs p := by
  induction cs generalizing p with
  | nil => rfl
  | cons c cs ih =>
    simp only [scanFields] at h ⊢
    split at h
    · exact absurd rfl h
    · rename_i hl
      have hp : p ≠ [] := by rintro rfl; have := width_pos c; simp at hl; omega
      have hh : (p ++ q).headD 0#8 = p.headD 0#8 := by cases p <;> simp_all
      rw [if_neg hl, if_neg (by simp; omega), hh]
      split
      · rfl
      · rename_i hb
        rw [if_neg hb] at h
        rw [List.drop_append_of_le_length (by omega), List.take_append_of_le_length (by omega), ih]
        intro hi
        simp [hi] at h

/-! ## The log line -/

theorem lineEnd_eq_some {p : List Byte} {i : Nat} (h : lineEnd p = some i) :
    i < p.length ∧ p[i]? = some newline ∧ newline ∉ p.take i := by
  induction p generalizing i with
  | nil => simp [lineEnd] at h
  | cons b p ih =>
    simp only [lineEnd] at h
    split at h
    · rename_i hb
      simp only [Option.some.injEq] at h
      subst h
      simp [hb]
    · rename_i hb
      simp only [Option.map_eq_some_iff] at h
      obtain ⟨j, hj, rfl⟩ := h
      obtain ⟨i1, i2, i3⟩ := ih hj
      refine ⟨by simp; omega, by simpa using i2, ?_⟩
      simp only [List.take_succ_cons, List.mem_cons, not_or]
      exact ⟨fun hn => hb hn.symm, i3⟩

theorem lineEnd_eq_none {p : List Byte} : lineEnd p = none ↔ newline ∉ p := by
  induction p with
  | nil => simp [lineEnd]
  | cons b p ih =>
    simp only [lineEnd]
    split
    · rename_i hb; simp [hb]
    · rename_i hb
      simp only [Option.map_eq_none_iff, ih, List.mem_cons, not_or]
      exact ⟨fun h => ⟨fun hn => hb hn.symm, h⟩, fun h => h.2⟩

/-- R91: the first newline is the terminator. -/
theorem lineEnd_line {s : List Byte} (h : newline ∉ s) (tail : List Byte) :
    lineEnd (s ++ newline :: tail) = some s.length := by
  induction s with
  | nil => simp [lineEnd]
  | cons b s ih =>
    simp only [List.mem_cons, not_or] at h
    simp [lineEnd, Ne.symm h.1, ih h.2]

theorem lineEnd_append {p : List Byte} {i : Nat} (q : List Byte) (h : lineEnd p = some i) :
    lineEnd (p ++ q) = some i := by
  induction p generalizing i with
  | nil => simp [lineEnd] at h
  | cons b p ih =>
    simp only [lineEnd] at h
    simp only [List.cons_append, lineEnd]
    split
    · rename_i hb; rw [if_pos hb] at h; exact h
    · rename_i hb
      rw [if_neg hb] at h
      simp only [Option.map_eq_some_iff] at h ⊢
      obtain ⟨j, hj, rfl⟩ := h
      exact ⟨j, ih hj, rfl⟩

/-- R17: a well-formed log string. -/
theorem checkLog_eq_none {m : Nat} {s : List Byte} :
    checkLog m s = none ↔ s.length ≤ m ∧ newline ∉ s ∧ utf8Valid s = true := by
  unfold checkLog
  split
  · simp only [reduceCtorEq, false_iff]; omega
  · split
    · simp_all
    · split <;> simp_all

/-- R204: a well-formed line parses to itself, whatever follows. -/
theorem parseLog_line {m : Nat} {s : List Byte} (h : checkLog m s = none) (t : Byte) (tail : List Byte) :
    parseLog m (t :: (s ++ newline :: tail)) = .ok (.response (.log s)) (s.length + 2) := by
  obtain ⟨h1, h2, h3⟩ := checkLog_eq_none.mp h
  simp [parseLog, lineEnd_line h2, Nat.not_lt.mpr h1, h3]

/-- R194, for the log line. -/
theorem parseLog_append {m : Nat} {p : List Byte} (hp : p ≠ []) (q : List Byte) (h : parseLog m p ≠ .incomplete) :
    parseLog m (p ++ q) = parseLog m p := by
  have hd : (p ++ q).drop 1 = p.drop 1 ++ q := by cases p <;> simp_all
  simp only [parseLog, hd] at h ⊢
  cases hl : lineEnd (p.drop 1) with
  | some i =>
    have hi := (lineEnd_eq_some hl).1
    simp only [lineEnd_append q hl]
    rw [List.take_append_of_le_length (by omega)]
  | none =>
    rw [hl] at h
    have hbig : m < (p.drop 1).length := by
      by_contra hc
      simp only [hc, if_false] at h
      exact h rfl
    simp only [hbig, if_true]
    cases hl2 : lineEnd (p.drop 1 ++ q) with
    | none => simp only [List.length_append]; rw [if_pos (by omega)]
    | some i =>
      have : (p.drop 1).length ≤ i := by
        by_contra hc
        have h3 := (lineEnd_eq_some hl2).2.1
        rw [List.getElem?_append_left (by omega)] at h3
        exact (lineEnd_eq_none.mp hl) (List.mem_of_getElem? h3)
      simp only
      rw [if_pos (by omega)]

/-- R204: what an accepted log line is. -/
theorem parseLog_ok {m : Nat} {t : Byte} {p : List Byte} {v : Val} {n : Nat} (h : parseLog m (t :: p) = .ok v n) :
    ∃ s, v = .response (.log s) ∧ checkLog m s = none ∧ n = s.length + 2 ∧ n ≤ (t :: p).length ∧
      (t :: p).take n = t :: (s ++ [newline]) := by
  simp only [parseLog, List.drop_succ_cons, List.drop_zero] at h
  split at h
  · rename_i i hi
    obtain ⟨h1, h2, h3⟩ := lineEnd_eq_some hi
    split at h
    · cases h
    · split at h
      · cases h
      · rename_i hm hu
        simp only [Parse.ok.injEq] at h
        obtain ⟨rfl, rfl⟩ := h
        have hlen : (p.take i).length = i := by simp; omega
        refine ⟨p.take i, rfl, checkLog_eq_none.mpr ⟨by omega, h3, by simpa using hu⟩, by omega, by simp; omega, ?_⟩
        rw [List.take_succ_cons, List.take_add_one, h2]
        rfl
  · split at h <;> cases h

/-- R204: an unfinished log line. -/
theorem parseLog_incomplete {m : Nat} {t : Byte} {p : List Byte} (h : parseLog m (t :: p) = .incomplete) :
    newline ∉ p ∧ p.length ≤ m := by
  simp only [parseLog, List.drop_succ_cons, List.drop_zero] at h
  split at h
  · split at h
    · cases h
    · split at h <;> cases h
  · rename_i hl
    split at h
    · cases h
    · exact ⟨lineEnd_eq_none.mp hl, by omega⟩

/-! ## The tag maps -/

/-- R87: the row of a command's tag builds the command from its own values. -/
theorem Command.row (c : Command) (h : c.Wf) :
    ∃ r, MsgMap.command.row? c.tag = some r ∧ r.format = c.format ∧ r.build c.values = .command c ∧
      FieldsOk c.format.fields c.values ∧ r.format ≠ .flog := by
  have hb : ∀ v : Bool, boolOf (boolByte v) = v := by decide
  have hbv : ∀ v : Bool, boolByte v < 256 ∧ (boolByte v = 0x30 ∨ boolByte v = 0x31) := by decide
  cases c with
  | addBuzzerNote f d =>
    refine ⟨_, rfl, rfl, ?_, ?_, by decide⟩
    · cases f with
      | none => simp [Command.values, fieldAt, freqValue, freqOf]
      | some f =>
        have hf : f.toNat ≠ 0 := fun h0 => by
          have : f = 0#32 := BitVec.eq_of_toNat_eq h0
          simp [Command.Wf, Command.check, this] at h
        simp [Command.values, fieldAt, freqValue, freqOf, hf]
    · have hd := d.isLt
      cases f with
      | none => simpa [Command.values, Command.format, Format.fields, FieldsOk, freqValue, Coding.width] using hd
      | some f =>
        have hf := f.isLt
        simpa [Command.values, Command.format, Format.fields, FieldsOk, freqValue, Coding.width] using ⟨hf, hd⟩
  | setMaxTorque n p =>
    have hn := n.isLt
    have hp := p.isLt
    refine ⟨_, rfl, rfl, by simp [Command.values, fieldAt], ?_, by decide⟩
    simpa [Command.values, Command.format, Format.fields, FieldsOk, Coding.width] using ⟨hn, hp⟩
  | setSpringConstant k =>
    have hk := k.isLt
    refine ⟨_, rfl, rfl, by simp [Command.values, fieldAt], ?_, by decide⟩
    simpa [Command.values, Command.format, Format.fields, FieldsOk, Coding.width] using hk
  | setTarget x =>
    have hx := x.isLt
    refine ⟨_, rfl, rfl, by simp [Command.values, fieldAt], ?_, by decide⟩
    simpa [Command.values, Command.format, Format.fields, FieldsOk, Coding.width] using hx
  | setSideLed v | setOrangeLed v | setRedLed v | setGreenLed v =>
    refine ⟨_, rfl, rfl, by simp [Command.values, fieldAt, hb], ?_, by decide⟩
    simpa [Command.values, Command.format, Format.fields, FieldsOk, Coding.width] using hbv v
  | reportBattery | reportCharger | removeTarget | recenter | incrementTarget | decrementTarget | powerOff | testMotor =>
    exact ⟨_, rfl, rfl, rfl, trivial, by decide⟩

/-- R88: the row of a response's tag, for the responses of fixed length. -/
theorem Response.row (r : Response) (h : ∀ s, r ≠ .log s) :
    ∃ w, MsgMap.response.row? r.tag = some w ∧ w.format = r.format ∧ w.build r.values = .response r ∧
      FieldsOk r.format.fields r.values ∧ w.format ≠ .flog := by
  have hb : ∀ v : Bool, boolOf (boolByte v) = v := by decide
  have hbv : ∀ v : Bool, boolByte v < 256 ∧ (boolByte v = 0x30 ∨ boolByte v = 0x31) := by decide
  cases r with
  | position x =>
    have hx := x.isLt
    refine ⟨_, rfl, rfl, by simp [Response.values, fieldAt], ?_, by decide⟩
    simpa [Response.values, Response.format, Format.fields, FieldsOk, Coding.width] using hx
  | batteryReadings a b c =>
    have ha := a.isLt
    have hb' := b.isLt
    have hc := c.isLt
    refine ⟨_, rfl, rfl, by simp [Response.values, fieldAt], ?_, by decide⟩
    simpa [Response.values, Response.format, Format.fields, FieldsOk, Coding.width] using ⟨ha, hb', hc⟩
  | chargeState v =>
    refine ⟨_, rfl, rfl, by simp [Response.values, fieldAt, hb], ?_, by decide⟩
    simpa [Response.values, Response.format, Format.fields, FieldsOk, Coding.width] using hbv v
  | log s => exact absurd rfl (h s)
  | powerOff => exact ⟨_, rfl, rfl, rfl, trivial, by decide⟩

/-- R171, R174: the stream parse of an encoding, whatever follows it. -/
theorem parseBody_encVal {m : Nat} {v : Val} (h : v.Wf m) (tail : List Byte) :
    parseBody m v.map (encVal v ++ tail) = .ok v (encVal v).length := by
  cases v with
  | command c =>
    obtain ⟨r, h1, h2, h3, h4, h5⟩ := Command.row c h
    rw [h2] at h5
    simp only [encVal, encCommand, List.cons_append, Val.map, parseBody, h1, h2, h5, if_false,
      scanFields_encFields h4, h3, List.length_cons]
  | response r =>
    by_cases hl : ∃ s, r = .log s
    · obtain ⟨s, rfl⟩ := hl
      have hp := parseLog_line (m := m) (s := s) h 0x22#8 tail
      have hr : MsgMap.response.row? 0x22#8 = some ⟨0x22#8, .flog, fun _ => .response (.log [])⟩ := rfl
      simp only [encVal, encResponse, Response.tag, List.cons_append, List.append_assoc, List.nil_append, Val.map,
        parseBody, hr, if_true, hp]
      simp
    · obtain ⟨w, h1, h2, h3, h4, h5⟩ := Response.row r (fun s hs => hl ⟨s, hs⟩)
      rw [h2] at h5
      have he : encResponse r = r.tag :: encFields r.format.fields r.values := by cases r <;> simp_all [encResponse]
      simp only [encVal, he, List.cons_append, Val.map, parseBody, h1, h2, h5, if_false,
        scanFields_encFields h4, h3, List.length_cons]

/-- R194: the stream parse looks no further than its verdict. -/
theorem parseBody_append {m : Nat} {map : MsgMap} {p : List Byte} (q : List Byte)
    (h : parseBody m map p ≠ .incomplete) : parseBody m map (p ++ q) = parseBody m map p := by
  cases p with
  | nil => simp [parseBody] at h
  | cons t p =>
    simp only [parseBody, List.cons_append] at h ⊢
    split
    · rfl
    · rename_i r hr
      simp only [hr] at h
      split
      · rename_i hf
        rw [if_pos hf] at h
        exact parseLog_append (by simp) q h
      · rename_i hf
        rw [if_neg hf] at h
        rw [scanFields_append]
        intro hs
        simp [hs] at h

/-- R194, directed. -/
theorem parseDirected_append {m : Nat} {map : MsgMap} {p : List Byte} (q : List Byte)
    (h : parseDirected m map p ≠ .incomplete) : parseDirected m map (p ++ q) = parseDirected m map p := by
  cases p with
  | nil => simp [parseDirected] at h
  | cons t p =>
    simp only [parseDirected, List.cons_append] at h ⊢
    split
    · rfl
    · rename_i side hs
      simp only [hs] at h
      rw [parseBody_append]
      intro hb
      simp [hb] at h

/-- R82: `OPTFREQ` maps 0 to none and nothing else to it. -/
theorem freqValue_freqOf {v : Nat} (h : v < 4294967296) : freqValue (freqOf v) = v := by
  unfold freqOf
  split
  · rename_i h0; exact h0.symm
  · simp [freqValue, Nat.mod_eq_of_lt h]

theorem check_freqOf {v : Nat} (h : v < 4294967296) (d : Word32) :
    (Command.addBuzzerNote (freqOf v) d).check = none := by
  unfold freqOf
  split
  · rfl
  · rename_i h0
    have hz : ¬BitVec.ofNat 32 v = 0#32 := by
      intro hz
      have := congrArg BitVec.toNat hz
      simp [Nat.mod_eq_of_lt h] at this
      exact h0 this
    simp [Command.check, hz]

/-- R95: a tag's row builds, from admitted field values, the value whose encoding they came from. -/
theorem MsgMap.row_canonical {map : MsgMap} {t : Byte} {r : Row} (h : map.row? t = some r) (hf : r.format ≠ .flog)
    {vs : List Nat} (hv : FieldsOk r.format.fields vs) (m : Nat) :
    encVal (r.build vs) = t :: encFields r.format.fields vs ∧ (r.build vs).Wf m ∧ (r.build vs).map = map := by
  have hm := List.mem_of_find?_eq_some h
  have ht : r.tag = t := by simpa using List.find?_some h
  subst ht
  cases map <;> simp only [MsgMap.rows, commandRows, responseRows, List.mem_cons, List.not_mem_nil, or_false] at hm
  · rcases hm with rfl | rfl | rfl | rfl | rfl | rfl | rfl | rfl | rfl | rfl | rfl | rfl | rfl | rfl | rfl | rfl <;>
      rcases vs with _ | ⟨a, _ | ⟨b, _ | ⟨c, vs⟩⟩⟩ <;>
      simp_all [Format.fields, FieldsOk, Coding.width, encVal, encCommand, Command.tag, Command.format, Command.values,
        fieldAt, Val.Wf, Val.check, Val.map, Nat.mod_eq_of_lt, freqValue_freqOf, check_freqOf] <;>
      first | rfl | (obtain ⟨_, rfl | rfl⟩ := hv <;> exact ⟨rfl, rfl⟩)
  · rcases hm with rfl | rfl | rfl | rfl | rfl <;>
      rcases vs with _ | ⟨a, _ | ⟨b, _ | ⟨c, _ | ⟨d, vs⟩⟩⟩⟩ <;>
      simp_all [Format.fields, FieldsOk, Coding.width, encVal, encResponse, Response.tag, Response.format,
        Response.values, fieldAt, Val.Wf, Val.check, Val.map, Response.check, Nat.mod_eq_of_lt] <;>
      (obtain ⟨_, rfl | rfl⟩ := hv <;> rfl)

theorem MsgMap.row_flog {map : MsgMap} {t : Byte} {r : Row} (h : map.row? t = some r) (hf : r.format = .flog) :
    map = .response ∧ t = 0x22#8 := by
  have hm := List.mem_of_find?_eq_some h
  have ht : r.tag = t := by simpa using List.find?_some h
  subst ht
  cases map <;> simp only [MsgMap.rows, commandRows, responseRows, List.mem_cons, List.not_mem_nil, or_false] at hm
  · rcases hm with rfl | rfl | rfl | rfl | rfl | rfl | rfl | rfl | rfl | rfl | rfl | rfl | rfl | rfl | rfl | rfl <;>
      simp at hf
  · rcases hm with rfl | rfl | rfl | rfl | rfl <;> simp_all

/-- R95: what the stream parse accepts is the encoding of a well-formed value. -/
theorem parseBody_ok {m : Nat} {map : MsgMap} {s : List Byte} {v : Val} {n : Nat} (h : parseBody m map s = .ok v n) :
    v.Wf m ∧ v.map = map ∧ n ≤ s.length ∧ encVal v = s.take n := by
  cases s with
  | nil => simp [parseBody] at h
  | cons t p =>
    simp only [parseBody] at h
    split at h
    · cases h
    · rename_i r hr
      split at h
      · rename_i hf
        obtain ⟨rfl, rfl⟩ := MsgMap.row_flog hr hf
        obtain ⟨s, rfl, h2, rfl, h4, h5⟩ := parseLog_ok h
        exact ⟨h2, rfl, h4, h5.symm⟩
      · rename_i hf
        split at h
        · cases h
        · rename_i vs k hs
          simp only [Parse.ok.injEq] at h
          obtain ⟨rfl, rfl⟩ := h
          obtain ⟨i1, i2, i3⟩ := scanFields_ok hs
          obtain ⟨j1, j2, j3⟩ := MsgMap.row_canonical hr hf i1 m
          exact ⟨j2, j3, by simp; omega, by rw [j1, i3, List.take_succ_cons]⟩
        · cases h

theorem sideOf_sideTag (s : Side) : sideOf (sideTag s) = some s := by cases s <;> rfl

theorem sideTag_of_sideOf {t : Byte} {s : Side} (h : sideOf t = some s) : sideTag s = t := by
  unfold sideOf at h
  split at h
  · rename_i ht; cases h; exact ht.symm
  · split at h
    · rename_i ht; cases h; exact ht.symm
    · cases h

theorem encDirected_eq (v : Directed) : encDirected v = sideTag v.side :: encVal v.val := by cases v <;> rfl

theorem Directed.of_side_val (v : Directed) : Directed.of v.side v.val = v := by cases v <;> rfl

@[simp] theorem Directed.val_of (s : Side) (v : Val) : (Directed.of s v).val = v := by cases v <;> rfl

@[simp] theorem Directed.side_of (s : Side) (v : Val) : (Directed.of s v).side = s := by cases v <;> rfl

/-- R210, R211: the directed stream parse of an encoding, whatever follows it. -/
theorem parseDirected_encDirected {m : Nat} {v : Directed} (h : v.Wf m) (tail : List Byte) :
    parseDirected m v.val.map (encDirected v ++ tail) = .ok v (encDirected v).length := by
  rw [encDirected_eq]
  simp only [List.cons_append, parseDirected, sideOf_sideTag, parseBody_encVal (m := m) (v := v.val) h,
    Directed.of_side_val, List.length_cons]

/-- R213: what the directed stream parse accepts is the encoding of a well-formed value. -/
theorem parseDirected_ok {m : Nat} {map : MsgMap} {s : List Byte} {v : Directed} {n : Nat}
    (h : parseDirected m map s = .ok v n) :
    v.Wf m ∧ v.val.map = map ∧ n ≤ s.length ∧ encDirected v = s.take n := by
  cases s with
  | nil => simp [parseDirected] at h
  | cons t p =>
    simp only [parseDirected] at h
    split at h
    · cases h
    · rename_i side hs
      split at h
      · cases h
      · rename_i w k hb
        simp only [Parse.ok.injEq] at h
        obtain ⟨rfl, rfl⟩ := h
        obtain ⟨i1, i2, i3, i4⟩ := parseBody_ok hb
        refine ⟨by simpa [Directed.Wf, Directed.check] using i1, by simpa using i2, by simp; omega, ?_⟩
        rw [encDirected_eq, Directed.side_of, Directed.val_of, sideTag_of_sideOf hs, i4, List.take_succ_cons]
      · cases h

/-- R192: every strict head of an encoding is Incomplete. -/
theorem parseBody_truncated {m : Nat} {v : Val} (h : v.Wf m) {k : Nat} (hk : k < (encVal v).length) :
    parseBody m v.map ((encVal v).take k) = .incomplete := by
  by_contra hc
  have h1 := parseBody_append ((encVal v).drop k) hc
  rw [List.take_append_drop] at h1
  have h2 := parseBody_encVal h []
  rw [List.append_nil, h1] at h2
  have h3 := (parseBody_ok h2).2.2.1
  simp at h3
  omega

/-- R192, R213: every strict head of a directed encoding is Incomplete. -/
theorem parseDirected_truncated {m : Nat} {v : Directed} (h : v.Wf m) {k : Nat} (hk : k < (encDirected v).length) :
    parseDirected m v.val.map ((encDirected v).take k) = .incomplete := by
  by_contra hc
  have h1 := parseDirected_append ((encDirected v).drop k) hc
  rw [List.take_append_drop] at h1
  have h2 := parseDirected_encDirected h []
  rw [List.append_nil, h1] at h2
  have h3 := (parseDirected_ok h2).2.2.1
  simp at h3
  omega

theorem encVal_pos (v : Val) : 0 < (encVal v).length := by
  cases v with
  | command c => simp [encVal, encCommand]
  | response r => cases r <;> simp [encVal, encResponse]

/-- A bad field stands at the end of the shortest string that shows it. -/
theorem scanFields_bad_take {cs : List Coding} {s : List Byte} {b : Byte} {n : Nat} (h : scanFields cs s = .bad b n) :
    scanFields cs (s.take n) = .bad b n := by
  induction cs generalizing s b n with
  | nil => simp [scanFields] at h
  | cons c cs ih =>
    simp only [scanFields] at h
    split at h
    · cases h
    · rename_i hl
      split at h
      · rename_i hb
        cases h
        have hc : c.width = 1 := by rw [hb.1]; rfl
        cases s with
        | nil => simp [hc] at hl
        | cons x s => obtain ⟨rfl, hx⟩ := hb; have hx : isBoolByte x = false := hx; simp [scanFields, hc, hx]
      · rename_i hb
        split at h
        · cases h
        · cases h
        · rename_i b' m hm
          cases h
          have hhead : (s.take (c.width + m)).headD 0#8 = s.headD 0#8 := by
            have := width_pos c
            cases s with
            | nil => simp
            | cons x s => rw [show c.width + m = (c.width + m - 1) + 1 by omega]; rfl
          have hlen : ¬(s.take (c.width + m)).length < c.width := by simp; omega
          have hdrop : (s.take (c.width + m)).drop c.width = (s.drop c.width).take m := by
            rw [List.drop_take]; congr 1; omega
          simp only [scanFields, hlen, if_false, hhead, hb, hdrop, ih hm]

/-- R195: the counted bytes of an error of a body are there, and give the error by themselves. -/
theorem parseBody_err_take {m : Nat} {map : MsgMap} {s : List Byte} {k : ErrKind} {c : Nat}
    (h : parseBody m map s = .err k (some c)) : c ≤ s.length ∧ parseBody m map (s.take c) = .err k (some c) := by
  cases s with
  | nil => cases h
  | cons t rest =>
    simp only [parseBody] at h
    split at h
    · rename_i hr
      cases h
      simp [parseBody, hr]
    · rename_i r hr
      split at h
      · rename_i hf
        simp only [parseLog, List.drop_succ_cons, List.drop_zero] at h
        split at h
        · rename_i i hi
          obtain ⟨h1, h2, h3⟩ := lineEnd_eq_some hi
          split at h
          · cases h
          · rename_i hm
            split at h <;> cases h
            rename_i hu
            refine ⟨by simp; omega, ?_⟩
            have he : rest.take (i + 1) = rest.take i ++ newline :: [] := by
              rw [List.take_add_one, h2]; rfl
            have hl : (rest.take i).length = i := by simp; omega
            have hle := lineEnd_line h3 []
            rw [hl] at hle
            simp only [List.take_succ_cons, parseBody, hr, hf, if_true, parseLog, List.drop_succ_cons, List.drop_zero, he,
              hle, hm, if_false]
            rw [List.take_left' hl]
            simp [hu]
        · split at h <;> cases h
      · rename_i hf
        split at h
        · cases h
        · cases h
        · rename_i b n hb
          cases h
          have := scanFields_bad hb
          refine ⟨by simp; omega, ?_⟩
          simp [parseBody, hr, hf, scanFields_bad_take hb]

/-- R195, R211: the same for a directed string. -/
theorem parseDirected_err_take {m : Nat} {map : MsgMap} {s : List Byte} {k : ErrKind} {c : Nat}
    (h : parseDirected m map s = .err k (some c)) :
    c ≤ s.length ∧ parseDirected m map (s.take c) = .err k (some c) := by
  cases s with
  | nil => cases h
  | cons t rest =>
    simp only [parseDirected] at h
    split at h
    · rename_i hs
      cases h
      simp [parseDirected, hs]
    · rename_i side hs
      split at h
      · cases h
      · cases h
      · rename_i k' c' hb
        cases c' with
        | none => cases h
        | some c' =>
          cases h
          obtain ⟨h1, h2⟩ := parseBody_err_take hb
          exact ⟨by simpa using h1, by simp [parseDirected, hs, h2]⟩

end Sys2Proof
end

