-- ==== Sys2Proof/Laws/Ring.lean ====
section
/-! SUPPORT. What each ring operation does to the ring's contents (R121 to R129): one lemma per operation, which later
proofs cite instead of the slots. -/

namespace Sys2Proof.Machine

variable {α : Type}

theorem Ring.item_eq (r : Ring α) (i : Nat) : r.item i = (r.buf[(r.start + i) % r.cap]?).getD none := rfl

theorem Ring.cap_pos {r : Ring α} (h : r.Wf) : 0 < r.cap := by have := h.2.1; omega

theorem filterMap_all_some {β : Type} (f : Nat → Option β) (l : List Nat) (h : ∀ i ∈ l, (f i).isSome = true) :
    (l.filterMap f).length = l.length := by
  induction l with
  | nil => rfl
  | cons a l ih =>
    obtain ⟨v, hv⟩ := Option.isSome_iff_exists.mp (h a (by simp))
    simp [hv, ih (fun i hi => h i (by simp [hi]))]

theorem Ring.contents_length {r : Ring α} (h : r.Wf) : r.contents.length = r.length := by
  unfold Ring.contents
  rw [filterMap_all_some _ _ (by simpa using h.2.2.2)]
  simp

theorem Ring.contents_eq_nil_iff {r : Ring α} (h : r.Wf) : r.contents = [] ↔ r.length = 0 := by
  rw [← List.length_eq_zero_iff, contents_length h]

theorem Ring.isEmpty_eq {r : Ring α} (h : r.Wf) : r.isEmpty = r.contents.isEmpty := by
  rw [Bool.eq_iff_iff, List.isEmpty_iff, contents_eq_nil_iff h]
  simp [Ring.isEmpty]

theorem Ring.isFull_eq {r : Ring α} (h : r.Wf) : r.isFull = (r.contents.length == r.cap) := by
  simp [Ring.isFull, contents_length h]

/-- Two occupied places of a ring are two slots. -/
theorem slot_injective {n a i j : Nat} (hi : i < n) (hj : j < n) (h : (a + i) % n = (a + j) % n) : i = j := by
  have hm : i ≡ j [MOD n] := Nat.ModEq.add_left_cancel' a h
  rw [Nat.ModEq, Nat.mod_eq_of_lt hi, Nat.mod_eq_of_lt hj] at hm
  exact hm

/-- R121: `add` on a ring that is not full. -/
theorem Ring.add_of_lt {r : Ring α} (x : α) (hl : r.length < r.cap) :
    r.add x = ({ r with buf := r.buf.set ((r.start + r.length) % r.cap) (some x), length := r.length + 1 }, true) := by
  simp [Ring.add, hl, Ring.slot]

/-- R121: `add` on a full ring. -/
theorem Ring.add_of_ge {r : Ring α} (x : α) (hl : r.cap ≤ r.length) : r.add x = (r, false) := by
  simp [Ring.add, Nat.not_lt.mpr hl]

theorem Ring.add_item_old {r : Ring α} (x : α) (hl : r.length < r.cap) {i : Nat} (hi : i < r.length) :
    (r.add x).1.item i = r.item i := by
  rw [add_of_lt x hl]
  have : (r.start + r.length) % r.cap ≠ (r.start + i) % r.cap := fun h => by
    have := slot_injective hl (Nat.lt_trans hi hl) h
    omega
  simp [Ring.item, Ring.slot, List.getElem?_set_ne this]

theorem Ring.add_item_new {r : Ring α} (h : r.Wf) (x : α) (hl : r.length < r.cap) :
    (r.add x).1.item r.length = some x := by
  rw [add_of_lt x hl]
  have hb : (r.start + r.length) % r.cap < r.buf.length := by
    rw [h.1]; exact Nat.mod_lt _ (cap_pos h)
  simp [Ring.item, Ring.slot, hb]

/-- R121, R127: `add` puts the item behind the others. -/
theorem Ring.add_contents {r : Ring α} (h : r.Wf) (x : α) (hl : r.length < r.cap) :
    (r.add x).1.contents = r.contents ++ [x] := by
  have hlen : (r.add x).1.length = r.length + 1 := by rw [add_of_lt x hl]
  unfold Ring.contents
  rw [hlen, List.range_succ, List.filterMap_append]
  congr 1
  · exact List.filterMap_congr (fun i hi => add_item_old x hl (List.mem_range.mp hi))
  · simp [add_item_new h x hl]

@[simp] theorem Ring.add_cap (r : Ring α) (x : α) : (r.add x).1.cap = r.cap := by
  unfold Ring.add; split <;> rfl

@[simp] theorem Ring.add_start (r : Ring α) (x : α) : (r.add x).1.start = r.start := by
  unfold Ring.add; split <;> rfl

/-- R128. -/
theorem Ring.add_wf {r : Ring α} (h : r.Wf) (x : α) : (r.add x).1.Wf := by
  by_cases hl : r.length < r.cap
  · refine ⟨?_, ?_, ?_, fun i hi => ?_⟩
    · rw [add_of_lt x hl]; simpa using h.1
    · simpa using h.2.1
    · rw [add_of_lt x hl]; simpa using hl
    · have hlen : (r.add x).1.length = r.length + 1 := by rw [add_of_lt x hl]
      rcases Nat.lt_succ_iff_lt_or_eq.mp (hlen ▸ hi) with h' | h'
      · rw [add_item_old x hl h']; exact h.2.2.2 i h'
      · rw [h', add_item_new h x hl]; rfl
  · rw [add_of_ge x (by omega)]; exact h

@[simp] theorem Ring.addAll_cap (r : Ring α) (xs : List α) : (r.addAll xs).1.cap = r.cap := by
  induction xs generalizing r with
  | nil => rfl
  | cons x xs ih =>
    by_cases hl : r.length < r.cap
    · simp only [Ring.addAll, Ring.add, hl, if_true, ih]
    · simp [Ring.addAll, Ring.add, hl]

@[simp] theorem Ring.addAll_start (r : Ring α) (xs : List α) : (r.addAll xs).1.start = r.start := by
  induction xs generalizing r with
  | nil => rfl
  | cons x xs ih =>
    by_cases hl : r.length < r.cap
    · simp only [Ring.addAll, Ring.add, hl, if_true, ih]
    · simp [Ring.addAll, Ring.add, hl]

theorem Ring.addAll_wf {r : Ring α} (h : r.Wf) (xs : List α) : (r.addAll xs).1.Wf := by
  induction xs generalizing r with
  | nil => exact h
  | cons x xs ih =>
    by_cases hl : r.length < r.cap
    · have := ih (add_wf h x)
      simpa [Ring.addAll, Ring.add, hl] using this
    · simpa [Ring.addAll, Ring.add, hl] using h

/-- R122: the count in closed form. -/
theorem Ring.addAll_count {r : Ring α} (h : r.Wf) (xs : List α) :
    (r.addAll xs).2 = min xs.length (r.cap - r.length) := by
  induction xs generalizing r with
  | nil => simp [Ring.addAll]
  | cons x xs ih =>
    by_cases hl : r.length < r.cap
    · have := ih (add_wf h x)
      simp only [Ring.addAll, Ring.add, hl, if_true] at this ⊢
      simp only [this, List.length_cons]
      omega
    · simp [Ring.addAll, Ring.add, hl]; omega

/-- R122: the items stored are the first `count`, behind the old ones. -/
theorem Ring.addAll_contents {r : Ring α} (h : r.Wf) (xs : List α) :
    (r.addAll xs).1.contents = r.contents ++ xs.take (r.cap - r.length) := by
  induction xs generalizing r with
  | nil => simp [Ring.addAll]
  | cons x xs ih =>
    by_cases hl : r.length < r.cap
    · have h1 := ih (add_wf h x)
      have h2 := add_contents h x hl
      rw [add_of_lt x hl] at h1 h2
      simp only [Ring.addAll, add_of_lt x hl] at h1 ⊢
      rw [h1, h2]
      obtain ⟨k, hk⟩ : ∃ k, r.cap - r.length = k + 1 := ⟨r.cap - r.length - 1, by omega⟩
      simp [hk, show r.cap - (r.length + 1) = k by omega]
    · have : r.cap - r.length = 0 := by have := h.2.2.1; omega
      simp [Ring.addAll, Ring.add, hl, this]

/-- R124, R127: `peek` reads the oldest item. -/
theorem Ring.peek_eq {r : Ring α} (h : r.Wf) : r.peek = r.contents.head? := by
  unfold Ring.peek Ring.contents
  cases hl : r.length with
  | zero => simp
  | succ n =>
    obtain ⟨v, hv⟩ := Option.isSome_iff_exists.mp (h.2.2.2 0 (by omega))
    simp [List.range_succ_eq_map, hv]

/-- R123: what `take` returns. -/
theorem Ring.take_item {r : Ring α} (h : r.Wf) : r.take.2 = r.contents.head? := by
  rw [← peek_eq h]
  unfold Ring.take Ring.peek
  split <;> rfl

@[simp] theorem Ring.take_cap (r : Ring α) : r.take.1.cap = r.cap := by
  unfold Ring.take; split <;> rfl

theorem Ring.take_item_shift {r : Ring α} (h : r.length ≠ 0) (i : Nat) : r.take.1.item i = r.item (i + 1) := by
  simp only [Ring.take, h, if_false, Ring.item, Ring.slot]
  rw [Nat.mod_add_mod, Nat.add_right_comm, Nat.add_assoc]

/-- R123, R127: `take` removes the oldest item and nothing else. -/
theorem Ring.take_contents {r : Ring α} (h : r.Wf) : r.take.1.contents = r.contents.tail := by
  by_cases hl : r.length = 0
  · have hc := (contents_eq_nil_iff h).mpr hl
    simp [Ring.take, hl, hc]
  · obtain ⟨n, hn⟩ := Nat.exists_eq_succ_of_ne_zero hl
    obtain ⟨v, hv⟩ := Option.isSome_iff_exists.mp (h.2.2.2 0 (by omega))
    have hlen : r.take.1.length = n := by simp [Ring.take, hn]
    have hf : r.take.1.item = r.item ∘ Nat.succ := funext (take_item_shift hl)
    unfold Ring.contents
    rw [hlen, hn, List.range_succ_eq_map, hf, List.filterMap_cons, hv]
    simp [List.filterMap_map]

/-- R128. -/
theorem Ring.take_wf {r : Ring α} (h : r.Wf) : r.take.1.Wf := by
  by_cases hl : r.length = 0
  · simpa [Ring.take, hl] using h
  · refine ⟨?_, ?_, ?_, fun i hi => ?_⟩
    · simpa [Ring.take, hl] using h.1
    · simpa [Ring.take, hl] using Nat.mod_lt _ (cap_pos h)
    · have := h.2.2.1
      simp only [Ring.take, hl, if_false]; omega
    · rw [take_item_shift hl]
      have : r.take.1.length = r.length - 1 := by simp [Ring.take, hl]
      exact h.2.2.2 _ (by omega)

/-- R40: a created ring is well-formed and empty. -/
theorem Ring.initial_wf (cap : Nat) (h : 0 < cap) : (Ring.initial α cap).Wf := by
  simp [Ring.initial, Ring.Wf, h]

@[simp] theorem Ring.initial_contents (cap : Nat) : (Ring.initial α cap).contents = [] := rfl

end Sys2Proof.Machine
end

