-- ==== Sys2Proof/Laws/Transmit.lean ====
section
/-! SUPPORT. What one `kick`, one pass of `write` and one test of `flush` do (R143, R144, R146, R150): each said once, in
the terms of spec/41_transmit_engine.md. -/

namespace Sys2Proof.Machine

theorem Txe.kick_absent {t : Txe} (h : t.dev = none) : t.kick = (t, .ok) := by simp [Txe.kick, h]

/-- R144: one `kick` with a device is its table on the ring's contents. -/
theorem Txe.kick_table {t : Txe} {w : Device} (h : t.rb.Wf) (hd : t.dev = some w) :
    t.kick.1.rb.contents = (kickTable t.rb.contents t.irqEn w).1 ∧ t.kick.1.rb.Wf ∧ t.kick.1.rb.cap = t.rb.cap ∧
      t.kick.1.irqEn = (kickTable t.rb.contents t.irqEn w).2.1 ∧
      t.kick.1.dev = some (kickTable t.rb.contents t.irqEn w).2.2.1 ∧
      t.kick.2 = (kickTable t.rb.contents t.irqEn w).2.2.2 := by
  have hp := Ring.peek_eq h
  have he := Ring.isEmpty_eq h
  cases hq : t.rb.contents with
  | nil =>
    simp only [hq] at hp he
    simp [Txe.kick, hd, hp, Txe.rearm, kickTable, he, hq]
    exact h
  | cons x rest =>
    simp only [hq, List.head?_cons] at hp he
    have htc := Ring.take_contents h
    have hte := Ring.isEmpty_eq (Ring.take_wf h)
    rw [hq, List.tail_cons] at htc
    rw [htc] at hte
    rcases ha : w.answers with _ | ⟨_ | e, as⟩
    · cases hr : w.ready <;>
        simp [Txe.kick, hd, hp, deviceWriteByte, deviceNextAnswer, ha, hr, Txe.rearm, kickTable, hq, he, htc, hte]
      · exact ⟨h, by cases w; simp_all⟩
      · exact Ring.take_wf h
    · cases hr : w.ready <;>
        simp [Txe.kick, hd, hp, deviceWriteByte, deviceNextAnswer, ha, hr, Txe.rearm, kickTable, hq, he, htc, hte]
      · exact h
      · exact Ring.take_wf h
    · simp [Txe.kick, hd, hp, deviceWriteByte, deviceNextAnswer, ha, kickTable, hq]
      exact h

/-- The engine's part of `EngineBecame`, for a state made by replacing the engine, the task, the log and the result. -/
theorem engineBecame_of {b : BoardId} {d : Dir} {s t : State} {e : Txe} {q : List Byte} {irqEn : Bool} {w : Device}
    {task : Task} {log : List BoardLog} {ret : Option Ret}
    (ht : t = { (s.setBoard b { s.board b with tx := (s.board b).tx.set d e, task := task, log := log }) with
      ret := ret })
    (hq : e.rb.contents = q) (hw : e.rb.Wf) (hc : e.rb.cap = (s.engine b d).rb.cap) (hi : e.irqEn = irqEn)
    (hd : e.dev = some w) : EngineBecame b d s t q irqEn w task log ret := by
  have he : t.engine b d = e := by
    subst ht
    simp only [State.engine]
    show ((s.setBoard b _).board b).tx.get d = e
    simp
  exact ⟨he ▸ hq, he ▸ hw, he ▸ hc, he ▸ hi, he ▸ hd, he.symm ▸ ht⟩

/-- R146: what one pass of `write` does. -/
theorem writePass_passed {b : BoardId} {d : Dir} {bytes : List Byte} (who : Caller) {w : Device} {s : State}
    (h : (s.engine b d).rb.Wf) (hd : (s.engine b d).dev = some w) :
    WritePassed b d bytes who w s (writePass b d bytes who s) := by
  have hcount : ((s.engine b d).rb.addAll bytes).2 = fits s b d bytes := by
    rw [Ring.addAll_count h, fits, Ring.contents_length h]
  have hcont : ((s.engine b d).rb.addAll bytes).1.contents =
      (s.engine b d).rb.contents ++ bytes.take (fits s b d bytes) := by
    rw [Ring.addAll_contents h, fits, Ring.contents_length h]
    congr 1
    rw [List.take_eq_take_iff]
    omega
  have hfit : fits s b d bytes ≤ bytes.length := Nat.min_le_left _ _
  have hk := Txe.kick_table (t := { s.engine b d with rb := ((s.engine b d).rb.addAll bytes).1 })
    (Ring.addAll_wf h bytes) hd
  simp only [hcont, Ring.addAll_cap] at hk
  obtain ⟨k1, k2, k3, k4, k5, k6⟩ := hk
  unfold WritePassed writePass
  simp only [k6, hcount]
  rcases hr : (kickTable ((s.engine b d).rb.contents ++ bytes.take (fits s b d bytes)) (s.engine b d).irqEn w).2.2.2
    with _ | e
  · by_cases hn : fits s b d bytes = bytes.length
    · simp only [hn, List.drop_length, if_true]
      rw [hn] at k1 k4 k5
      cases who <;>
      exact engineBecame_of (by simp [finishWrite, finishTask, State.returns, State.setTask,
        State.setEngine]) k1 k2 k3 k4 k5
    · have hz : bytes.drop (fits s b d bytes) ≠ [] := by
        simp only [ne_eq, List.drop_eq_nil_iff]; omega
      simp only [hz, hn, if_false]
      exact engineBecame_of (by simp [blockTask, State.setTask, State.setEngine]) k1 k2 k3 k4 k5
  · cases who <;>
      exact engineBecame_of (by simp [finishWrite, finishTask, State.returns, State.setTask, State.boardLog,
        State.setEngine]) k1 k2 k3 k4 k5

/-- R150: what one test of `flush` does. -/
theorem flushTest_tested {b : BoardId} {d : Dir} {s : State} {w : Device} (h : (s.engine b d).rb.Wf)
    (hd : (s.engine b d).dev = some w) : FlushTested b d w s (flushTest b d s) := by
  have he := Ring.isEmpty_eq h
  unfold FlushTested flushTest
  cases hq : (s.engine b d).rb.contents with
  | cons x q =>
    simp only [he, hq, List.isEmpty_cons, if_true]
    refine engineBecame_of (e := s.engine b d) ?_ hq h rfl rfl hd
    have : (s.board b).tx.set d (s.engine b d) = (s.board b).tx := by simp [State.engine]
    simp [blockTask, State.setTask, this]
  | nil =>
    simp only [he, hq, List.isEmpty_nil, Bool.true_eq_false, if_false, hd]
    rcases ha : w.answers with _ | ⟨_ | e, as⟩
    case cons.some =>
      simp only [deviceFlush, deviceNextAnswer, ha]
      exact engineBecame_of (e := { s.engine b d with dev := some { w with answers := as } })
        (by simp [finishTask, State.returns, State.setTask, State.setEngine]) hq h rfl rfl rfl
    all_goals
      by_cases hc : w.out = [] ∧ w.ready = true
      · simp only [deviceFlush, deviceNextAnswer, ha, hc.1, hc.2, and_self, if_true]
        refine engineBecame_of (e := { s.engine b d with dev := some (deviceFlush w).2 })
          (by simp [finishTask, State.returns, State.setTask, State.setEngine, deviceFlush, deviceNextAnswer, ha,
            hc.1, hc.2]) hq h rfl rfl ?_
        cases w
        simp_all [deviceFlush, deviceNextAnswer]
      · simp only [deviceFlush, deviceNextAnswer, ha, hc, if_false]
        refine engineBecame_of (e := { s.engine b d with dev := some (deviceFlush w).2 })
          (by simp [blockTask, State.setTask, State.setEngine, deviceFlush, deviceNextAnswer, ha, hc]) hq h rfl rfl ?_
        simp [deviceFlush, deviceNextAnswer, ha, hc]
        try (cases w; simp_all)

/-- R146: a `write` runs its first pass where its preconditions hold. -/
theorem startWrite_of {b : BoardId} {d : Dir} {bytes : List Byte} {who : Caller} {w : Device} {s : State}
    (hdir : s.hasDir b d = true) (hf : s.Free b) (hd : (s.engine b d).dev = some w) (hb : bytes ≠ []) :
    startWrite b d bytes who s = .next (writePass b d bytes who s) := by
  simp [startWrite, withDir_of hdir, onMainLoop_of hf, withDevice_of hd, hb]

/-- R141, R146: when a `write` is taken, and what it then is. -/
theorem startWrite_eq_next {b : BoardId} {d : Dir} {bytes : List Byte} {who : Caller} {s t : State} :
    startWrite b d bytes who s = .next t ↔
      s.hasDir b d = true ∧ s.Free b ∧ (s.engine b d).dev ≠ none ∧
        t = (if bytes = [] then finishWrite b d who .ok s else writePass b d bytes who s) := by
  rw [startWrite, withDir_eq_next, onMainLoop_eq_next, withDevice_eq_next]
  constructor
  · rintro ⟨h1, h2, h3, h4⟩
    refine ⟨h1, h2, h3, ?_⟩
    split at h4 <;> simp_all
  · rintro ⟨h1, h2, h3, h4⟩
    refine ⟨h1, h2, h3, ?_⟩
    split <;> simp_all

/-- R141, R150: when a `flush` is taken, and what it then is. -/
theorem startFlush_eq_next {b : BoardId} {d : Dir} {s t : State} :
    startFlush b d s = .next t ↔
      s.hasDir b d = true ∧ s.Free b ∧ (s.engine b d).dev ≠ none ∧ t = flushTest b d s := by
  rw [startFlush, withDir_eq_next, onMainLoop_eq_next, withDevice_eq_next]
  constructor
  · rintro ⟨h1, h2, h3, h4⟩
    exact ⟨h1, h2, h3, (Host.Outcome.next.inj h4).symm⟩
  · rintro ⟨h1, h2, h3, rfl⟩
    exact ⟨h1, h2, h3, rfl⟩

end Sys2Proof.Machine
end

