-- ==== Sys2Proof/Laws/Moves.lean ====
section
/-! SUPPORT. What an instruction can do to the block, said once: only return, or change one board by one of a few moves,
or the host and the receiver's context. Proofs about every instruction cite `exec_moves`. -/

namespace Sys2Proof.Machine

/-! ## The wire rows -/

theorem exec_ofCommand (c : Command) (s : State) : exec (.ofCommand c) s = runCommand c s := by cases c <;> rfl

theorem exec_ofResponse (r : Response) (s : State) : exec (.ofResponse r) s = runResponse r s := by cases r <;> rfl

theorem exec_ofSide (side : Side) (s : State) : exec (.ofSide side) s = .next (latchSide side s) := by cases side <;> rfl

/-! ## Moves of one board -/

/-- What one operation can do to a board; `has` says which links the board has, `offer` the bytes of the `write` whose pass
the operation runs on each. -/
inductive BoardMove (has : Dir → Bool) (offer : Dir → List Byte) (x : Board) : Board → Prop
  /-- Only buffers and output ports change. -/
  | outputs (acc : PerDir (List Byte)) (cs : List Command) (es : List LocalEvent) (log : List BoardLog) :
      BoardMove has offer x { x with acc := acc, localCmd := cs, localEvent := es, log := log }
  | ring (q : Ring Byte) : (x.ring.Wf → q.Wf) → q.cap = x.ring.cap → BoardMove has offer x { x with ring := q }
  | setDevice (d : Dir) (w : Device) : has d = true → (x.tx.get d).dev = none →
      BoardMove has offer x { x with tx := x.tx.set d { x.tx.get d with dev := some w } }
  | kick (d : Dir) : has d = true → BoardMove has offer x { x with tx := x.tx.set d (x.tx.get d).kick.1 }
  /-- A `write` is begun, behind a local reaction, that has run no pass. -/
  | begun (d : Dir) (rem : List Byte) (who : Caller) (es : List LocalEvent) : has d = true →
      (x.tx.get d).dev ≠ none → rem ≠ [] →
      BoardMove has offer x { x with task := .write d rem .running who, localEvent := es }
  /-- A pass of a `write` that ends it. -/
  | wrote (d : Dir) (log : List BoardLog) : has d = true → (x.tx.get d).dev ≠ none →
      BoardMove has offer x { x with
        tx := x.tx.set d ({ x.tx.get d with rb := ((x.tx.get d).rb.addAll (offer d)).1 } : Txe).kick.1
        task := .idle, log := log }
  /-- A pass of a `write` that leaves bytes to store. -/
  | writes (d : Dir) (rem : List Byte) (ph : Phase) (who : Caller) : has d = true → (x.tx.get d).dev ≠ none →
      rem ≠ [] →
      BoardMove has offer x { x with
        tx := x.tx.set d ({ x.tx.get d with rb := ((x.tx.get d).rb.addAll (offer d)).1 } : Txe).kick.1
        task := .write d rem ph who }
  /-- A test of a `flush` that meets a ring with bytes. -/
  | waits (d : Dir) : has d = true → (x.tx.get d).dev ≠ none →
      BoardMove has offer x { x with task := .flush d .suspending }
  /-- A test of a `flush` that asks the device. -/
  | asked (d : Dir) (w : Device) (tk : Task) : has d = true → (x.tx.get d).dev = some w →
      (x.tx.get d).rb.isEmpty = true → (tk = .idle ∨ tk = .flush d .suspending) →
      BoardMove has offer x { x with tx := x.tx.set d { x.tx.get d with dev := some (deviceFlush w).2 }, task := tk }

/-- Board `b` makes one move, and nothing else changes but the result. -/
def BoardMoved (offer : Dir → List Byte) (b : BoardId) (s t : State) : Prop :=
  ∃ x r, BoardMove (s.hasDir b) offer (s.board b) x ∧ t = { s.setBoard b x with ret := r }

theorem BoardMoved.of_outputs {offer : Dir → List Byte} {b : BoardId} {s t : State} (acc : PerDir (List Byte))
    (cs : List Command) (es : List LocalEvent) (log : List BoardLog) (r : Option Ret)
    (h : t = { s.setBoard b { s.board b with acc := acc, localCmd := cs, localEvent := es, log := log } with ret := r }) :
    BoardMoved offer b s t :=
  ⟨_, r, .outputs acc cs es log, h⟩

/-- A pass of a `write`. -/
theorem writePass_moved {offer : Dir → List Byte} {b : BoardId} {d : Dir} {bytes : List Byte} {who : Caller} {s : State}
    (ho : offer d = bytes) (hdir : s.hasDir b d = true) (hd : (s.engine b d).dev ≠ none) :
    BoardMoved offer b s (writePass b d bytes who s) := by
  subst ho
  unfold writePass
  simp only
  split
  · rename_i e _
    refine ⟨_, some (.result (.err e)), .wrote d
      ((s.board b).log ++ (match who with | .router => [.writeError d e] | .application => [])) hdir hd, ?_⟩
    cases who <;> simp [finishWrite, finishTask, State.returns, State.setTask, State.setEngine, State.boardLog] <;> rfl
  · split
    · refine ⟨_, some (.result .ok), .wrote d (s.board b).log hdir hd, ?_⟩
      cases who <;> simp [finishWrite, finishTask, State.returns, State.setTask, State.setEngine] <;> rfl
    · rename_i hr
      refine ⟨_, none, .writes d _ (if ((s.engine b d).rb.addAll (offer d)).2 = 0 then .suspending else .running) who
        hdir hd hr, ?_⟩
      simp [blockTask, State.setTask, State.setEngine]
      rfl

theorem startWrite_moved {offer : Dir → List Byte} {b : BoardId} {d : Dir} {bytes : List Byte} {who : Caller}
    {s t : State} (ho : offer d = bytes) (h : startWrite b d bytes who s = .next t) : BoardMoved offer b s t := by
  obtain ⟨h1, h2, h3, rfl⟩ := startWrite_eq_next.mp h
  split
  · refine .of_outputs (s.board b).acc (s.board b).localCmd (s.board b).localEvent (s.board b).log
      (some (.result .ok)) ?_
    have hs : s = s.setBoard b { s.board b with acc := (s.board b).acc } := (State.setBoard_board s b).symm
    cases who <;> simp only [finishWrite, finishTask, State.setTask_idle h2.2] <;>
      exact congrArg (State.returns · (.result .ok)) hs
  · exact writePass_moved ho h1 h3

theorem flushTest_moved {offer : Dir → List Byte} {b : BoardId} {d : Dir} {s : State} (hdir : s.hasDir b d = true)
    (hd : (s.engine b d).dev ≠ none) : BoardMoved offer b s (flushTest b d s) := by
  unfold flushTest
  simp only
  split
  · exact ⟨_, none, .waits d hdir hd, rfl⟩
  · rename_i he
    split
    · rename_i hn; exact absurd hn hd
    · rename_i w hw
      have he : (s.engine b d).rb.isEmpty = true := by simpa using he
      have hm := fun tk htk => BoardMove.asked (has := s.hasDir b) (offer := offer) (x := s.board b) d w tk hdir hw he htk
      split
      · exact ⟨_, some (.result .ok), hm _ (.inl rfl),
          by simp [finishTask, State.returns, State.setTask, State.setEngine]; rfl⟩
      · exact ⟨_, none, hm _ (.inr rfl), by simp [blockTask, State.setTask, State.setEngine]; rfl⟩
      · rename_i e _
        exact ⟨_, some (.result (.err (.deviceError e))), hm _ (.inl rfl),
          by simp [finishTask, State.returns, State.setTask, State.setEngine]; rfl⟩

theorem kickEngine_moved {offer : Dir → List Byte} {b : BoardId} {d : Dir} {s : State} (hdir : s.hasDir b d = true) :
    BoardMoved offer b s (kickEngine b d s) :=
  ⟨_, _, .kick d hdir, rfl⟩

theorem onCommand_moved {offer : Dir → List Byte} {b : BoardId} {dc : DirectedCommand} {s t : State}
    (ho : offer .down = forwardedBytes s b .down dc) (h : onCommand b dc s = .next t) : BoardMoved offer b s t := by
  unfold onCommand at h
  split at h
  · obtain ⟨-, h⟩ := onMainLoop_eq_next.mp h
    cases h
    exact .of_outputs _ _ _ _ _ rfl
  · rename_i hs
    split at h
    · exact startWrite_moved (ho.trans (by simp [forwardedBytes, hs])) h
    · obtain ⟨-, h⟩ := onMainLoop_eq_next.mp h
      cases h
      exact .of_outputs _ _ _ _ _ rfl

theorem localReaction_eq (b : BoardId) (r : Response) (s : State) :
    localReaction b r s = s.setBoard b { s.board b with
      localEvent := (s.board b).localEvent ++ (if r = .powerOff then [.powerOffSequence] else []) } := by
  have h : s.setBoard b { s.board b with localEvent := (s.board b).localEvent } = s := State.setBoard_board s b
  cases r <;> simp [localReaction, h]

/-- R234: when `on_response` is taken, and what it then is: the reaction, with the forwarding `write` begun. -/
theorem onResponse_eq_next {b : BoardId} {sr : SideResponse} {s t : State} :
    onResponse b sr s = .next t ↔ s.hasDir b .down = true ∧ s.Free b ∧ (s.engine b .up).dev ≠ none ∧
      t = { s.setBoard b { s.board b with
              localEvent := (s.board b).localEvent ++ (if sr.response = .powerOff then [.powerOffSequence] else [])
              task := .write .up (encSideResponse sr) .running .router } with ret := none } := by
  rw [onResponse, withDir_eq_next, onMainLoop_eq_next, withDevice_eq_next, localReaction_eq]
  simp only [blockTask, State.setTask, State.board_setBoard_same, State.setBoard_setBoard, Host.Outcome.next.injEq]
  exact ⟨fun ⟨a, b, c, e⟩ => ⟨a, b, c, e.symm⟩, fun ⟨a, b, c, e⟩ => ⟨a, b, c, e.symm⟩⟩

theorem onResponse_moved {offer : Dir → List Byte} {b : BoardId} {sr : SideResponse} {s t : State}
    (h : onResponse b sr s = .next t) : BoardMoved offer b s t := by
  obtain ⟨-, -, h3, rfl⟩ := onResponse_eq_next.mp h
  exact ⟨_, none, .begun .up (encSideResponse sr) .router _ rfl h3 (by simp [encSideResponse]), rfl⟩

/-! ## The host -/

/-- What one operation can do to the host: nothing else of the block changes but the result and the receiver's context. -/
def HostMoved (s t : State) : Prop :=
  ∃ h r rx, t = { s with host := h, ret := r, rx := rx }

theorem HostMoved.refl (s : State) : HostMoved s s := ⟨s.host, s.ret, s.rx, rfl⟩

theorem HostMoved.trans {s t u : State} (h : HostMoved s t) (k : HostMoved t u) : HostMoved s u := by
  obtain ⟨h1, r1, x1, rfl⟩ := h
  obtain ⟨h2, r2, x2, rfl⟩ := k
  exact ⟨h2, r2, x2, rfl⟩

theorem HostMoved.link (s : State) (p : Side) (l : HostLink) : HostMoved s (s.setLink p l) := ⟨_, s.ret, s.rx, rfl⟩

theorem HostMoved.log (s : State) (e : HostLog) : HostMoved s (s.hostLog e) := ⟨_, s.ret, s.rx, rfl⟩

theorem HostMoved.returns (s : State) (r : Ret) : HostMoved s (s.returns r) := ⟨s.host, _, s.rx, rfl⟩

theorem transmit_moved (side : Side) (c : Command) (s : State) : HostMoved s (transmit side c s).1 := by
  unfold transmit
  split
  · simp only [dropCommand]
    split
    · exact .refl s
    · exact ⟨_, s.ret, s.rx, rfl⟩
  · exact .link s _ _

theorem transmitTarget_moved (side : Side) (x : Word64) (now : Time) (s : State) :
    HostMoved s (transmitTarget side x now s).1 :=
  (transmit_moved _ _ _).trans (.link _ _ _)

theorem flushPending_moved (side : Side) (now : Time) (s : State) : HostMoved s (flushPending side now s) := by
  unfold flushPending
  split
  · split
    · split
      · rename_i x _ _ _ _ _ s' h
        have := transmitTarget_moved side x now s
        rw [h] at this
        exact this
      · rename_i x _ _ _ _ _ s' k h
        have := transmitTarget_moved side x now s
        rw [h] at this
        exact this.trans (.log _ _)
    · exact .refl s
  · exact .refl s
  · exact .refl s

theorem resolveAtHost_moved (p : Side) (s : State) : HostMoved s (resolveAtHost p s) := by
  unfold resolveAtHost
  simp only
  split
  · exact .link _ _ _
  · exact ⟨_, s.ret, _, rfl⟩
  · exact .link _ _ _
  · exact (HostMoved.link _ _ _).trans (.log _ _)

theorem receiveAtHost_moved (p : Side) (s : State) : HostMoved s (receiveAtHost p s) := by
  unfold receiveAtHost
  simp only
  split
  · exact (HostMoved.link _ _ _).trans (.log _ _)
  · exact (HostMoved.link _ _ _).trans (resolveAtHost_moved _ _)

theorem pollPort_moved (p : Side) (s : State) : HostMoved s (pollPort p s) := by
  unfold pollPort
  split
  · exact receiveAtHost_moved p s
  · exact .refl s

theorem tickStep_moved (st : TickStage) (now : Time) (s : State) : HostMoved s (tickStep st now s) := by
  have hr : HostMoved s (st.run now s) := by
    cases st with
    | send p => exact flushPending_moved p now s
    | receive p => exact pollPort_moved p s
  unfold tickStep
  simp only
  split <;> exact hr.trans ⟨_, _, _, rfl⟩

theorem withClock_moved {now : Time} {k : State → Result} {s t : State} (h : withClock now k s = .next t)
    (hk : ∀ u, k u = .next t → HostMoved u t) : HostMoved s t := by
  obtain ⟨-, h⟩ := withClock_eq_next.mp h
  exact HostMoved.trans ⟨_, s.ret, s.rx, rfl⟩ (hk _ h)

/-! ## Every instruction -/

/-- What an instruction of an owner can do; `offer` as in `BoardMove`, for each board. -/
inductive Moved (o : Owner) (offer : BoardId → Dir → List Byte) (s t : State) : Prop
  | pure (r : Option Ret) : o = .anyone → t = { s with ret := r } → Moved o offer s t
  | board (b : BoardId) : o = .wire ∨ o = .board b → BoardMoved (offer b) b s t → Moved o offer s t
  | host : o = .wire ∨ o = .host → HostMoved s t → Moved o offer s t

theorem runCommand_moved {c : Command} {s t : State} (h : runCommand c s = .next t) :
    Moved .wire (fun b d => instrWrites s b d (.ofCommand c)) s t := by
  refine .board s.rx.cmdAt (.inl rfl) (onCommand_moved ?_ (withWf_eq_next.mp h).2)
  cases c <;> simp [instrWrites, Instr.ofCommand, Instr.val?]

theorem runResponse_moved {offer : BoardId → Dir → List Byte} {r : Response} {s t : State}
    (h : runResponse r s = .next t) : Moved .wire offer s t := by
  have h := (withWf_eq_next.mp h).2
  split at h
  · cases h
    exact .host (.inl rfl) ⟨_, s.ret, s.rx, rfl⟩
  · exact .board _ (.inl rfl) (onResponse_moved h)

theorem withRing_moved {r : RingSel} {f : BoardId → Ring Byte → Result} {s t : State} {offer : BoardId → Dir → List Byte}
    {o : Owner} (h : withRing r f s = .next t) (ho : ∀ b, r = .alone b → o = .board b)
    (hf : ∀ b, ∃ q x, f b (s.ring b) = .next ((s.setRing b q).returns x) ∧ ((s.ring b).Wf → q.Wf) ∧
      q.cap = (s.ring b).cap) : Moved o offer s t := by
  cases r with
  | engine b d => cases h
  | alone b =>
    obtain ⟨q, x, h1, h2, h3⟩ := hf b
    change f b (s.ring b) = _ at h
    rw [h1] at h
    cases h
    exact .board b (.inr (ho b rfl)) ⟨_, some x, .ring q h2 h3, rfl⟩

/-- Every instruction that answers a next state makes one move, of its owner. -/
theorem exec_moves {i : Instr} {s t : State} (h : exec i s = .next t) :
    Moved (ownerOf i) (fun b d => instrWrites s b d i) s t := by
  cases i
  case setSideLed | setOrangeLed | setRedLed | setGreenLed | addBuzzerNote | reportBattery | reportCharger
      | setMaxTorque | setSpringConstant | setTarget | removeTarget | recenter | incrementTarget | decrementTarget
      | powerOff | testMotor =>
    simp only [exec, execSetSideLed, execSetOrangeLed, execSetRedLed, execSetGreenLed, execAddBuzzerNote,
      execReportBattery, execReportCharger, execSetMaxTorque, execSetSpringConstant, execSetTarget, execRemoveTarget,
      execRecenter, execIncrementTarget, execDecrementTarget, execPowerOff, execTestMotor] at h
    exact runCommand_moved h
  case position | batteryReadings | chargeState | log | powerOffResponse =>
    simp only [exec, execPosition, execBatteryReadings, execChargeState, execLog, execPowerOffResponse] at h
    exact runResponse_moved h
  case sideLeft | sideRight => cases h; exact .host (.inl rfl) ⟨s.host, s.ret, _, rfl⟩
  case rbAdd r x =>
    simp only [exec, execRbAdd] at h
    exact withRing_moved h (fun b hb => by subst hb; rfl) fun b =>
      ⟨_, _, rfl, fun w => Ring.add_wf w x, Ring.add_cap _ _⟩
  case rbAddAll r xs =>
    simp only [exec, execRbAddAll] at h
    exact withRing_moved h (fun b hb => by subst hb; rfl) fun b =>
      ⟨_, _, rfl, fun w => Ring.addAll_wf w xs, Ring.addAll_cap _ _⟩
  case rbTake r =>
    simp only [exec, execRbTake] at h
    exact withRing_moved h (fun b hb => by subst hb; rfl) fun b => ⟨_, _, rfl, Ring.take_wf, Ring.take_cap _⟩
  case rbPeek r | rbIsEmpty r | rbIsFull r =>
    simp only [exec, execRbPeek, execRbIsEmpty, execRbIsFull] at h
    exact withRing_moved h (fun b hb => by subst hb; rfl) fun b =>
      ⟨s.ring b, _, by rw [State.setRing_ring], id, rfl⟩
  case txSetDevice b d w =>
    obtain ⟨h1, h⟩ := withDir_eq_next.mp h
    obtain ⟨h2, h⟩ := onMainLoop_eq_next.mp h
    split at h
    · cases h
    · rename_i hn
      cases h
      exact .board b (.inr rfl) ⟨_, some .unit, .setDevice d w h1 hn, rfl⟩
  case txKick b d | txTryWrite b d =>
    simp only [exec, execTxKick, execTxTryWrite] at h
    obtain ⟨h1, h⟩ := withDir_eq_next.mp h
    cases h
    exact .board b (.inr rfl) (kickEngine_moved h1)
  case txWrite b d bytes => exact .board b (.inr rfl) (startWrite_moved (by simp [instrWrites]) h)
  case txFlush b d =>
    obtain ⟨h1, -, h3, rfl⟩ := startFlush_eq_next.mp h
    exact .board b (.inr rfl) (flushTest_moved h1 h3)
  case codecParseBody | codecDecodeBody | codecParseDirected | codecDecodeDirected | codecParseLog =>
    cases h
    exact .pure _ rfl rfl
  case codecEncode | codecEncDirected =>
    have h := (withWf_eq_next.mp h).2
    cases h
    exact .pure _ rfl rfl
  case linkIngest a bytes =>
    cases a with
    | host p => cases h; exact .host (.inr rfl) ((HostMoved.link _ _ _).trans (.returns _ _))
    | board b d =>
      obtain ⟨-, h⟩ := withDir_eq_next.mp h
      obtain ⟨-, h⟩ := onMainLoop_eq_next.mp h
      cases h
      exact .board b (.inr rfl) (.of_outputs _ _ _ _ _ rfl)
  case linkResolveOnce a map =>
    cases a with
    | host p => cases h; exact .host (.inr rfl) ((HostMoved.link _ _ _).trans (.returns _ _))
    | board b d =>
      obtain ⟨-, h⟩ := withDir_eq_next.mp h
      obtain ⟨-, h⟩ := onMainLoop_eq_next.mp h
      cases h
      exact .board b (.inr rfl) (.of_outputs _ _ _ _ _ rfl)
  case routerOnCommand b dc => exact .board b (.inr rfl) (onCommand_moved (by simp [instrWrites]) (withWf_eq_next.mp h).2)
  case routerLocalDispatch b c | routerCannotForward b dc =>
    obtain ⟨-, h⟩ := onMainLoop_eq_next.mp (withWf_eq_next.mp h).2
    cases h
    exact .board b (.inr rfl) (.of_outputs _ _ _ _ _ rfl)
  case routerLocalReaction b r =>
    obtain ⟨-, h⟩ := onMainLoop_eq_next.mp (withWf_eq_next.mp h).2
    cases h
    rw [localReaction_eq]
    exact .board b (.inr rfl) (.of_outputs _ _ _ _ _ rfl)
  case routerForwardCommand b dc => exact .board b (.inr rfl) (startWrite_moved (by simp [instrWrites]) (withWf_eq_next.mp h).2)
  case routerOnResponse b sr => exact .board b (.inr rfl) (onResponse_moved (withWf_eq_next.mp h).2)
  case routerSendResponse b r => exact .board b (.inr rfl) (startWrite_moved (by simp [instrWrites]) (withWf_eq_next.mp h).2)
  case hostSelectPort side => cases h; exact .host (.inr rfl) (.returns _ _)
  case hostTransmit side c =>
    have h := (withWf_eq_next.mp h).2
    cases h
    exact .host (.inr rfl) ((transmit_moved _ _ _).trans (.returns _ _))
  case hostSendCommand side c now =>
    refine .host (.inr rfl) (withClock_moved (withWf_eq_next.mp h).2 fun u hu => ?_)
    cases hu
    refine HostMoved.trans ?_ (.returns _ _)
    unfold sendCommand
    simp only
    split
    · exact (transmit_moved _ _ _).trans (.link _ _ _)
    · exact transmit_moved _ _ _
  case hostTransmitTarget side x now =>
    simp only [exec, execHostTransmitTarget] at h
    refine .host (.inr rfl) (withClock_moved h fun u hu => ?_)
    cases hu
    exact (transmitTarget_moved _ _ _ _).trans (.returns _ _)
  case hostSetTarget side x now =>
    simp only [exec, execHostSetTarget] at h
    refine .host (.inr rfl) (withClock_moved h fun u hu => ?_)
    cases hu
    refine HostMoved.trans ?_ (.returns _ _)
    unfold setTarget
    split
    · exact transmitTarget_moved _ _ _ _
    · exact .link _ _ _
  case hostReceive p =>
    change (if _ then _ else _) = _ at h
    split at h
    · cases h
      exact .host (.inr rfl) ((receiveAtHost_moved _ _).trans (.returns _ _))
    · cases h
  case hostTick now =>
    simp only [exec, execHostTick] at h
    refine .host (.inr rfl) (withClock_moved (withHostFree_eq_next.mp h).2 fun u hu => ?_)
    cases hu
    exact tickStep_moved _ _ _

end Sys2Proof.Machine
end

