-- ==== Sys2Proof/Laws/Receive.lean ====
section
/-! SUPPORT. What the three parts of a receive step are (R214, R215, R216), and how long a buffer that waits for more bytes
can be (R217). -/

namespace Sys2Proof.Machine

/-- R216: a free main loop takes a received byte into the buffer. -/
theorem receiveByte_of {s : State} {b : BoardId} {d : Dir} {x : Byte} {xs : List Byte} (hf : s.Free b)
    (hd : s.hasDir b d = true) (hx : (s.board b).rxq.get d = x :: xs) :
    receiveByte b d s = (s.withReceive b d xs ((s.board b).acc.get d ++ [x])).setTask b (.resolve d) := by
  have hf' : s.mainLoopFree b = true := by simp [State.mainLoopFree, State.mainLoopRuns, hf.1, hf.2]
  simp only [receiveByte, hf', hd, hx, Bool.and_self, if_true]
  simp [ingest, State.setAcc, State.setBoardAcc, State.withReceive, State.acc]

theorem runSideTag_sideTag (side : Side) (t : List Byte) (s : State) :
    runSideTag (sideTag side :: t) s = .next (latchSide side s) := by
  simp [runSideTag, decodeSide, sideOf_sideTag, exec_ofSide]

/-- A side tag at the head of a buffer changes the receiver's context alone. -/
theorem runSideTag_next (acc : List Byte) (s : State) : ∃ rx, runSideTag acc s = .next { s with rx := rx } := by
  unfold runSideTag decodeSide
  split
  · rename_i i n hd
    split at hd
    · cases hd
    · split at hd
      · cases hd
      · cases hd
        exact ⟨_, exec_ofSide _ _⟩
  · exact ⟨s.rx, rfl⟩
  · exact ⟨s.rx, rfl⟩

/-- A directed message begins with its side tag. -/
theorem parseDirected_ok_side {m : Nat} {map : MsgMap} {bytes : List Byte} {v : Directed} {n : Nat}
    (h : parseDirected m map bytes = .ok v n) : ∃ t, bytes = sideTag v.side :: t := by
  cases bytes with
  | nil => cases h
  | cons x t =>
    simp only [parseDirected] at h
    split at h
    · cases h
    · rename_i side hs
      split at h <;> cases h
      exact ⟨t, by rw [Directed.side_of, sideTag_of_sideOf hs]⟩

/-- R216: acting on a message is running it where it arrived. -/
theorem settle_message {s : State} {b : BoardId} {d : Dir} {bytes : List Byte} {v : Directed} {n : Nat}
    (h : parseDirected s.cfg.logMax (mapOf d) bytes = .ok v n) :
    settle b d bytes s = exec (.ofVal v.val) { s.setTask b .idle with rx := s.rx.onBoard b d v.side } := by
  obtain ⟨t, rfl⟩ := parseDirected_ok_side h
  simp only [settle, runSideTag_sideTag, andThen_next, resolveHead, h]
  cases d <;> rfl

/-- R218: acting on a decode error is logging it. -/
theorem settle_error {s : State} {b : BoardId} {d : Dir} {bytes : List Byte} {k : ErrKind} {c : Option Nat}
    (h : parseDirected s.cfg.logMax (mapOf d) bytes = .err k c) :
    ∃ rx, settle b d bytes s =
      .next { s.setBoard b { s.board b with
        task := .idle
        log := (s.board b).log ++ [.decodeError d k (match c with | some n => bytes.take n | none => bytes)] } with
        rx := rx } := by
  obtain ⟨rx, hrx⟩ := runSideTag_next bytes ((s.setTask b .idle).arrivesAt b d)
  refine ⟨rx, ?_⟩
  simp only [settle, hrx, andThen_next, resolveHead, h]
  cases b <;> cases c <;> cases d <;> rfl

/-- What acting on resolved bytes can be: the run of an instruction, or nothing but a log event. -/
theorem settle_cases {s t : State} {b : BoardId} {d : Dir} {bytes : List Byte} (h : settle b d bytes s = .next t) :
    (∃ v n, parseDirected s.cfg.logMax (mapOf d) bytes = .ok v n ∧
      exec (.ofVal v.val) { s.setTask b .idle with rx := s.rx.onBoard b d v.side } = .next t) ∨
    ∃ rx log, t = { s.setBoard b { s.board b with task := .idle, log := log } with rx := rx } := by
  rcases hp : parseDirected s.cfg.logMax (mapOf d) bytes with _ | ⟨v, n⟩ | ⟨k, c⟩
  · obtain ⟨rx, hrx⟩ := runSideTag_next bytes ((s.setTask b .idle).arrivesAt b d)
    simp only [settle, hrx, andThen_next, resolveHead, hp] at h
    cases h
    exact .inr ⟨rx, (s.board b).log, by cases d <;> rfl⟩
  · exact .inl ⟨v, n, rfl, settle_message hp ▸ h⟩
  · obtain ⟨rx, hrx⟩ := settle_error (b := b) hp
    rw [hrx] at h
    cases h
    exact .inr ⟨rx, _, rfl⟩

/-- R194, R195: a verdict reached with the last byte settles the whole buffer. -/
theorem resolveHead_last {m : Nat} {map : MsgMap} {p : List Byte} {x : Byte} (h : parseDirected m map p = .incomplete)
    (hp : parseDirected m map (p ++ [x]) ≠ .incomplete) : (resolveHead m map (p ++ [x])).2 = [] := by
  have whole : ∀ n, n ≤ (p ++ [x]).length → parseDirected m map ((p ++ [x]).take n) ≠ .incomplete →
      (p ++ [x]).drop n = [] := fun n hn hv => by
    rw [List.drop_eq_nil_iff]
    by_contra hlt
    have hle : n ≤ p.length := by simp at hlt hn; omega
    rw [List.take_append_of_le_length hle] at hv
    have := parseDirected_append (p.drop n) hv
    rw [List.take_append_drop, h] at this
    exact hv this.symm
  unfold resolveHead
  rcases hq : parseDirected m map (p ++ [x]) with _ | ⟨v, n⟩ | ⟨k, _ | c⟩
  · exact absurd hq hp
  · obtain ⟨h1, rfl, h3, h4⟩ := parseDirected_ok hq
    refine whole n h3 ?_
    have := parseDirected_encDirected h1 []
    rw [List.append_nil, h4] at this
    simp [this]
  · rfl
  · obtain ⟨h1, h2⟩ := parseDirected_err_take hq
    exact whole c h1 (by simp [h2])

/-- R215, R216: what `resolve_once` leaves of a buffer whose last byte was just taken. -/
theorem resolveAtBoard_last {s : State} {b : BoardId} {d : Dir} {p : List Byte} {x : Byte}
    (ha : (s.board b).acc.get d = p ++ [x]) (h : parseDirected s.cfg.logMax (mapOf d) p = .incomplete) :
    resolveAtBoard b d s =
      if parseDirected s.cfg.logMax (mapOf d) (p ++ [x]) = .incomplete then s.setTask b .idle
      else (s.setBoardAcc b d []).setTask b (.settle d (p ++ [x])) := by
  have hsame : s.setBoardAcc b d (p ++ [x]) = s := by
    rw [State.setBoardAcc, ← ha, PerDir.set_get]
    exact State.setBoard_board s b
  simp only [resolveAtBoard, ha]
  by_cases hq : parseDirected s.cfg.logMax (mapOf d) (p ++ [x]) = .incomplete
  · simp [resolveHead, hq, hsame]
  · rw [if_neg hq]
    have hl := resolveHead_last h hq
    rw [hl]
    rcases hv : parseDirected s.cfg.logMax (mapOf d) (p ++ [x]) with _ | ⟨v, n⟩ | ⟨k, _ | c⟩
    · exact absurd hv hq
    · simp [resolveHead, hv, List.take_of_length_le (l := p ++ [x]) (i := p.length + 1) (by simp)]
    · simp [resolveHead, hv]
    · simp only [resolveHead, hv, List.drop_eq_nil_iff] at hl
      simp [resolveHead, hv, List.take_of_length_le hl]

theorem scanFields_incomplete_length {cs : List Coding} {s : List Byte} (h : scanFields cs s = .incomplete) :
    s.length < (cs.map Coding.width).sum := by
  induction cs generalizing s with
  | nil => cases h
  | cons c cs ih =>
    simp only [scanFields] at h
    split at h
    · simp; omega
    · split at h
      · cases h
      · split at h
        · rename_i he
          have := ih he
          simp only [List.length_drop, List.map_cons, List.sum_cons] at this ⊢
          omega
        · cases h
        · cases h

/-- R217: the longest string that waits for more bytes. -/
theorem parseDirected_incomplete_length {m : Nat} {map : MsgMap} {s : List Byte}
    (h : parseDirected m map s = .incomplete) : s.length ≤ waitingBound m := by
  cases s with
  | nil => simp
  | cons t rest =>
    simp only [parseDirected] at h
    split at h
    · cases h
    · have hb : parseBody m map rest = .incomplete := by split at h <;> first | assumption | cases h
      cases rest with
      | nil => simp [waitingBound, longestFixedBody]
      | cons b r =>
        simp only [parseBody] at hb
        split at hb
        · cases hb
        · rename_i rw _
          split at hb
          · have := parseLog_incomplete hb
            simp only [List.length_cons, waitingBound]
            omega
          · have hf : scanFields rw.format.fields r = .incomplete := by split at hb <;> first | assumption | cases hb
            have := scanFields_incomplete_length hf
            have : (rw.format.fields.map Coding.width).sum ≤ 8 := by
              cases rw.format <;> simp [Format.fields, Coding.width]
            simp only [List.length_cons, waitingBound, longestFixedBody]
            omega

end Sys2Proof.Machine
end

