-- ==== Sys2Proof/Laws/Steps.lean ====
section
/-! SUPPORT. What one step can do to a transmit engine, said once (R61): an operation's move, or one of the device's. -/

namespace Sys2Proof.Machine

/-- What an operation can do to an engine: nothing, set the device, kick, store bytes of the `write` it runs a pass of
and kick, or ask the device to flush. -/
inductive EngineMove (offer : List Byte) (t : Txe) : Txe → Prop
  | same : EngineMove offer t t
  | setDevice (w : Device) : t.dev = none → EngineMove offer t { t with dev := some w }
  | kick : EngineMove offer t t.kick.1
  | pass : EngineMove offer t ({ t with rb := (t.rb.addAll offer).1 } : Txe).kick.1
  | asked (w : Device) : t.dev = some w → t.rb.isEmpty = true →
      EngineMove offer t { t with dev := some (deviceFlush w).2 }

/-- The move of one engine of a board, for a change of one of its engines. -/
theorem EngineMove.of_set {offer : Dir → List Byte} {x : Board} {e : Dir} {t : Txe}
    (h : EngineMove (offer e) (x.tx.get e) t) (d : Dir) : EngineMove (offer d) (x.tx.get d) ((x.tx.set e t).get d) := by
  rw [PerDir.get_set]
  split
  · subst d; exact h
  · exact .same

theorem BoardMove.engine {has : Dir → Bool} {offer : Dir → List Byte} {x y : Board} (h : BoardMove has offer x y)
    (d : Dir) : EngineMove (offer d) (x.tx.get d) (y.tx.get d) := by
  cases h with
  | outputs => exact .same
  | ring => exact .same
  | setDevice e w _ hn => exact EngineMove.of_set (.setDevice w hn) d
  | kick e _ => exact EngineMove.of_set .kick d
  | begun => exact .same
  | wrote e => exact EngineMove.of_set .pass d
  | writes e => exact EngineMove.of_set .pass d
  | waits => exact .same
  | asked e w _ _ h1 h2 _ => exact EngineMove.of_set (.asked w h1 h2) d

theorem engine_setBoard {s : State} {b : BoardId} {x : Board} (h : x.tx = (s.board b).tx) (c : BoardId) (d : Dir) :
    (s.setBoard b x).engine c d = s.engine c d := by
  simp only [State.engine, State.board_setBoard]
  split
  · subst c; rw [h]
  · rfl

theorem line_setBoard {s : State} {b : BoardId} {x : Board} (h : x.line = (s.board b).line) (c : BoardId) :
    ((s.setBoard b x).board c).line = (s.board c).line := by
  simp only [State.board_setBoard]
  split
  · subst c; rw [h]
  · rfl

/-- The engines and the outgoing links of the boards, before and after. -/
abbrev EnginesMoved (offer : BoardId → Dir → List Byte) (s t : State) : Prop :=
  ∀ c d, EngineMove (offer c d) (s.engine c d) (t.engine c d) ∧ (t.board c).line = (s.board c).line

theorem EnginesMoved.of_boards {offer : BoardId → Dir → List Byte} {s t : State} (h : t.boards = s.boards) :
    EnginesMoved offer s t := fun c d => by
  have hb : t.board c = s.board c := by simp [State.board, h]
  rw [State.engine, State.engine, hb]
  exact ⟨.same, rfl⟩

/-- A move of one board, which leaves the other's engines. -/
theorem BoardMoved.engines {o : Dir → List Byte} {offer : BoardId → Dir → List Byte} {b : BoardId} {s t : State}
    (h : BoardMoved o b s t) (ho : offer b = o) : EnginesMoved offer s t := fun c d => by
  obtain ⟨x, r, hx, rfl⟩ := h
  show EngineMove _ _ (((s.setBoard b x).board c).tx.get d) ∧ ((s.setBoard b x).board c).line = _
  rw [State.board_setBoard]
  split
  · subst c; subst ho; exact ⟨hx.engine d, by cases hx <;> rfl⟩
  · exact ⟨.same, rfl⟩

theorem exec_engines {i : Instr} {s t : State} (h : exec i s = .next t) :
    EnginesMoved (fun b d => instrWrites s b d i) s t := by
  cases exec_moves h with
  | pure r _ h1 => subst h1; exact .of_boards rfl
  | host _ hh => obtain ⟨h', r, rx, rfl⟩ := hh; exact .of_boards rfl
  | board b _ hb => exact hb.engines rfl

/-- No instruction changes the parameters or the schedule. -/
theorem exec_cfg {i : Instr} {s t : State} (h : exec i s = .next t) : t.cfg = s.cfg ∧ t.schedule = s.schedule := by
  cases exec_moves h with
  | pure r _ h1 => subst h1; exact ⟨rfl, rfl⟩
  | host _ hh => obtain ⟨h', r, rx, rfl⟩ := hh; exact ⟨rfl, rfl⟩
  | board b _ hb => obtain ⟨x, r, hx, rfl⟩ := hb; exact ⟨rfl, rfl⟩

/-- No instruction enters or leaves a handler. -/
theorem exec_inHandler {i : Instr} {s t : State} (h : exec i s = .next t) (b : BoardId) :
    (t.board b).inHandler = (s.board b).inHandler := by
  cases exec_moves h with
  | pure r _ h1 => subst h1; rfl
  | host _ hh => obtain ⟨h', r, rx, rfl⟩ := hh; rfl
  | board c _ hb =>
    obtain ⟨x, r, hx, rfl⟩ := hb
    show ((s.setBoard c x).board b).inHandler = _
    rw [State.board_setBoard]
    split
    · subst b; cases hx <;> rfl
    · rfl

/-- An agent's request that is taken runs the operation, which is one of its own station or a pure function. -/
theorem callAs_next {o : Owner} {i : Instr} {s t : State} (h : callAs o i s = .next t) :
    exec i s = .next t ∧ (ownerOf i = .anyone ∨ ownerOf i = o) := by
  unfold callAs at h
  split at h
  · cases h
  · exact ⟨h, .inl ‹_›⟩
  · split at h
    · exact ⟨h, .inr (by simp_all)⟩
    · cases h
  · split at h
    · exact ⟨h, .inr (by simp_all)⟩
    · cases h

/-- R237: when `on_command` is taken, its board's main loop is free. -/
theorem onCommand_free {b : BoardId} {dc : DirectedCommand} {s t : State} (h : onCommand b dc s = .next t) : s.Free b := by
  unfold onCommand at h
  split at h
  · exact (onMainLoop_eq_next.mp h).1
  · split at h
    · exact (startWrite_eq_next.mp h).2.1
    · exact (onMainLoop_eq_next.mp h).1

/-- An instruction that runs a pass of a `write` on a board needs that board's main loop. -/
theorem exec_write_free {i : Instr} {s t : State} {b : BoardId} {d : Dir} (h : exec i s = .next t)
    (hw : instrWrites s b d i ≠ []) : s.Free b := by
  have wire : ∀ {c : Command}, i = .ofCommand c → s.Free b := fun {c} hi => by
    subst hi
    rw [exec_ofCommand] at h
    have hb : s.rx.cmdAt = b := by
      by_contra hn
      cases c <;> simp [instrWrites, Instr.ofCommand, Instr.val?, hn] at hw
    exact hb ▸ onCommand_free (withWf_eq_next.mp h).2
  unfold instrWrites at hw
  split at hw
  · split at hw
    · rename_i hc; exact hc.1 ▸ (startWrite_eq_next.mp h).2.1
    · exact absurd rfl hw
  · split at hw
    · rename_i hc; exact hc.1 ▸ (startWrite_eq_next.mp (withWf_eq_next.mp h).2).2.1
    · exact absurd rfl hw
  · split at hw
    · rename_i hc; exact hc ▸ onCommand_free (withWf_eq_next.mp h).2
    · exact absurd rfl hw
  · split at hw
    · rename_i hc; exact hc.1 ▸ (startWrite_eq_next.mp (withWf_eq_next.mp h).2).2.1
    · exact absurd rfl hw
  · split at hw
    · rename_i c hc
      refine wire (c := c) ?_
      cases i <;> cases hc <;> rfl
    · exact absurd rfl hw
    · exact absurd rfl hw

/-- A move of one board leaves the other. -/
theorem BoardMoved.other {offer : Dir → List Byte} {b c : BoardId} {s t : State} (h : BoardMoved offer b s t)
    (hc : c ≠ b) : t.board c = s.board c := by
  obtain ⟨x, r, -, rfl⟩ := h
  exact (State.board_setBoard s b c x).trans (if_neg hc)

/-- An operation of a board moves that board. -/
theorem exec_boardMoved {i : Instr} {s t : State} {b : BoardId} (h : exec i s = .next t) (ho : ownerOf i = .board b) :
    BoardMoved (fun d => instrWrites s b d i) b s t := by
  cases exec_moves h with
  | pure r h1 _ => rw [ho] at h1; cases h1
  | host h1 _ => rcases h1 with h1 | h1 <;> rw [ho] at h1 <;> cases h1
  | board c h1 hm =>
    have hc : c = b := by rcases h1 with h1 | h1 <;> rw [ho] at h1 <;> cases h1; rfl
    exact hc ▸ hm

/-- What a board's main loop is in, and its accumulation buffers. -/
abbrev MainLoopKept (s t : State) (b : BoardId) : Prop :=
  (t.board b).task = (s.board b).task ∧ (t.board b).acc = (s.board b).acc

/-- R297, R25: while a board's main loop is not free, no instruction changes what it is in or its buffers. -/
theorem exec_busy {i : Instr} {s t : State} {b : BoardId} (h : exec i s = .next t) (hf : ¬s.Free b) :
    MainLoopKept s t b := by
  have free : ∀ {c : BoardId} {offer : Dir → List Byte}, s.Free c → BoardMoved offer c s t → MainLoopKept s t b :=
    fun {c} _ hc hm => by
      have hb : b ≠ c := fun hb => hf (hb.symm ▸ hc)
      rw [MainLoopKept, hm.other hb]
      exact ⟨rfl, rfl⟩
  have own : ∀ {c : BoardId}, ownerOf i = .board c → s.Free c → MainLoopKept s t b := fun ho hc =>
    free hc (exec_boardMoved h ho)
  have host : ∀ {u : State}, HostMoved s u → MainLoopKept s u b := fun hh => by
    obtain ⟨x, r, rx, rfl⟩ := hh; exact ⟨rfl, rfl⟩
  have wireCommand : ∀ {c : Command}, runCommand c s = .next t → MainLoopKept s t b := fun hc => by
    have hc := (withWf_eq_next.mp hc).2
    exact free (onCommand_free hc) (onCommand_moved (offer := fun _ => forwardedBytes s s.rx.cmdAt .down _) rfl hc)
  have wireResponse : ∀ {r : Response}, runResponse r s = .next t → MainLoopKept s t b := fun hr => by
    have hr := (withWf_eq_next.mp hr).2
    split at hr
    · cases hr; exact ⟨rfl, rfl⟩
    · exact free (onResponse_eq_next.mp hr).2.1 (onResponse_moved (offer := fun _ => []) hr)
  have kick : ∀ {c : BoardId} {d : Dir}, MainLoopKept s (kickEngine c d s) b := fun {c d} => by
    simp only [MainLoopKept, kickEngine, State.returns_board, State.setEngine, State.board_setBoard]
    split
    · rename_i hc; subst hc; exact ⟨rfl, rfl⟩
    · exact ⟨rfl, rfl⟩
  have ring : ∀ {r : RingSel} {f : Machine.Ring Byte → Machine.Ring Byte} {g : Machine.Ring Byte → Ret},
      withRing r (fun c q => .next ((s.setRing c (f q)).returns (g q))) s = .next t → MainLoopKept s t b :=
    fun {r f g} hr => by
      cases r with
      | engine => cases hr
      | alone c =>
        cases hr
        simp only [MainLoopKept, State.returns_board, State.setRing, State.board_setBoard]
        split
        · rename_i hc; subst hc; exact ⟨rfl, rfl⟩
        · exact ⟨rfl, rfl⟩
  cases i
  case setSideLed | setOrangeLed | setRedLed | setGreenLed | addBuzzerNote | reportBattery | reportCharger
      | setMaxTorque | setSpringConstant | setTarget | removeTarget | recenter | incrementTarget | decrementTarget
      | powerOff | testMotor =>
    simp only [exec, execSetSideLed, execSetOrangeLed, execSetRedLed, execSetGreenLed, execAddBuzzerNote,
      execReportBattery, execReportCharger, execSetMaxTorque, execSetSpringConstant, execSetTarget, execRemoveTarget,
      execRecenter, execIncrementTarget, execDecrementTarget, execPowerOff, execTestMotor] at h
    exact wireCommand h
  case position | batteryReadings | chargeState | log | powerOffResponse =>
    simp only [exec, execPosition, execBatteryReadings, execChargeState, execLog, execPowerOffResponse] at h
    exact wireResponse h
  case sideLeft | sideRight => cases h; exact ⟨rfl, rfl⟩
  case rbAdd r x => exact ring (f := fun q => (q.add x).1) (g := fun q => .flag (q.add x).2) h
  case rbAddAll r xs => exact ring (f := fun q => (q.addAll xs).1) (g := fun q => .count (q.addAll xs).2) h
  case rbTake r => exact ring (f := fun q => q.take.1) (g := fun q => .item q.take.2) h
  case rbPeek r | rbIsEmpty r | rbIsFull r =>
    cases r <;> cases h
    exact ⟨rfl, rfl⟩
  case txSetDevice c d w => exact own rfl (onMainLoop_eq_next.mp (withDir_eq_next.mp h).2).1
  case txKick c d | txTryWrite c d =>
    simp only [exec, execTxKick, execTxTryWrite] at h
    have h := (withDir_eq_next.mp h).2
    cases h
    exact kick
  case txWrite c d bytes => exact own rfl (startWrite_eq_next.mp h).2.1
  case txFlush c d => exact own rfl (startFlush_eq_next.mp h).2.1
  case codecParseBody | codecDecodeBody | codecParseDirected | codecDecodeDirected | codecParseLog =>
    cases h; exact ⟨rfl, rfl⟩
  case codecEncode | codecEncDirected =>
    have h := (withWf_eq_next.mp h).2
    cases h; exact ⟨rfl, rfl⟩
  case linkIngest a bytes =>
    cases a with
    | host p => cases h; exact ⟨rfl, rfl⟩
    | board c d => exact own rfl (onMainLoop_eq_next.mp (withDir_eq_next.mp h).2).1
  case linkResolveOnce a map =>
    cases a with
    | host p => cases h; exact ⟨rfl, rfl⟩
    | board c d => exact own rfl (onMainLoop_eq_next.mp (withDir_eq_next.mp h).2).1
  case routerOnCommand c dc => exact own rfl (onCommand_free (withWf_eq_next.mp h).2)
  case routerLocalDispatch | routerCannotForward | routerLocalReaction =>
    exact own rfl (onMainLoop_eq_next.mp (withWf_eq_next.mp h).2).1
  case routerForwardCommand c dc => exact own rfl (startWrite_eq_next.mp (withWf_eq_next.mp h).2).2.1
  case routerOnResponse c sr => exact own rfl (onResponse_eq_next.mp (withWf_eq_next.mp h).2).2.1
  case routerSendResponse c r => exact own rfl (startWrite_eq_next.mp (withWf_eq_next.mp h).2).2.1
  case hostSelectPort | hostTransmit | hostSendCommand | hostTransmitTarget | hostSetTarget | hostReceive | hostTick =>
    cases exec_moves h with
    | pure r h1 _ => cases h1
    | board c h1 _ => rcases h1 with h1 | h1 <;> cases h1
    | host _ hh => exact host hh

/-- What a board's main loop is in changes only through that main loop, and then only by waking (R295), where a handler
runs. -/
theorem takeInterrupt_kept {b c : BoardId} {seen : Bool} {k : State → Result} {s t : State}
    (h : takeInterrupt b seen k s = .next t)
    (hk : ∀ u v, k u = .next v → v = u ∨ ∃ i, exec i u = .next v ∧ (ownerOf i = .anyone ∨ ownerOf i = .board b)) :
    (t.board c).acc = (s.board c).acc ∧
      (t.board c).task = if c = b then (s.board c).task.wake seen else (s.board c).task := by
  obtain ⟨v, hv, h⟩ := andThen_eq_next.mp h
  cases h
  have entered : ∀ a, MainLoopKept s (enterHandler b s) a := fun a => by
    simp only [MainLoopKept, enterHandler, State.board_setBoard]
    split
    · rename_i ha; subst ha; exact ⟨rfl, rfl⟩
    · exact ⟨rfl, rfl⟩
  have kept : ∀ a, MainLoopKept s v a := fun a => by
    rcases hk _ _ hv with rfl | ⟨i, hi, ho⟩
    · exact entered a
    · by_cases hab : a = b
      · subst hab
        have hb : ¬(enterHandler a s).Free a := by simp [State.Free, enterHandler]
        have := exec_busy hi hb
        exact ⟨this.1.trans (entered a).1, this.2.trans (entered a).2⟩
      · rcases ho with ho | ho
        · cases exec_moves hi with
          | pure r _ h1 => subst h1; exact entered a
          | board _ h1 _ => rcases h1 with h1 | h1 <;> rw [ho] at h1 <;> cases h1
          | host h1 _ => rcases h1 with h1 | h1 <;> rw [ho] at h1 <;> cases h1
        · rw [MainLoopKept, (exec_boardMoved hi ho).other hab]
          exact entered a
  simp only [leaveHandler, State.board_setBoard]
  split
  · rename_i hc; subst hc; exact ⟨(kept c).2, by rw [(kept c).1]⟩
  · exact ⟨(kept c).2, (kept c).1⟩

theorem continueTask_engines {offer : BoardId → Dir → List Byte} {b : BoardId} {s : State} (ht : s.TaskWf b)
    (ho : ∀ d rem who, (s.board b).task = .write d rem .running who → offer b d = rem) :
    EnginesMoved offer s (continueTask b s) := by
  have task : ∀ u, EnginesMoved offer s (s.setTask b u) := fun u c d =>
    ⟨by rw [State.setTask_engine]; exact .same, line_setBoard (by rfl) c⟩
  unfold continueTask
  unfold State.TaskWf at ht
  split <;> rename_i he <;> simp only [he] at ht
  · exact .of_boards rfl
  · exact .of_boards rfl
  · exact .of_boards rfl
  · exact (writePass_moved (offer := offer b) (ho _ _ _ he) ht.1 ht.2.1).engines rfl
  · exact task _
  · exact .of_boards rfl
  · exact (flushTest_moved (offer := offer b) ht.1 ht.2).engines rfl
  · exact task _
  · exact .of_boards rfl

/-- What a step can do to one engine: an operation's move; its device becomes ready, is given an answer to come, or puts
its oldest byte onto the link. -/
inductive EngineStepped (offer : List Byte) (s t : State) (b : BoardId) (d : Dir) : Prop
  | moved : EngineMove offer (s.engine b d) (t.engine b d) → EngineStepped offer s t b d
  | completed (w : Device) : (s.engine b d).dev = some w →
      t.engine b d = { s.engine b d with dev := some { w with ready := true } } → EngineStepped offer s t b d
  | answered (w : Device) (a : Option DevError) : (s.engine b d).dev = some w →
      t.engine b d = { s.engine b d with dev := some { w with answers := w.answers ++ [a] } } → EngineStepped offer s t b d
  | emitted (w : Device) (x : Byte) (xs : List Byte) : (s.engine b d).dev = some w → w.out = x :: xs →
      t.engine b d = { s.engine b d with dev := some { w with out := xs } } →
      (t.board b).line.get d = (s.board b).line.get d ++ [x] → EngineStepped offer s t b d

theorem EngineStepped.refl {offer : List Byte} (s : State) (b : BoardId) (d : Dir) : EngineStepped offer s s b d := .moved .same

theorem EngineStepped.of_engine {offer : List Byte} {s t : State} {b : BoardId} {d : Dir} (h : t.engine b d = s.engine b d) :
    EngineStepped offer s t b d := .moved (h ▸ .same)

theorem mapDevice_stepped {offer : List Byte} {b : BoardId} {d : Dir} {f : Device → Device} {s : State} (c : BoardId) (e : Dir)
    (hf : (∀ w, f w = { w with ready := true }) ∨ ∃ a, ∀ w, f w = { w with answers := w.answers ++ [a] }) :
    EngineStepped offer s (mapDevice b d f s) c e := by
  unfold mapDevice
  split
  · exact .refl s c e
  · rename_i w hw
    by_cases h : c = b ∧ e = d
    · obtain ⟨rfl, rfl⟩ := h
      rcases hf with hf | ⟨a, hf⟩
      · exact .completed w hw (by simp [hf])
      · exact .answered w a hw (by simp [hf])
    · exact .of_engine (by rw [State.engine_setEngine, if_neg h])

theorem devEmit_stepped {offer : List Byte} {b : BoardId} {d : Dir} {s : State} (c : BoardId) (e : Dir) :
    EngineStepped offer s (devEmit b d s) c e := by
  unfold devEmit
  split
  · exact .refl s c e
  · split
    · exact .refl s c e
    · rename_i w hw _ x xs hx
      by_cases h : c = b ∧ e = d
      · obtain ⟨rfl, rfl⟩ := h
        refine .emitted w x xs hw hx ?_ ?_
        · rw [appendLine, engine_setBoard (by rfl)]; simp
        · simp [appendLine, State.setEngine]
      · exact .of_engine (by rw [appendLine, engine_setBoard (by rfl), State.engine_setEngine, if_neg h])

theorem setLine_engine {l : LinkId} {bs : List Byte} {s : State} (c : BoardId) (e : Dir) :
    (setLine l bs s).engine c e = s.engine c e := by
  cases l with
  | fromPort p => rfl
  | fromEngine b d => exact engine_setBoard (by rfl) c e

theorem EngineMove.of_nil {offer : List Byte} {t u : Txe} (h : EngineMove [] t u) : EngineMove offer t u := by
  cases h with
  | same => exact .same
  | setDevice w hn => exact .setDevice w hn
  | kick => exact .kick
  | pass => exact .kick
  | asked w h1 h2 => exact .asked w h1 h2

/-- In a handler no instruction runs a pass of a `write`. -/
theorem takeInterrupt_engine {b : BoardId} {seen : Bool} {k : State → Result} {s t : State}
    (h : takeInterrupt b seen k s = .next t)
    (hk : ∀ u v, k u = .next v → v = u ∨ ∃ i, exec i u = .next v ∧ (ownerOf i = .anyone ∨ ownerOf i = .board b))
    (c : BoardId) (e : Dir) : EngineMove [] (s.engine c e) (t.engine c e) := by
  obtain ⟨v, hv, h⟩ := andThen_eq_next.mp h
  cases h
  rw [leaveHandler, engine_setBoard (by rfl)]
  have hs : (enterHandler b s).engine c e = s.engine c e := by rw [enterHandler, engine_setBoard (by rfl)]
  rw [← hs]
  rcases hk _ _ hv with rfl | ⟨i, hi, ho⟩
  · exact .same
  · by_cases hw : instrWrites (enterHandler b s) c e i = []
    · exact hw ▸ (exec_engines hi c e).1
    · have hf := exec_write_free hi hw
      by_cases hc : c = b
      · subst hc
        have : ((enterHandler c s).board c).inHandler = true := by simp [enterHandler]
        cases this.symm.trans hf.1
      · cases exec_moves hi with
        | pure r _ h1 => rw [h1]; exact .same
        | host _ hh => obtain ⟨h', r, rx, rfl⟩ := hh; exact .same
        | board a ha hb =>
          obtain ⟨x, r, -, rfl⟩ := hb
          have hab : a = b := by
            rcases ha with ha | ha <;> rcases ho with ho | ho <;> rw [ha] at ho <;> cases ho
            rfl
          subst hab
          show EngineMove [] _ ((((enterHandler a s).setBoard a x).board c).tx.get e)
          rw [State.board_setBoard, if_neg hc]
          exact .same

/-- What the main loop's step does to the engines. -/
theorem mainLoopStep_engine {b : BoardId} {s t : State} {rest : List Event} (hs : s.TaskWf b)
    (h : mainLoopStep b { s with schedule := rest } = .next t) (hsch : s.schedule = .mainLoop b :: rest) (c : BoardId)
    (e : Dir) : EngineMove (stepWrites s c e) (s.engine c e) (t.engine c e) := by
  have self : ∀ (u : State), (∀ a d, u.engine a d = s.engine a d) →
      EngineMove (stepWrites s c e) (s.engine c e) (u.engine c e) := fun u hu => by rw [hu]; exact .same
  unfold mainLoopStep at h
  split at h
  · cases h; exact .same
  · simp only at h
    split at h <;> rename_i ht <;> change (s.board b).task = _ at ht
    · split at h <;> rename_i hq <;> change (s.board b).todo = _ at hq
      · cases h; exact .same
      · rename_i i q
        obtain ⟨h, ho⟩ := callAs_next h
        have hm := (exec_engines h c e).1
        rw [engine_setBoard (by rfl)] at hm
        by_cases hc : b = c
        · subst hc
          have hw : stepWrites s b e = instrWrites s b e i := by simp [stepWrites, hsch, ht, hq]
          rw [hw]
          exact hm
        · have hcb : c ≠ b := Ne.symm hc
          cases exec_moves h with
          | pure r _ h1 => subst h1; exact self _ fun a d => engine_setBoard (by rfl) a d
          | host _ hh => obtain ⟨h', r, rx, rfl⟩ := hh; exact self _ fun a d => engine_setBoard (by rfl) a d
          | board a ha hb =>
            obtain ⟨x, r, -, rfl⟩ := hb
            have hab : a = b := by
              rcases ha with ha | ha <;> rcases ho with ho | ho <;> rw [ha] at ho <;> cases ho
              rfl
            subst hab
            simp only [State.engine]
            show EngineMove _ _ ((((_ : State).setBoard a x).board c).tx.get e)
            rw [State.board_setBoard, if_neg hcb]
            simp only [State.board, State.setBoard, PerBoard.get_set, if_neg hcb]
            exact .same
    · cases h
      exact self _ fun a d => by
        rw [resolveAtBoard]
        simp only [State.setTask_engine, State.setBoardAcc]
        exact engine_setBoard (by rfl) a d
    · rename_i d bytes
      rcases settle_cases h with ⟨v, n, hp, h⟩ | ⟨rx, log, rfl⟩
      · have hm := (exec_engines h c e).1
        have he : ({ ({ s with schedule := rest } : State).setTask b .idle with
            rx := s.rx.onBoard b d v.side } : State).engine c e = s.engine c e := State.setTask_engine s b c e .idle
        have hw : instrWrites { ({ s with schedule := rest } : State).setTask b .idle with
            rx := s.rx.onBoard b d v.side } c e (.ofVal v.val) = stepWrites s c e := by
          obtain ⟨-, hmap, -, -⟩ := parseDirected_ok hp
          change parseDirected s.cfg.logMax (mapOf d) bytes = _ at hp
          cases v with
          | response sr =>
            have : ∀ u : State, instrWrites u c e (.ofVal (Directed.response sr).val) = [] := fun u => by
              obtain ⟨side, r⟩ := sr
              cases r <;> rfl
            rw [this]
            by_cases hbc : b = c
            · subst hbc; simp [stepWrites, hsch, ht, hp]
            · simp [stepWrites, hsch, hbc]
          | command dc =>
            cases d with
            | down => cases hmap
            | up =>
              obtain ⟨side, cm⟩ := dc
              have : ∀ u : State, instrWrites u c e (.ofVal (.command cm)) =
                  if u.rx.cmdAt = c then forwardedBytes u c e ⟨u.rx.side, cm⟩ else [] := fun u => by cases cm <;> rfl
              by_cases hbc : b = c
              · subst hbc; simp [Directed.val, this, stepWrites, hsch, ht, hp, RxCtx.onBoard, forwardedBytes, Directed.side,
                  State.setTask]
              · simp [Directed.val, this, stepWrites, hsch, hbc, RxCtx.onBoard]
        exact hw ▸ he ▸ hm
      · exact self _ fun a d => engine_setBoard (by rfl) a d
    · cases h
      refine (continueTask_engines (offer := stepWrites s) (s := { s with schedule := rest }) hs ?_ c e).1
      intro d' rem' who' hk
      change (s.board b).task = _ at hk
      simp [stepWrites, hsch, hk]
    · cases h
      refine (continueTask_engines (offer := stepWrites s) (s := { s with schedule := rest }) hs ?_ c e).1
      intro d' rem' who' hk
      change (s.board b).task = _ at hk
      simp [stepWrites, hsch, hk]

theorem EngineStepped.of_nil {offer : List Byte} {s t : State} {b : BoardId} {d : Dir}
    (h : EngineStepped [] s t b d) : EngineStepped offer s t b d := by
  cases h with
  | moved h => exact .moved h.of_nil
  | completed w h1 h2 => exact .completed w h1 h2
  | answered w a h1 h2 => exact .answered w a h1 h2
  | emitted w x xs h1 h2 h3 h4 => exact .emitted w x xs h1 h2 h3 h4

/-- A step of a tick moves the host alone. -/
theorem hostNextStep_moved (s : State) : HostMoved s (hostNextStep s) := by
  unfold hostNextStep
  split
  · exact .refl s
  · exact tickStep_moved _ _ s

/-- An event that is no step of a main loop runs no pass of a `write`. -/
theorem runEvent_engine {ev : Event} {s t : State} (hml : ∀ b, ev ≠ .mainLoop b) (h : runEvent ev s = .next t)
    (c : BoardId) (e : Dir) : EngineStepped [] s t c e := by
  cases ev <;> simp only [runEvent] at h
  case request b i => cases h; exact .of_engine (engine_setBoard (by rfl) c e)
  case mainLoop b => exact absurd rfl (hml b)
  case receive b d =>
    cases h
    unfold receiveByte
    split
    · split
      · exact .refl _ c e
      · exact .of_engine (by
          rw [State.setTask_engine, ingest, State.setAcc, State.setBoardAcc, engine_setBoard (by rfl),
            engine_setBoard (by rfl)])
    · exact .refl _ c e
  case readFault b d x =>
    cases h
    unfold readFault
    split
    · exact .of_engine
        (by rw [State.boardLog, engine_setBoard (by rfl), State.setBoardAcc, engine_setBoard (by rfl)])
    · exact .refl _ c e
  case readyInterrupt b d seen =>
    unfold readyInterrupt at h
    split at h
    · exact .moved (takeInterrupt_engine h (fun _ _ huv => .inr ⟨_, huv, .inr rfl⟩) c e)
    · cases h; exact .refl _ c e
  case otherInterrupt b call seen =>
    unfold otherInterrupt at h
    split at h
    · refine .moved (takeInterrupt_engine h (fun _ _ huv => ?_) c e)
      cases call with
      | none => cases huv; exact .inl rfl
      | some i => exact .inr ⟨i, callAs_next huv⟩
    · cases h; exact .refl _ c e
  case devComplete b d => cases h; exact mapDevice_stepped c e (.inl fun _ => rfl)
  case devAnswer b d a => cases h; exact mapDevice_stepped c e (.inr ⟨a, fun _ => rfl⟩)
  case devEmit b d => cases h; exact devEmit_stepped c e
  case wireDeliver l =>
    cases h
    unfold wireDeliver
    split
    · exact .refl _ c e
    · split
      · exact .of_engine (setLine_engine c e)
      · rename_i r _
        cases r with
        | port p => exact .of_engine (setLine_engine c e)
        | path b d => exact .of_engine (by rw [arrive, engine_setBoard (by rfl), setLine_engine])
  case wireGlitch l bs => cases h; exact .of_engine (setLine_engine c e)
  case hostLoop i =>
    unfold hostLoopStep at h
    split at h
    · obtain ⟨h, ho⟩ := callAs_next h
      cases exec_moves h with
      | pure r _ h1 => subst h1; exact .of_engine rfl
      | host _ hh => obtain ⟨h', r, rx, rfl⟩ := hh; exact .of_engine rfl
      | board b hb _ => rcases hb with hb | hb <;> rcases ho with ho | ho <;> rw [hb] at ho <;> cases ho
    · cases h; exact .refl _ c e
  case hostNext =>
    cases h
    obtain ⟨h', r, rx, h1⟩ := hostNextStep_moved s
    exact .of_engine (by rw [h1]; rfl)
  case portWriteAnswer | portAvailAnswer | portReadAnswer => cases h; exact .of_engine rfl

/-- Every step does one of these to an engine, and stores only bytes of the `write` it runs a pass of. -/
theorem step_engine {s t : State} (hs : ∀ b, s.TaskWf b) (h : step s = .next t) (c : BoardId) (e : Dir) :
    EngineStepped (stepWrites s c e) s t c e := by
  unfold step at h
  split at h
  · cases h; exact .refl s c e
  · rename_i ev rest hsch
    by_cases hml : ∃ b, ev = .mainLoop b
    · obtain ⟨b, rfl⟩ := hml
      exact .moved (mainLoopStep_engine (hs b) h hsch c e)
    · have hn := runEvent_engine (fun b hb => hml ⟨b, hb⟩) h c e
      refine EngineStepped.of_nil ?_
      cases hn with
      | moved h => exact .moved h
      | completed w h1 h2 => exact .completed w h1 h2
      | answered w a h1 h2 => exact .answered w a h1 h2
      | emitted w x xs h1 h2 h3 h4 => exact .emitted w x xs h1 h2 h3 h4

/-- A run of no steps. -/
theorem core_run_zero (s : State) : core.run 0 s = .next s := by
  have run_zero : ∀ (M : Host.Core) (s : M.State), M.run 0 s = .next s := fun M s => by rw [Host.Core.run.eq_def]
  exact run_zero core s

/-- A run of several steps goes on from the state its first step answers. -/
theorem core_run_succ {s t : State} (n : Nat) (h : step s = .next t) : core.run (n + 1) s = core.run n t := by
  have run_succ : ∀ (M : Host.Core) (s t : M.State), M.step s = .next t → M.run (n + 1) s = M.run n t := fun M s t h => by
    rw [Host.Core.run.eq_def]
    simp only [h]
  exact run_succ core s t h

end Sys2Proof.Machine
end

