-- ==== Sys2Proof/Laws/Host.lean ====
section
/-! SUPPORT. What the dispatcher's internal steps do to each side, and the steps of a tick (R252 to R257). -/

namespace Sys2Proof.Machine

theorem withClock_of {now : Time} {s : State} (h : s.host.clock ≤ now) (k : State → Result) :
    withClock now k s = k { s with host := { s.host with clock := now } } := by
  simp [withClock, Nat.not_lt.mpr h]

/-- R252: `transmit` touches no timestamp, pending target or buffer. -/
theorem transmit_link (side q : Side) (c : Command) (s : State) :
    ((transmit side c s).1.link q).lastSend = (s.link q).lastSend ∧
      ((transmit side c s).1.link q).pending = (s.link q).pending ∧
      ((transmit side c s).1.link q).acc = (s.link q).acc := by
  unfold transmit
  split
  · simp only [dropCommand]
    split <;> exact ⟨rfl, rfl, rfl⟩
  · simp only [writePort, State.link_setLink]
    split
    · rename_i h
      rw [h]
      exact ⟨rfl, rfl, rfl⟩
    · exact ⟨rfl, rfl, rfl⟩

/-- R252, R263: with no answer waiting, `transmit` puts all its bytes on the selected port. -/
theorem transmit_line {side : Side} {c : Command} {s : State} (h : ∀ q, (s.link q).port.writeAnswers = []) (q : Side) :
    ((transmit side c s).1.link q).port.writeAnswers = [] ∧
      ((transmit side c s).1.link q).port.line =
        (s.link q).port.line ++ (if selectPort s.cfg side = some q then encDirectedCommand ⟨side, c⟩ else []) := by
  unfold transmit
  split
  · rename_i hs
    simp only [dropCommand, hs]
    split <;> exact ⟨h q, by simp [State.link, State.hostLog]⟩
  · rename_i p hs
    simp only [writePort, State.link_setLink, Port.writeAll, h, hs]
    split
    · rename_i hq; subst hq; simp
    · rename_i hq; simp [h, Ne.symm hq]

/-- The bytes a `receive` takes from a port leave the outgoing link alone. -/
theorem Port.poll_line (p : Port) (m : Nat) : (p.poll m).1.line = p.line := by
  unfold Port.poll Port.bytesAvailable
  rcases p.availAnswers with _ | ⟨_ | e, as⟩ <;> rcases hr : p.readAnswers with _ | ⟨_ | e, rs⟩ <;>
    simp [Port.read, hr]

/-- R256: `receive` touches no timestamp, pending target or outgoing link. -/
theorem receiveAtHost_link (p q : Side) (s : State) :
    ((receiveAtHost p s).link q).lastSend = (s.link q).lastSend ∧
      ((receiveAtHost p s).link q).pending = (s.link q).pending ∧
      ((receiveAtHost p s).link q).port.line = (s.link q).port.line := by
  have hset : ∀ (u : State) (l : HostLink), l.lastSend = (u.link p).lastSend → l.pending = (u.link p).pending →
      l.port.line = (u.link p).port.line →
      ((u.setLink p l).link q).lastSend = (u.link q).lastSend ∧ ((u.setLink p l).link q).pending = (u.link q).pending ∧
        ((u.setLink p l).link q).port.line = (u.link q).port.line := fun u l h1 h2 h3 => by
    rw [State.link_setLink]
    split
    · rename_i h; subst h; exact ⟨h1, h2, h3⟩
    · exact ⟨rfl, rfl, rfl⟩
  have hres : ∀ u : State, ((resolveAtHost p u).link q).lastSend = (u.link q).lastSend ∧
      ((resolveAtHost p u).link q).pending = (u.link q).pending ∧
      ((resolveAtHost p u).link q).port.line = (u.link q).port.line := fun u => by
    have h := hset u { u.link p with acc := (resolveHead u.cfg.logMax .response (u.link p).acc).2 } rfl rfl rfl
    unfold resolveAtHost
    simp only
    split <;> exact h
  unfold receiveAtHost
  simp only
  split
  · exact hset s { s.link p with acc := [], port := ((s.link p).port.poll s.cfg.readMax).1 } rfl rfl
      (Port.poll_line _ _)
  · rename_i chunk _
    have h1 := hset s
      { s.link p with acc := (s.link p).acc ++ chunk, port := ((s.link p).port.poll s.cfg.readMax).1 } rfl rfl
      (Port.poll_line _ _)
    have h2 := hres
      (s.setLink p
        { s.link p with acc := (s.link p).acc ++ chunk, port := ((s.link p).port.poll s.cfg.readMax).1 })
    exact ⟨h2.1.trans h1.1, h2.2.1.trans h1.2.1, h2.2.2.trans h1.2.2⟩

/-! ## Ticks -/

/-- What the dispatcher's internal steps leave alone: the boards and the parameters, and of the host the clock and what its
thread is in; the result register too, until an operation returns. -/
structure StageKept (s t : State) : Prop where
  cfg : t.cfg = s.cfg
  boards : t.boards = s.boards
  schedule : t.schedule = s.schedule
  ret : t.ret = s.ret
  clock : t.host.clock = s.host.clock
  task : t.host.task = s.host.task

theorem StageKept.refl (s : State) : StageKept s s := ⟨rfl, rfl, rfl, rfl, rfl, rfl⟩

theorem transmit_kept (side : Side) (c : Command) (s : State) : StageKept s (transmit side c s).1 := by
  unfold transmit
  split
  · simp only [dropCommand]
    split <;> exact ⟨rfl, rfl, rfl, rfl, rfl, rfl⟩
  · exact ⟨rfl, rfl, rfl, rfl, rfl, rfl⟩

theorem transmitTarget_kept (side : Side) (x : Word64) (now : Time) (s : State) :
    StageKept s (transmitTarget side x now s).1 := by
  have h := transmit_kept side (.setTarget x) s
  exact ⟨h.cfg, h.boards, h.schedule, h.ret, h.clock, h.task⟩

theorem sendCommand_kept (side : Side) (c : Command) (now : Time) (s : State) :
    StageKept s (sendCommand side c now s).1 := by
  have h := transmit_kept side c s
  unfold sendCommand
  simp only
  split
  · exact ⟨h.cfg, h.boards, h.schedule, h.ret, h.clock, h.task⟩
  · exact h

theorem setTarget_kept (side : Side) (x : Word64) (now : Time) (s : State) :
    StageKept s (setTarget side x now s).1 := by
  unfold setTarget
  split
  · exact transmitTarget_kept side x now s
  · exact ⟨rfl, rfl, rfl, rfl, rfl, rfl⟩

theorem flushPending_kept (side : Side) (now : Time) (s : State) : StageKept s (flushPending side now s) := by
  unfold flushPending
  split
  · split
    · rename_i x _ _ _ _
      have h := transmitTarget_kept side x now s
      split <;> rename_i ht <;> rw [ht] at h
      · exact h
      · exact ⟨h.cfg, h.boards, h.schedule, h.ret, h.clock, h.task⟩
    · exact .refl s
  · exact .refl s
  · exact .refl s

theorem receiveAtHost_kept (p : Side) (s : State) : StageKept s (receiveAtHost p s) := by
  unfold receiveAtHost
  simp only
  split
  · exact ⟨rfl, rfl, rfl, rfl, rfl, rfl⟩
  · unfold resolveAtHost
    simp only
    split <;> exact ⟨rfl, rfl, rfl, rfl, rfl, rfl⟩

/-- R257: a stage of a tick. -/
theorem TickStage.run_kept (st : TickStage) (now : Time) (s : State) : StageKept s (st.run now s) := by
  cases st with
  | send p => exact flushPending_kept p now s
  | receive p =>
    show StageKept s (pollPort p s)
    unfold pollPort
    split
    · exact receiveAtHost_kept p s
    · exact .refl s

/-- R257: a side's pending target is due at `now`. -/
abbrev TargetDue (s : State) (now : Time) (p : Side) : Prop :=
  ∃ x a, (s.link p).pending = some x ∧ (s.link p).lastSend = some a ∧ s.cfg.minSendInterval ≤ now - a

theorem dueBytes_of {s : State} {now : Time} {p : Side} {x : Word64} {a : Time} (hx : (s.link p).pending = some x)
    (ha : (s.link p).lastSend = some a) (hd : s.cfg.minSendInterval ≤ now - a) :
    dueBytes s now p = encDirectedCommand ⟨p, .setTarget x⟩ := by
  simp only [dueBytes, hx, ha, if_pos hd]

theorem dueBytes_of_not {s : State} {now : Time} {p : Side} (h : ¬TargetDue s now p) : dueBytes s now p = [] := by
  unfold dueBytes
  split
  · rename_i x a hx ha
    exact if_neg fun hd => h ⟨x, a, hx, ha, hd⟩
  · rfl
  · rfl

/-- What a send stage of a tick leaves on each side: a due target is sent and stamped, and nothing else changes there but
the links' bytes. -/
structure Flushed (side : Side) (now : Time) (s t : State) : Prop where
  sent : TargetDue s now side → (t.link side).pending = none ∧ (t.link side).lastSend = some now
  held : ¬TargetDue s now side →
    (t.link side).pending = (s.link side).pending ∧ (t.link side).lastSend = (s.link side).lastSend
  other : (t.link side.opposite).pending = (s.link side.opposite).pending ∧
    (t.link side.opposite).lastSend = (s.link side.opposite).lastSend
  line : (∀ q, (s.link q).port.writeAnswers = []) → ∀ q, (t.link q).port.writeAnswers = [] ∧
    (t.link q).port.line = (s.link q).port.line ++ (if selectPort s.cfg side = some q then dueBytes s now side else [])

theorem transmitTarget_flushed {side : Side} {x : Word64} {now a : Time} {s : State}
    (hx : (s.link side).pending = some x) (ha : (s.link side).lastSend = some a)
    (hd : s.cfg.minSendInterval ≤ now - a) : Flushed side now s (transmitTarget side x now s).1 where
  sent _ := by simp [transmitTarget]
  held h := absurd ⟨x, a, hx, ha, hd⟩ h
  other := by
    have h := transmit_link side side.opposite (.setTarget x) s
    simp only [transmitTarget, State.link_setLink_opposite]
    exact ⟨h.2.1, h.1⟩
  line hw q := by
    have hp : ((transmitTarget side x now s).1.link q).port = ((transmit side (.setTarget x) s).1.link q).port := by
      simp only [transmitTarget, State.link_setLink]
      split
      · rename_i h; rw [h]
      · rfl
    rw [hp, dueBytes_of hx ha hd]
    exact transmit_line hw q

theorem flushPending_flushed (side : Side) (now : Time) (s : State) : Flushed side now s (flushPending side now s) := by
  have none : ¬TargetDue s now side → Flushed side now s s := fun h =>
    ⟨fun hd => absurd hd h, fun _ => ⟨rfl, rfl⟩, ⟨rfl, rfl⟩, fun hw q => ⟨hw q, by simp [dueBytes_of_not h]⟩⟩
  unfold flushPending
  split
  · rename_i x a hx ha
    split
    · rename_i hd
      have h := transmitTarget_flushed hx ha hd
      split <;> rename_i ht <;> rw [ht] at h
      · exact h
      · exact ⟨h.sent, h.held, h.other, h.line⟩
    · rename_i hd
      exact none fun ⟨_, b, _, hb, h⟩ => hd (by rw [ha] at hb; cases hb; exact h)
  · rename_i ha
    exact none fun ⟨_, b, _, hb, _⟩ => nomatch ha.symm.trans hb
  · rename_i hx
    exact none fun ⟨y, _, hy, _⟩ => nomatch hx.symm.trans hy

theorem pollPort_link (p q : Side) (s : State) :
    ((pollPort p s).link q).lastSend = (s.link q).lastSend ∧ ((pollPort p s).link q).pending = (s.link q).pending ∧
      ((pollPort p s).link q).port.line = (s.link q).port.line := by
  unfold pollPort
  split
  · exact receiveAtHost_link p q s
  · exact ⟨rfl, rfl, rfl⟩

/-- R257: a step of a tick is its stage, with the stage after it to come, or with the tick returned. -/
theorem tickStep_of {st : TickStage} {task : HostTask} {now : Time} (h : (st, task) ∈ tickStages now) (s : State) :
    tickStep st now s = (st.run now s).inTask task := by
  simp only [tickStages, List.mem_cons, Prod.mk.injEq, List.not_mem_nil, or_false] at h
  rcases h with ⟨rfl, rfl⟩ | ⟨rfl, rfl⟩ | ⟨rfl, rfl⟩ | ⟨rfl, rfl⟩ <;> rfl

/-- R257: the step of a tick in progress. -/
theorem step_hostNext {s : State} {st : TickStage} {now : Time} {rest : List Event} (hs : s.schedule = .hostNext :: rest)
    (ht : s.host.task = .tick st now) : step s = .next (tickStep st now { s with schedule := rest }) := by
  simp only [step, hs, runEvent, hostNextStep, ht]

/-! ## The host's thread -/

/-- What an operation leaves of the host's clock and thread. -/
abbrev ThreadKept (s t : State) : Prop := t.host.clock = s.host.clock ∧ t.host.task = s.host.task

theorem BoardMoved.thread {offer : Dir → List Byte} {b : BoardId} {s t : State} (h : BoardMoved offer b s t) :
    ThreadKept s t := by
  obtain ⟨x, r, -, rfl⟩ := h; exact ⟨rfl, rfl⟩

theorem runCommand_thread {c : Command} {s t : State} (h : runCommand c s = .next t) : ThreadKept s t :=
  (onCommand_moved (offer := fun _ => forwardedBytes s s.rx.cmdAt .down _) rfl (withWf_eq_next.mp h).2).thread

theorem runResponse_thread {r : Response} {s t : State} (h : runResponse r s = .next t) : ThreadKept s t := by
  have h := (withWf_eq_next.mp h).2
  split at h
  · cases h; exact ⟨rfl, rfl⟩
  · exact (onResponse_moved (offer := fun _ => []) h).thread

/-- R57: an operation leaves what the host's thread is in, and one that is not the host's its clock, but a tick, which its
first stage leaves in progress at the tick's time. -/
theorem exec_thread {i : Instr} {s t : State} (h : exec i s = .next t) :
    (t.host.task = s.host.task ∧ (ownerOf i ≠ .host → t.host.clock = s.host.clock)) ∨
      ∃ now, i = .hostTick now ∧ t.host.clock = now ∧ t.host.task = .tick (.send .right) now := by
  have board : ∀ {b : BoardId}, ownerOf i = .board b →
      t.host.task = s.host.task ∧ (ownerOf i ≠ .host → t.host.clock = s.host.clock) := fun ho =>
    ⟨(exec_boardMoved h ho).thread.2, fun _ => (exec_boardMoved h ho).thread.1⟩
  have kept : ThreadKept s t → t.host.task = s.host.task ∧ (ownerOf i ≠ .host → t.host.clock = s.host.clock) :=
    fun hk => ⟨hk.2, fun _ => hk.1⟩
  have host : ∀ {u v : State}, StageKept u v → v.host.task = t.host.task → u.host.task = s.host.task → ownerOf i = .host →
      t.host.task = s.host.task ∧ (ownerOf i ≠ .host → t.host.clock = s.host.clock) := fun hk h2 h1 ho =>
    ⟨h2.symm.trans (hk.task.trans h1), fun hn => absurd ho hn⟩
  cases i
  case setSideLed | setOrangeLed | setRedLed | setGreenLed | addBuzzerNote | reportBattery | reportCharger
      | setMaxTorque | setSpringConstant | setTarget | removeTarget | recenter | incrementTarget | decrementTarget
      | powerOff | testMotor =>
    simp only [exec, execSetSideLed, execSetOrangeLed, execSetRedLed, execSetGreenLed, execAddBuzzerNote,
      execReportBattery, execReportCharger, execSetMaxTorque, execSetSpringConstant, execSetTarget, execRemoveTarget,
      execRecenter, execIncrementTarget, execDecrementTarget, execPowerOff, execTestMotor] at h
    exact .inl (kept (runCommand_thread h))
  case position | batteryReadings | chargeState | log | powerOffResponse =>
    simp only [exec, execPosition, execBatteryReadings, execChargeState, execLog, execPowerOffResponse] at h
    exact .inl (kept (runResponse_thread h))
  case sideLeft | sideRight | codecParseBody | codecDecodeBody | codecParseDirected | codecDecodeDirected | codecParseLog =>
    cases h; exact .inl ⟨rfl, fun _ => rfl⟩
  case codecEncode | codecEncDirected =>
    have h := (withWf_eq_next.mp h).2
    cases h; exact .inl ⟨rfl, fun _ => rfl⟩
  case rbAdd r _ | rbAddAll r _ | rbTake r | rbPeek r | rbIsEmpty r | rbIsFull r => cases r <;> exact .inl (board rfl)
  case linkIngest a _ | linkResolveOnce a _ =>
    cases a with
    | host p => cases h; exact .inl ⟨rfl, fun _ => rfl⟩
    | board b d => exact .inl (board rfl)
  case txSetDevice | txKick | txWrite | txTryWrite | txFlush | routerOnCommand | routerLocalDispatch | routerCannotForward
      | routerForwardCommand | routerOnResponse | routerLocalReaction | routerSendResponse => exact .inl (board rfl)
  case hostSelectPort => cases h; exact .inl ⟨rfl, fun _ => rfl⟩
  case hostTransmit side c =>
    have h := (withWf_eq_next.mp h).2
    cases h
    exact .inl (host (transmit_kept side c s) rfl rfl rfl)
  case hostSendCommand side c now =>
    obtain ⟨-, h⟩ := withClock_eq_next.mp (withWf_eq_next.mp h).2
    cases h
    exact .inl (host (sendCommand_kept side c now _) rfl rfl rfl)
  case hostTransmitTarget side x now =>
    simp only [exec, execHostTransmitTarget] at h
    obtain ⟨-, h⟩ := withClock_eq_next.mp h
    cases h
    exact .inl (host (transmitTarget_kept side x now _) rfl rfl rfl)
  case hostSetTarget side x now =>
    simp only [exec, execHostSetTarget] at h
    obtain ⟨-, h⟩ := withClock_eq_next.mp h
    cases h
    exact .inl (host (setTarget_kept side x now _) rfl rfl rfl)
  case hostReceive p =>
    change (if _ then _ else _) = _ at h
    split at h
    · cases h; exact .inl (host (receiveAtHost_kept p s) rfl rfl rfl)
    · cases h
  case hostTick now =>
    obtain ⟨-, h⟩ := withClock_eq_next.mp (withHostFree_eq_next.mp h).2
    cases h
    exact .inr ⟨now, rfl, (TickStage.run_kept (.send .left) now _).clock, rfl⟩

end Sys2Proof.Machine
end

