-- ==== Sys2Proof/Laws/PerInstr.lean ====
section
/-! SUPPORT. Facts about every instruction as syntax, one lemma for each constructor: the length of its encoding, as the
table of R86 in spec/30_encoding.md gives it; a port operation has none (R97). -/

namespace Sys2Proof.Laws.EncodedLength

/-- R86: the body length of a wire row, and 1 for a side tag (R81). -/
def tableLength : Instr → Option Nat
  | .setSideLed _ | .setOrangeLed _ | .setRedLed _ | .setGreenLed _ => some 2
  | .addBuzzerNote _ _ => some 9
  | .reportBattery | .reportCharger => some 1
  | .setMaxTorque _ _ => some 5
  | .setSpringConstant _ => some 3
  | .setTarget _ => some 9
  | .removeTarget | .recenter | .incrementTarget | .decrementTarget | .powerOff | .testMotor => some 1
  | .position _ => some 9
  | .batteryReadings _ _ _ => some 7
  | .chargeState _ => some 2
  | .log s => some (2 + s.length)
  | .powerOffResponse => some 1
  | .sideLeft | .sideRight => some 1
  | .rbAdd _ _ | .rbAddAll _ _ | .rbTake _ | .rbPeek _ | .rbIsEmpty _ | .rbIsFull _ | .txSetDevice _ _ _
  | .txKick _ _ | .txWrite _ _ _ | .txTryWrite _ _ | .txFlush _ _ | .codecParseBody _ _ | .codecDecodeBody _ _
  | .codecEncode _ | .codecParseLog _ | .codecEncDirected _ | .codecParseDirected _ _
  | .codecDecodeDirected _ _ | .linkIngest _ _ | .linkResolveOnce _ _ | .routerOnCommand _ _
  | .routerLocalDispatch _ _ | .routerCannotForward _ _ | .routerForwardCommand _ _ | .routerOnResponse _ _
  | .routerLocalReaction _ _ | .routerSendResponse _ _ | .hostSelectPort _ | .hostTransmit _ _
  | .hostSendCommand _ _ _ | .hostTransmitTarget _ _ _ | .hostSetTarget _ _ _ | .hostReceive _ | .hostTick _ => none

/-- The encoding of an instruction has the length of the table. -/
def Statement (i : Instr) : Prop := (encode i).map List.length = tableLength i

theorem setSideLed (v : Bool) : Statement (.setSideLed v) := rfl

theorem setOrangeLed (v : Bool) : Statement (.setOrangeLed v) := rfl

theorem setRedLed (v : Bool) : Statement (.setRedLed v) := rfl

theorem setGreenLed (v : Bool) : Statement (.setGreenLed v) := rfl

theorem addBuzzerNote (frequency : Option Word32) (durationMs : Word32) :
    Statement (.addBuzzerNote frequency durationMs) := rfl

theorem reportBattery : Statement .reportBattery := rfl

theorem reportCharger : Statement .reportCharger := rfl

theorem setMaxTorque (negative positive : Word16) : Statement (.setMaxTorque negative positive) := rfl

theorem setSpringConstant (k : Word16) : Statement (.setSpringConstant k) := rfl

theorem setTarget (x : Word64) : Statement (.setTarget x) := rfl

theorem removeTarget : Statement .removeTarget := rfl

theorem recenter : Statement .recenter := rfl

theorem incrementTarget : Statement .incrementTarget := rfl

theorem decrementTarget : Statement .decrementTarget := rfl

theorem powerOff : Statement .powerOff := rfl

theorem testMotor : Statement .testMotor := rfl

theorem position (x : Word64) : Statement (.position x) := rfl

theorem batteryReadings (batteryVoltage backupBatteryVoltage motorCurrent : Word16) :
    Statement (.batteryReadings batteryVoltage backupBatteryVoltage motorCurrent) := rfl

theorem chargeState (chargerConnected : Bool) : Statement (.chargeState chargerConnected) := rfl

theorem log (s : List Byte) : Statement (.log s) := by
  simp [Statement, encode, Instr.val?, encVal, encResponse, tableLength]
  omega

theorem powerOffResponse : Statement .powerOffResponse := rfl

theorem sideLeft : Statement .sideLeft := rfl

theorem sideRight : Statement .sideRight := rfl

theorem rbAdd (r : RingSel) (item : Byte) : Statement (.rbAdd r item) := rfl

theorem rbAddAll (r : RingSel) (slice : List Byte) : Statement (.rbAddAll r slice) := rfl

theorem rbTake (r : RingSel) : Statement (.rbTake r) := rfl

theorem rbPeek (r : RingSel) : Statement (.rbPeek r) := rfl

theorem rbIsEmpty (r : RingSel) : Statement (.rbIsEmpty r) := rfl

theorem rbIsFull (r : RingSel) : Statement (.rbIsFull r) := rfl

theorem txSetDevice (b : BoardId) (d : Dir) (w : Device) : Statement (.txSetDevice b d w) := rfl

theorem txKick (b : BoardId) (d : Dir) : Statement (.txKick b d) := rfl

theorem txWrite (b : BoardId) (d : Dir) (bytes : List Byte) : Statement (.txWrite b d bytes) := rfl

theorem txTryWrite (b : BoardId) (d : Dir) : Statement (.txTryWrite b d) := rfl

theorem txFlush (b : BoardId) (d : Dir) : Statement (.txFlush b d) := rfl

theorem codecParseBody (map : MsgMap) (s : List Byte) : Statement (.codecParseBody map s) := rfl

theorem codecDecodeBody (map : MsgMap) (s : List Byte) : Statement (.codecDecodeBody map s) := rfl

theorem codecEncode (v : Val) : Statement (.codecEncode v) := rfl

theorem codecParseLog (s : List Byte) : Statement (.codecParseLog s) := rfl

theorem codecEncDirected (v : Directed) : Statement (.codecEncDirected v) := rfl

theorem codecParseDirected (map : MsgMap) (s : List Byte) : Statement (.codecParseDirected map s) := rfl

theorem codecDecodeDirected (map : MsgMap) (s : List Byte) : Statement (.codecDecodeDirected map s) := rfl

theorem linkIngest (acc : AccSel) (bytes : List Byte) : Statement (.linkIngest acc bytes) := rfl

theorem linkResolveOnce (acc : AccSel) (map : MsgMap) : Statement (.linkResolveOnce acc map) := rfl

theorem routerOnCommand (b : BoardId) (dc : DirectedCommand) : Statement (.routerOnCommand b dc) := rfl

theorem routerLocalDispatch (b : BoardId) (command : Command) : Statement (.routerLocalDispatch b command) := rfl

theorem routerCannotForward (b : BoardId) (dc : DirectedCommand) : Statement (.routerCannotForward b dc) := rfl

theorem routerForwardCommand (b : BoardId) (dc : DirectedCommand) : Statement (.routerForwardCommand b dc) := rfl

theorem routerOnResponse (b : BoardId) (sr : SideResponse) : Statement (.routerOnResponse b sr) := rfl

theorem routerLocalReaction (b : BoardId) (response : Response) : Statement (.routerLocalReaction b response) := rfl

theorem routerSendResponse (b : BoardId) (response : Response) : Statement (.routerSendResponse b response) := rfl

theorem hostSelectPort (side : Side) : Statement (.hostSelectPort side) := rfl

theorem hostTransmit (side : Side) (command : Command) : Statement (.hostTransmit side command) := rfl

theorem hostSendCommand (side : Side) (command : Command) (now : Time) :
    Statement (.hostSendCommand side command now) := rfl

theorem hostTransmitTarget (side : Side) (x : Word64) (now : Time) : Statement (.hostTransmitTarget side x now) := rfl

theorem hostSetTarget (side : Side) (x : Word64) (now : Time) : Statement (.hostSetTarget side x now) := rfl

theorem hostReceive (p : Side) : Statement (.hostReceive p) := rfl

theorem hostTick (now : Time) : Statement (.hostTick now) := rfl

end Sys2Proof.Laws.EncodedLength
end

