-- ==== Sys2Proof/Tests/Slice0.lean ====
section
/-! SUPPORT. Tests: the words of every wire row written out from spec/30_encoding.md (vectors V30 to V68 of
spec/95_test_vectors.md), an ill-formed term for each check, one step of every operation, and for every obligation with
hypotheses a state and operands that meet them. -/

set_option maxRecDepth 20000

namespace Sys2Proof.Tests

open Sys2Proof.Machine

/-! ## Helpers -/

/-- Whether an outcome is a next state with a property. -/
def nextIs (o : Result) (p : State → Bool) : Bool :=
  match o with
  | .next t => p t
  | .fault _ => false
  | .refused _ => false

/-- Whether an outcome is a refusal for this reason. -/
def refusedFor (o : Result) (r : Refusal) : Bool :=
  match o with
  | .refused q => q == r
  | .next _ => false
  | .fault _ => false

/-- A ring of capacity 4 that holds these bytes from slot 0. -/
def ringOf (bs : List Byte) : Machine.Ring Byte := ⟨4, (bs.map some ++ [none, none, none, none]).take 4, 0, bs.length⟩

/-- A device with no answers waiting. -/
def dev (ready : Bool) : Device := ⟨ready, [], []⟩

/-- Both boards and the host after reset, with `TX_CAPACITY = 4` and both ports. -/
def base : State := State.initial { Config.initial with txCapacity := 4, port := ⟨true, true⟩ }

/-- Put an engine's contents, enable and device. -/
def withEngine (b : BoardId) (d : Dir) (bs : List Byte) (irqEn : Bool) (w : Device) (s : State) : State :=
  s.setEngine b d ⟨ringOf bs, some w, irqEn⟩

/-- Board A with both devices set and ready, and board B with its one. -/
def wired : State :=
  withEngine .boardA .up [] false (dev true)
    (withEngine .boardA .down [] false (dev true) (withEngine .boardB .up [] false (dev true) base))

/-- Choose what happens next. -/
def next (es : List Event) (s : State) : State := { s with schedule := es }

/-- A message arrives where its receiver is told to expect it. -/
def at' (side : Side) (s : State) : State := { s with rx := ⟨side, .boardA, .host .left⟩ }

/-! ## Words of every wire row -/

theorem test_decode_setSideLed : decode 8 .command [0x6C, 0x31] = .instr (.setSideLed true) 2 := by decide

theorem test_decode_setOrangeLed : decode 8 .command [0x6F, 0x30] = .instr (.setOrangeLed false) 2 := by decide

theorem test_decode_setRedLed : decode 8 .command [0x72, 0x31] = .instr (.setRedLed true) 2 := by decide

theorem test_decode_setGreenLed : decode 8 .command [0x67, 0x30] = .instr (.setGreenLed false) 2 := by decide

theorem test_decode_addBuzzerNote :
    decode 8 .command [0x66, 0xB8, 0x01, 0x00, 0x00, 0xFA, 0x00, 0x00, 0x00] = .instr (.addBuzzerNote (some 440) 250) 9 := by decide

theorem test_decode_addBuzzerNote_pause :
    decode 8 .command [0x66, 0x00, 0x00, 0x00, 0x00, 0x64, 0x00, 0x00, 0x00] = .instr (.addBuzzerNote none 100) 9 := by decide

theorem test_decode_reportBattery : decode 8 .command [0x62] = .instr .reportBattery 1 := by decide

theorem test_decode_reportCharger : decode 8 .command [0x63] = .instr .reportCharger 1 := by decide

theorem test_decode_setMaxTorque :
    decode 8 .command [0x53, 0x9C, 0xFF, 0xC8, 0x00] = .instr (.setMaxTorque (BitVec.ofInt 16 (-100)) 200) 5 := by decide

theorem test_decode_setSpringConstant :
    decode 8 .command [0x4B, 0xE8, 0x03] = .instr (.setSpringConstant 1000) 3 := by decide

theorem test_decode_setTarget :
    decode 8 .command [0x54, 0x2A, 0x00, 0x00, 0x00, 0x00, 0x00, 0x00, 0x00] = .instr (.setTarget 42) 9 := by decide

theorem test_decode_removeTarget : decode 8 .command [0x6E] = .instr .removeTarget 1 := by decide

theorem test_decode_recenter : decode 8 .command [0x65] = .instr .recenter 1 := by decide

theorem test_decode_incrementTarget : decode 8 .command [0x2B] = .instr .incrementTarget 1 := by decide

theorem test_decode_decrementTarget : decode 8 .command [0x2D] = .instr .decrementTarget 1 := by decide

theorem test_decode_powerOff : decode 8 .command [0x70] = .instr .powerOff 1 := by decide

theorem test_decode_testMotor : decode 8 .command [0x74] = .instr .testMotor 1 := by decide

theorem test_decode_position :
    decode 8 .response [0x49, 0x88, 0x77, 0x66, 0x55, 0x44, 0x33, 0x22, 0x11] = .instr (.position 0x1122334455667788) 9 := by decide

theorem test_decode_batteryReadings :
    decode 8 .response [0x42, 0x74, 0x0E, 0xB8, 0x0B, 0x23, 0x01] = .instr (.batteryReadings 3700 3000 291) 7 := by decide

theorem test_decode_chargeState : decode 8 .response [0x43, 0x31] = .instr (.chargeState true) 2 := by decide

theorem test_decode_log : decode 8 .response [0x22, 0xC3, 0xA9, 0x0A] = .instr (.log [0xC3, 0xA9]) 4 := by decide

theorem test_decode_powerOffResponse : decode 8 .response [0x70] = .instr .powerOffResponse 1 := by decide

theorem test_decode_sideLeft : decode 8 .side [0x4C] = .instr .sideLeft 1 := by decide

theorem test_decode_sideRight : decode 8 .side [0x52] = .instr .sideRight 1 := by decide

/-- V73, V74: a response tag is no command tag, nor the other way round. -/
theorem test_decode_tag_spaces : decode 8 .command [0x49] = .rejected (.invalidTag 0x49) (some 1) ∧
    decode 8 .response [0x54] = .rejected (.invalidTag 0x54) (some 1) := by decide

/-- V77, V79: a raw zero is no boolean, and a bad field comes before trailing bytes. -/
theorem test_decode_bad_boolean : decode 8 .command [0x6C, 0x00] = .rejected (.invalidField 0x00) (some 2) ∧
    decodeBody 8 .command [0x6C, 0x37, 0x2A] = .err (.invalidField 0x37) (some 2) := by decide

/-- V83, V86, V87: log lines that end in an error. -/
theorem test_decode_bad_log : decode 8 .response [0x22, 0xC3, 0x0A] = .rejected .utf8Error (some 3) ∧
    decode 8 .response (0x22 :: List.replicate 9 0x61) = .rejected .logTooLong none ∧
    decode 8 .response (0x22 :: List.replicate 9 0x61 ++ [0x0A]) = .rejected .logTooLong none := by decide

/-- V96, V97, V99: the counts of a directed error include the side tag. -/
theorem test_parse_directed_counts : parseDirected 8 .command [0x4C, 0x58] = .err (.invalidTag 0x58) (some 2) ∧
    parseDirected 8 .command [0x4C, 0x6C, 0x37] = .err (.invalidField 0x37) (some 3) ∧
    parseDirected 8 .response [0x4C, 0x22, 0xFF, 0x0A, 0x52] = .err .utf8Error (some 4) := by decide

/-- S1, S4, V40: bytes the spec gives for a value. -/
theorem test_encode : encDirectedCommand ⟨.left, .powerOff⟩ = [0x4C, 0x70] ∧
    encCommand (.setTarget 42) = [0x54, 42, 0, 0, 0, 0, 0, 0, 0] ∧
    encCommand (.setMaxTorque (BitVec.ofInt 16 (-32768)) 32767) = [0x53, 0x00, 0x80, 0xFF, 0x7F] := by decide

/-- The table's words, numbered with the first byte on the wire most significant (log entry 19). -/
theorem test_decodeTableWord : decodeTableWord 16 0x6C31 = some (.setSideLed true) ∧
    decodeTableWord 8 0x66 = some (.addBuzzerNote none 0) ∧ decodeTableWord 8 0x52 = some .sideRight ∧
    decodeTableWord 8 0x58 = none := by decide

/-- `withFetchWord` places a command where the next step runs it. -/
theorem test_withFetchWord_command :
    nextIs (step (State.reset.withFetchWord 16 0x6C31))
      (fun t => (t.board .boardA).localCmd == [.setSideLed true]) = true := by decide

/-- `withFetchWord` places a response where the next step runs it. -/
theorem test_withFetchWord_response :
    nextIs (step (State.reset.withFetchWord 16 0x4331))
      (fun t => t.host.yielded == [⟨.left, .chargeState true⟩]) = true := by decide

/-! ## Ill-formed terms -/

theorem test_wf_frequency : (Instr.addBuzzerNote (some 0) 5).check 8 = some .frequencyZero := by decide

theorem test_wf_log_too_long : (Instr.log (List.replicate 9 0x61)).check 8 = some .logTooLong := by decide

theorem test_wf_log_newline : (Instr.log [0x61, 0x0A]).check 8 = some .logNewline := by decide

theorem test_wf_log_utf8 : (Instr.log [0xC3]).check 8 = some .logNotUtf8 := by decide

/-- Any string is an operand of `parse_log` (log entry 40). -/
theorem test_wf_parse_log : (Instr.codecParseLog [0x23]).check 8 = none := by decide

theorem test_wf_longest_log : (Instr.log (List.replicate 8 0x61)).check 8 = none := by decide

/-! ## Messages -/

/-- V120 for a message received: a command for the own side goes to `LOCAL_CMD`. -/
theorem test_command_local : nextIs (exec (.setGreenLed true) (at' .left wired))
    (fun t => (t.board .boardA).localCmd == [.setGreenLed true] && (t.board .boardA).tx == (wired.board .boardA).tx)
      = true := by decide

/-- V121 for a message received: the bytes `52 67 31` go down, the first to the device. -/
theorem test_command_forwarded : nextIs (exec (.setGreenLed true) (at' .right wired))
    (fun t => (t.engine .boardA .down).rb.contents == [0x67, 0x31] &&
      (t.engine .boardA .down).dev == some ⟨false, [0x52], []⟩ && (t.board .boardA).localCmd == []) = true := by decide

/-- P5: a power-off from downstream: the reaction, then the `write` of `52 70` upward begins. -/
theorem test_response_climbs :
    nextIs (exec .powerOffResponse { wired with rx := ⟨.right, .boardA, .board .boardA⟩ })
      (fun t => (t.board .boardA).localEvent == [.powerOffSequence] &&
        (t.board .boardA).task == .write .up [0x52, 0x70] .running .router) = true := by decide

/-- A power-off yielded at the host with its side. -/
theorem test_response_yielded : nextIs (exec .powerOffResponse (at' .right base))
    (fun t => t.host.yielded == [⟨.right, .powerOff⟩]) = true := by decide

/-! ## Ring buffer (V1 to V9, `N = 4`) -/

/-- The ring after V2. -/
def afterV2 : State := base.setRing .boardA ⟨4, [some 1, some 2, some 3, none], 2, 1⟩

/-- The ring after V3. -/
def afterV3 : State := base.setRing .boardA ⟨4, [some 5, some 6, some 3, some 4], 2, 4⟩

theorem test_rbAdd_full : nextIs (exec (.rbAdd (.alone .boardA) 9) afterV3)
    (fun t => t.ret == some (.flag false) && t.ring .boardA == afterV3.ring .boardA) = true := by decide

theorem test_rbAddAll_wraps : nextIs (exec (.rbAddAll (.alone .boardA) [4, 5, 6, 7, 8]) afterV2)
    (fun t => t.ret == some (.count 3) && t.ring .boardA == afterV3.ring .boardA) = true := by decide

theorem test_rbTake : nextIs (exec (.rbTake (.alone .boardA)) afterV3)
    (fun t => t.ret == some (.item (some 3)) && t.ring .boardA == ⟨4, [some 5, some 6, some 3, some 4], 3, 3⟩) = true := by decide

theorem test_rbPeek : nextIs (exec (.rbPeek (.alone .boardA)) afterV3) (fun t => t.ret == some (.item (some 3))) = true := by
  decide

theorem test_rbIsEmpty : nextIs (exec (.rbIsEmpty (.alone .boardA)) base) (fun t => t.ret == some (.flag true)) = true := by decide

theorem test_rbIsFull : nextIs (exec (.rbIsFull (.alone .boardA)) afterV3) (fun t => t.ret == some (.flag true)) = true := by
  decide

theorem test_rbAdd_engine : refusedFor (exec (.rbAdd (.engine .boardA .up) 1) wired) .ringInsideEngine = true := by
  decide

/-! ## Transmit engine (V10 to V24, `TX_CAPACITY = 4`) -/

theorem test_txSetDevice : nextIs (exec (.txSetDevice .boardA .up (dev true)) base)
    (fun t => t.engine .boardA .up == ⟨ringOf [], some (dev true), false⟩) = true := by decide

/-- V10. -/
theorem test_txTryWrite_empty :
    nextIs (exec (.txTryWrite .boardA .up) (withEngine .boardA .up [] true (dev true) base))
      (fun t => (t.engine .boardA .up).irqEn == false && t.ret == some (.result .ok)) = true := by decide

/-- V12. -/
theorem test_txTryWrite : nextIs (exec (.txTryWrite .boardA .up) (withEngine .boardA .up [7, 8] true (dev true) base))
    (fun t => (t.engine .boardA .up).rb.contents == [8] && (t.engine .boardA .up).irqEn &&
      (t.engine .boardA .up).dev == some ⟨false, [7], []⟩) = true := by decide

/-- V14. -/
theorem test_txKick_busy : nextIs (exec (.txKick .boardA .up) (withEngine .boardA .up [7, 8] true (dev false) base))
    (fun t => (t.engine .boardA .up).rb.contents == [7, 8] && (t.engine .boardA .up).irqEn) = true := by decide

/-- V15. -/
theorem test_txKick_error :
    nextIs (exec (.txKick .boardA .up) (withEngine .boardA .up [7] false ⟨true, [], [some ⟨3⟩]⟩ base))
      (fun t => (t.engine .boardA .up).rb.contents == [7] && !(t.engine .boardA .up).irqEn &&
        t.ret == some (.result (.err (.deviceError ⟨3⟩)))) = true := by decide

/-- V17. -/
theorem test_txWrite : nextIs (exec (.txWrite .boardA .up [1, 2, 3]) wired)
    (fun t => (t.engine .boardA .up).rb.contents == [2, 3] && (t.engine .boardA .up).irqEn &&
      t.ret == some (.result .ok)) = true := by decide

/-- V21: nothing fits and the device is not ready. -/
theorem test_txWrite_suspends :
    nextIs (exec (.txWrite .boardA .up [5]) (withEngine .boardA .up [1, 2, 3, 4] true (dev false) base))
      (fun t => (t.board .boardA).task == .write .up [5] .suspending .application && t.ret == none) = true := by decide

/-- V23. -/
theorem test_txFlush : nextIs (exec (.txFlush .boardA .up) wired) (fun t => t.ret == some (.result .ok)) = true := by
  decide

/-- V24: a ring with a byte suspends the flush. -/
theorem test_txFlush_suspends :
    nextIs (exec (.txFlush .boardA .up) (withEngine .boardA .up [7] true (dev true) base))
      (fun t => (t.board .boardA).task == .flush .up .suspending) = true := by decide

/-! ## Codec -/

/-- V78. -/
theorem test_codecParseBody : nextIs (exec (.codecParseBody .command [0x6C, 0x31, 0x2A]) base)
    (fun t => t.ret == some (.body (.ok (.command (.setSideLed true)) 2))) = true := by decide

/-- V82. -/
theorem test_codecDecodeBody : nextIs (exec (.codecDecodeBody .response [0x22, 0x68, 0x69, 0x0A, 0x52]) base)
    (fun t => t.ret == some (.body (.ok (.response (.log [0x68, 0x69])) 4))) = true := by decide

/-- V66. -/
theorem test_codecEncode : nextIs (exec (.codecEncode (.response (.log [0xC3, 0xA9]))) base)
    (fun t => t.ret == some (.bytes [0x22, 0xC3, 0xA9, 0x0A])) = true := by decide

/-- V64. -/
theorem test_codecParseLog : nextIs (exec (.codecParseLog [0x22, 0x68, 0x69, 0x0A]) base)
    (fun t => t.ret == some (.body (.ok (.response (.log [0x68, 0x69])) 4))) = true := by decide

/-- V125. -/
theorem test_codecEncDirected : nextIs (exec (.codecEncDirected (.response ⟨.left, .chargeState true⟩)) base)
    (fun t => t.ret == some (.bytes [0x4C, 0x43, 0x31])) = true := by decide

/-- V92. -/
theorem test_codecParseDirected : nextIs (exec (.codecParseDirected .command [0x4C, 0x70, 0x2A]) base)
    (fun t => t.ret == some (.directed (.ok (.command ⟨.left, .powerOff⟩) 2))) = true := by decide

/-- V93. -/
theorem test_codecDecodeDirected : nextIs (exec (.codecDecodeDirected .command [0x4C, 0x70, 0x2A]) base)
    (fun t => t.ret == some (.directed (.err .trailingBytes none))) = true := by decide

/-! ## Link receiver (V110 to V115) -/

theorem test_linkIngest : nextIs (exec (.linkIngest (.host .left) [0x4C, 0x58]) base)
    (fun t => (t.link .left).acc == [0x4C, 0x58]) = true := by decide

/-- V111: the good side tag is dropped with the bad tag. -/
theorem test_linkResolveOnce :
    nextIs (exec (.linkResolveOnce (.host .left) .response) (base.setAcc (.host .left) [0x4C, 0x58, 0x52]))
      (fun t => t.ret == some (.link (.decodeError (.invalidTag 0x58) [0x4C, 0x58])) && (t.link .left).acc == [0x52])
        = true := by decide

/-! ## Side router (V120 to V126, `BOARD_SIDE = Left`) -/

/-- V122, on the leaf B, whose side is Right. -/
theorem test_routerOnCommand_leaf : nextIs (exec (.routerOnCommand .boardB ⟨.left, .setGreenLed true⟩) wired)
    (fun t => (t.board .boardB).log == [.cannotForward ⟨.left, .setGreenLed true⟩] &&
      (t.board .boardB).localCmd == []) = true := by decide

theorem test_routerLocalDispatch : nextIs (exec (.routerLocalDispatch .boardA .recenter) wired)
    (fun t => (t.board .boardA).localCmd == [.recenter]) = true := by decide

theorem test_routerCannotForward : nextIs (exec (.routerCannotForward .boardA ⟨.right, .recenter⟩) wired)
    (fun t => (t.board .boardA).log == [.cannotForward ⟨.right, .recenter⟩]) = true := by decide

theorem test_routerForwardCommand : nextIs (exec (.routerForwardCommand .boardA ⟨.right, .powerOff⟩) wired)
    (fun t => (t.engine .boardA .down).rb.contents == [0x70] &&
      (t.engine .boardA .down).dev == some ⟨false, [0x52], []⟩) = true := by decide

/-- V124. -/
theorem test_routerOnResponse : nextIs (exec (.routerOnResponse .boardA ⟨.right, .powerOff⟩) wired)
    (fun t => (t.board .boardA).localEvent == [.powerOffSequence] &&
      (t.board .boardA).task == .write .up [0x52, 0x70] .running .router && t.ret == none) = true := by decide

/-- R234, R146: the first pass of that `write` is a step of its own. -/
theorem test_step_forwarding_pass :
    nextIs (step (next [.mainLoop .boardA] (wired.setTask .boardA (.write .up [0x52, 0x70] .running .router))))
      (fun t => (t.engine .boardA .up).rb.contents == [0x70] &&
        (t.engine .boardA .up).dev == some ⟨false, [0x52], []⟩ && (t.board .boardA).task == .idle) = true := by decide

theorem test_routerLocalReaction_none : nextIs (exec (.routerLocalReaction .boardA (.position 5)) wired)
    (fun t => (t.board .boardA).localEvent == []) = true := by decide

/-- V125. -/
theorem test_routerSendResponse : nextIs (exec (.routerSendResponse .boardA (.chargeState true)) wired)
    (fun t => (t.engine .boardA .up).rb.contents == [0x43, 0x31] &&
      (t.engine .boardA .up).dev == some ⟨false, [0x4C], []⟩) = true := by decide

/-! ## Host dispatcher (V130 to V139, `MIN_SEND_INTERVAL = 100`) -/

/-- One side of the dispatcher with these two registers. -/
def sent (p : Side) (at0 : Option Time) (pending : Option Word64) (s : State) : State :=
  s.setLink p { s.link p with lastSend := at0, pending := pending }

theorem test_hostSelectPort_falls_back : nextIs (exec (.hostSelectPort .right) State.reset)
    (fun t => t.ret == some (.port (some .left))) = true := by decide

theorem test_hostTransmit : nextIs (exec (.hostTransmit .right .powerOff) State.reset)
    (fun t => (t.link .left).port.line == [0x52, 0x70]) = true := by decide

/-- V139: a command that is no target is not stamped. -/
theorem test_hostSendCommand : nextIs (exec (.hostSendCommand .left .powerOff 252) (sent .left (some 250) none base))
    (fun t => (t.link .left).port.line == [0x4C, 0x70] && (t.link .left).lastSend == some 250) = true := by decide

theorem test_hostTransmitTarget : nextIs (exec (.hostTransmitTarget .left 5 0) (sent .left none (some 3) base))
    (fun t => (t.link .left).port.line == [0x4C, 0x54, 5, 0, 0, 0, 0, 0, 0, 0] && (t.link .left).lastSend == some 0 &&
      (t.link .left).pending == none) = true := by decide

/-- V133: the newer target replaces the one held. -/
theorem test_hostSetTarget_held : nextIs (exec (.hostSetTarget .left 9 60) (sent .left (some 0) (some 7) base))
    (fun t => (t.link .left).port.line == [] && (t.link .left).pending == some 9 &&
      (t.link .left).lastSend == some 0) = true := by decide

/-- V137: at the interval's end it is sent, and the pending one is dropped. -/
theorem test_hostSetTarget_sent : nextIs (exec (.hostSetTarget .left 12 200) (sent .left (some 100) (some 11) base))
    (fun t => (t.link .left).port.line == [0x4C, 0x54, 12, 0, 0, 0, 0, 0, 0, 0] && (t.link .left).pending == none &&
      (t.link .left).lastSend == some 200) = true := by decide

/-- P5, step 4: a bad byte at the head is dropped alone. -/
theorem test_hostReceive :
    nextIs (exec (.hostReceive .left)
        (base.setLink .left { base.link .left with port := ⟨[0xFF, 0x52, 0x70], [], [], [], []⟩ }))
      (fun t => (t.link .left).acc == [0x52, 0x70] && t.host.log == [.decodeError (.invalidTag 0xFF) [0xFF] .left] &&
        t.host.yielded == []) = true := by decide

/-- The host's thread is in a tick at 100, whose stage `st` comes next. -/
def ticking (es : List Event) (st : TickStage) : State :=
  let s := next es (sent .left (some 0) (some 9) base)
  { s with host := { s.host with clock := 100, task := .tick st 100 } }

/-- V134. -/
theorem test_hostTick_early : nextIs (exec (.hostTick 99) (sent .left (some 0) (some 9) base))
    (fun t => (t.link .left).port.line == [] && (t.link .left).pending == some 9) = true := by decide

/-- V135. -/
theorem test_hostTick_due : nextIs (exec (.hostTick 100) (sent .left (some 0) (some 9) base))
    (fun t => (t.link .left).port.line == [0x4C, 0x54, 9, 0, 0, 0, 0, 0, 0, 0] && (t.link .left).pending == none &&
      (t.link .left).lastSend == some 100) = true := by decide

/-! ## Steps of the other agents -/

/-- R12, R257: a byte arrives between the sends and the receives of a tick, and the tick stays where it is. -/
theorem test_step_wireDeliver_in_tick :
    nextIs (step (appendLine .boardA .up [0x72] (ticking [.wireDeliver (.fromEngine .boardA .up)] (.receive .left))))
      (fun t => (t.link .left).port.rx == [0x72] && t.host.task == .tick (.receive .left) 100) = true := by decide

/-- R256, R257: a `receive` stage of a tick takes what has arrived by then. -/
theorem test_step_hostNext_receive :
    nextIs (step (portAnswer .left (fun q => { q with rx := [0x4C, 0x70] }) (ticking [.hostNext] (.receive .left))))
      (fun t => t.host.yielded == [⟨.left, .powerOff⟩] && t.host.task == .tick (.receive .right) 100 && t.ret == none)
      = true := by decide

/-- R257: the last stage ends the tick. -/
theorem test_step_hostNext_last :
    nextIs (step (ticking [.hostNext] (.receive .right))) (fun t => t.host.task == .idle && t.ret == some .unit) = true := by
  decide

/-- R294, R295: the handler hands over the oldest byte and wakes the waiting main loop. -/
theorem test_step_readyInterrupt :
    nextIs (step (next [.readyInterrupt .boardA .up true]
        ((withEngine .boardA .up [1, 2, 3, 4] true (dev true) base).setTask .boardA
          (.write .up [5] .waiting .application))))
      (fun t => (t.engine .boardA .up).rb.contents == [2, 3, 4] &&
        (t.board .boardA).task == .write .up [5] .running .application && !(t.board .boardA).inHandler) = true := by
  decide

/-- R301, R62: a byte leaves the device, and then arrives at the next board. -/
theorem test_step_devEmit :
    nextIs (step (next [.devEmit .boardA .down] (withEngine .boardA .down [] false ⟨false, [9, 8], []⟩ base)))
      (fun t => (t.board .boardA).line.down == [9] && (t.engine .boardA .down).dev == some ⟨false, [8], []⟩) = true := by
  decide

theorem test_step_wireDeliver :
    nextIs (step (next [.wireDeliver (.fromEngine .boardA .down)] (appendLine .boardA .down [9] base)))
      (fun t => (t.board .boardA).line.down == [] && (t.board .boardB).rxq.up == [9]) = true := by decide

/-- R216: a received byte goes into the buffer, and `resolve_once` is still to run. -/
theorem test_step_receive :
    nextIs (step (next [.receive .boardA .down] (base.withReceive .boardA .down [0x00] [])))
      (fun t => (t.board .boardA).acc.down == [0x00] && (t.board .boardA).rxq.down == [] &&
        (t.board .boardA).task == .resolve .down) = true := by decide

/-- V110 on a board's downstream link: `resolve_once` takes the bad byte. -/
theorem test_step_resolve_error :
    nextIs (step (next [.mainLoop .boardA] ((base.withReceive .boardA .down [] [0x00]).setTask .boardA (.resolve .down))))
      (fun t => (t.board .boardA).acc.down == [] && (t.board .boardA).task == .settle .down [0x00]) = true := by decide

/-- R218: and then it is logged. -/
theorem test_step_settle_error :
    nextIs (step (next [.mainLoop .boardA] (base.setTask .boardA (.settle .down [0x00]))))
      (fun t => (t.board .boardA).log == [.decodeError .down (.invalidTag 0) [0]] &&
        (t.board .boardA).task == .idle) = true := by decide

/-- R219, R280: a failed read discards the buffer and is logged with its error. -/
theorem test_step_readFault :
    nextIs (step (next [.readFault .boardA .down ⟨3⟩] (base.withReceive .boardA .down [0x31] [0x4C, 0x43])))
      (fun t => (t.board .boardA).acc.down == [] && (t.board .boardA).log == [.readError .down (.deviceError ⟨3⟩)])
      = true := by decide

/-- R280: the error of a failed `bytes_available` reaches the host's `LOG`. -/
theorem test_hostReceive_fault :
    nextIs (exec (.hostReceive .left)
        (base.setLink .left { base.link .left with acc := [0x4C], port := ⟨[0x43], [], [], [some ⟨7⟩], []⟩ }))
      (fun t => (t.link .left).acc == [] && t.host.log == [.readError .left (.deviceError ⟨7⟩)]) = true := by decide

/-- R304: the host reaches no element of a board, its stand-alone ring neither. -/
theorem test_step_wrong_station_ring :
    refusedFor (step (next [.hostLoop (.rbTake (.alone .boardA))] wired)) .wrongStation = true := by decide

/-- R304: the host does not run a board's operations. -/
theorem test_step_wrong_station :
    refusedFor (step (next [.hostLoop (.txKick .boardA .up)] wired)) .wrongStation = true := by decide

/-- R297: a handler does not block. -/
theorem test_step_handler_write :
    refusedFor (step (next [.otherInterrupt .boardA (some (.txWrite .boardA .up [1])) true] wired)) .notMainLoop
      = true := by decide

/-! ## Witnesses: for each obligation with hypotheses, values that meet them, for each of its clauses -/

/-- A state whose board A is busy sending upward. -/
def sending : State := withEngine .boardA .up [1, 2, 3, 4] true (dev true) base

/-- A state whose board A has a `write` waiting on a full ring. -/
def waiting (ph : Phase) : State := sending.setTask .boardA (.write .up [5] ph .application)

theorem witness_RingAddAppendsOrRefuses :
    (∃ s : State, (s.ring .boardA).Wf ∧ (s.ring .boardA).length < (s.ring .boardA).cap ∧
      (s.ring .boardA).length + 1 = (s.ring .boardA).cap) ∧
      ∃ s : State, (s.ring .boardA).Wf ∧ (s.ring .boardA).length = (s.ring .boardA).cap :=
  ⟨⟨base.setRing .boardA (ringOf [1, 2, 3]), by decide⟩, ⟨afterV3, by decide⟩⟩

theorem witness_RingAddAllStoresWhatFits :
    ((afterV2.ring .boardA).Wf ∧ (afterV2.ring .boardA).length ≠ (afterV2.ring .boardA).cap) ∧
      (afterV3.ring .boardA).Wf ∧ (afterV3.ring .boardA).length = (afterV3.ring .boardA).cap := by decide

theorem witness_RingTakeReturnsTheOldest :
    ((base.ring .boardA).Wf ∧ (base.ring .boardA).length = 0) ∧
      (afterV2.ring .boardA).Wf ∧ (afterV2.ring .boardA).length ≠ 0 ∧ (afterV2.ring .boardA).length = 1 := by decide

theorem witness_RingQueriesOnlyReturn : (afterV3.ring .boardA).Wf := by decide

theorem witness_RingRefinesBoundedQueue : (afterV2.ring .boardA).Wf ∧
    queueRun (afterV2.ring .boardA).cap [.addAll [4, 5, 6, 7], .take, .isFull, .add 9, .peek, .isEmpty]
      (afterV2.ring .boardA).contents =
      ([some (.count 3), some (.item (some 3)), some (.flag false), some (.flag true), some (.item (some 4)),
        some (.flag false)], [4, 5, 6, 9]) := by decide

theorem witness_RingOperationsKeepTheirBounds :
    ∃ t, (afterV3.ring .boardA).start < (afterV3.ring .boardA).cap ∧
      (afterV3.ring .boardA).length ≤ (afterV3.ring .boardA).cap ∧
      exec (QueueOp.take.on .boardA) afterV3 = .next t :=
  ⟨_, by decide, by decide, rfl⟩

theorem witness_KickFollowsItsTable : sending.hasDir .boardA .up = true ∧ (sending.engine .boardA .up).rb.Wf ∧
    (sending.engine .boardA .up).dev = some (dev true) ∧
    Instr.txTryWrite .boardA .up ∈ [Instr.txKick .boardA .up, .txTryWrite .boardA .up] := by decide

theorem witness_WithoutDeviceWriteAndFlushAreRefused :
    base.hasDir .boardA .down = true ∧ (base.engine .boardA .down).dev = none ∧ base.Free .boardA := by decide

theorem witness_DeviceIsSetOnceForGood :
    (base.hasDir .boardA .up = true ∧ base.Free .boardA ∧ (base.engine .boardA .up).dev = none) ∧
      (wired.hasDir .boardA .up = true ∧ wired.Free .boardA ∧ (wired.engine .boardA .up).dev ≠ none) ∧
      ∃ t, exec (.txFlush .boardA .up) wired = .next t :=
  ⟨by decide, by decide, _, rfl⟩

theorem witness_WriteRunsPassByPass :
    (wired.hasDir .boardA .up = true ∧ (wired.engine .boardA .up).rb.Wf ∧
      (wired.engine .boardA .up).dev = some (dev true) ∧ wired.Free .boardA) ∧
      ((waiting .running).hasDir .boardA .up = true ∧ ((waiting .running).engine .boardA .up).rb.Wf ∧
        ((waiting .running).engine .boardA .up).dev = some (dev true) ∧
        ((waiting .running).board .boardA).inHandler = false ∧
        ((waiting .running).board .boardA).task = .write .up [5] .running .application ∧
        (next [.mainLoop .boardA] (waiting .running)).schedule = [.mainLoop .boardA]) := by decide

theorem witness_FlushTestsUntilDrained :
    (wired.hasDir .boardA .up = true ∧ (wired.engine .boardA .up).rb.Wf ∧
      (wired.engine .boardA .up).dev = some (dev true) ∧ wired.Free .boardA) ∧
      (∃ s : State, s = next [.mainLoop .boardA] (wired.setTask .boardA (.flush .up .running)) ∧
        s.hasDir .boardA .up = true ∧ (s.engine .boardA .up).rb.Wf ∧ (s.engine .boardA .up).dev = some (dev true) ∧
        (s.board .boardA).inHandler = false ∧ (s.board .boardA).task = .flush .up .running ∧
        s.schedule = [.mainLoop .boardA]) :=
  ⟨by decide, _, rfl, by decide⟩

theorem witness_MainLoopOperationsNeedAFreeMainLoop : ∃ t, exec (.routerLocalDispatch .boardA .recenter) wired = .next t :=
  ⟨_, rfl⟩

theorem witness_SuspendedContextsWakeOnInterrupts :
    (∃ s : State, s = next [.mainLoop .boardA] (waiting .suspending) ∧ (s.board .boardA).inHandler = false ∧
      s.schedule = [.mainLoop .boardA] ∧ (s.board .boardA).task = .write .up [5] .suspending .application) ∧
    (∃ s : State, s = next [.mainLoop .boardA] (sending.setTask .boardA (.flush .up .suspending)) ∧
      (s.board .boardA).inHandler = false ∧ s.schedule = [.mainLoop .boardA] ∧
      (s.board .boardA).task = .flush .up .suspending) ∧
    (∃ s : State, s = next [.mainLoop .boardA] (waiting .waiting) ∧ (s.board .boardA).inHandler = false ∧
      s.schedule = [.mainLoop .boardA] ∧ (s.board .boardA).task = .write .up [5] .waiting .application) ∧
    (∃ s : State, s = next [.otherInterrupt .boardA none false] (waiting .waiting) ∧
      (s.board .boardA).inHandler = false ∧ s.schedule = [.otherInterrupt .boardA none false] ∧
      (s.board .boardA).task = .write .up [5] .waiting .application) ∧
    (∃ s : State, s = next [.otherInterrupt .boardA none false] (sending.setTask .boardA (.flush .up .waiting)) ∧
      (s.board .boardA).inHandler = false ∧ s.schedule = [.otherInterrupt .boardA none false] ∧
      (s.board .boardA).task = .flush .up .waiting) ∧
    (∃ s : State, s = next [.otherInterrupt .boardA none false] (waiting .suspending) ∧
      (s.board .boardA).inHandler = false ∧ s.schedule = [.otherInterrupt .boardA none false] ∧
      (s.board .boardA).task = .write .up [5] .suspending .application) ∧
    (∃ s : State, s = next [.otherInterrupt .boardA none true] (sending.setTask .boardA (.flush .up .suspending)) ∧
      (s.board .boardA).inHandler = false ∧ s.schedule = [.otherInterrupt .boardA none true] ∧
      (s.board .boardA).task = .flush .up .suspending) ∧
    (∃ s t : State, s = next [.readyInterrupt .boardA .up false] (waiting .waiting) ∧
      (s.board .boardA).inHandler = false ∧ RunsHandler s .boardA false (.readyInterrupt .boardA .up false) ∧
      s.schedule = [.readyInterrupt .boardA .up false] ∧ step s = .next t ∧ s.hasDir .boardA .up = true ∧
      (s.board .boardA).task = .write .up [5] .waiting .application) ∧
    (∃ s t : State, s = next [.otherInterrupt .boardA (some (.txTryWrite .boardA .up)) false]
        (sending.setTask .boardA (.flush .up .waiting)) ∧ (s.board .boardA).inHandler = false ∧
      RunsHandler s .boardA false (.otherInterrupt .boardA (some (.txTryWrite .boardA .up)) false) ∧
      s.schedule = [.otherInterrupt .boardA (some (.txTryWrite .boardA .up)) false] ∧ step s = .next t ∧
      s.hasDir .boardA .up = true ∧ (s.board .boardA).task = .flush .up .waiting) :=
  ⟨⟨_, rfl, by decide⟩, ⟨_, rfl, by decide⟩, ⟨_, rfl, by decide⟩, ⟨_, rfl, by decide⟩, ⟨_, rfl, by decide⟩,
    ⟨_, rfl, by decide⟩, ⟨_, rfl, by decide⟩,
    ⟨_, _, rfl, rfl, .inr ⟨.up, dev true, rfl, rfl, rfl, rfl, rfl⟩, rfl, rfl, rfl, rfl⟩,
    ⟨_, _, rfl, rfl, .inl ⟨_, rfl⟩, rfl, rfl, rfl, rfl⟩⟩

theorem witness_ReadyInterruptRunsTryWriteOnce :
    (∃ s : State, s = next [.readyInterrupt .boardA .up true] sending ∧
      s.schedule = [.readyInterrupt .boardA .up true] ∧ (s.board .boardA).inHandler = false ∧
      s.hasDir .boardA .up = true ∧
      ∃ w, (s.engine .boardA .up).dev = some w ∧ (s.engine .boardA .up).irqEn = true ∧ w.ready = true) ∧
    (∃ s : State, s = next [.readyInterrupt .boardA .up true] wired ∧
      s.schedule = [.readyInterrupt .boardA .up true] ∧ (s.board .boardA).inHandler = false ∧
      s.hasDir .boardA .up = true ∧ (s.engine .boardA .up).irqEn = false) :=
  ⟨⟨_, rfl, by decide, by decide, by decide, dev true, by decide⟩, ⟨_, rfl, by decide⟩⟩

theorem witness_ReadyInterruptSendsTheOldestByte :
    ∃ s : State, s = next [.readyInterrupt .boardA .up true] sending ∧
      s.schedule = [.readyInterrupt .boardA .up true] ∧ (s.board .boardA).inHandler = false ∧
      s.hasDir .boardA .up = true ∧ (s.engine .boardA .up).rb.Wf ∧ (s.engine .boardA .up).dev = some (dev true) ∧
      (s.engine .boardA .up).irqEn = true ∧ (dev true).ready = true ∧ (dev true).answers.head? = none ∧
      (s.engine .boardA .up).rb.contents = [1, 2, 3, 4] :=
  ⟨_, rfl, by decide⟩

/-- The invariant of a board, element by element. -/
theorem boardWf_of {s : State} {b : BoardId} (h0 : (s.ring b).Wf) (hc : (s.ring b).cap = s.cfg.ringCapacity)
    (h1 : (s.engine b .up).Wf s.cfg.txCapacity) (h2 : (s.engine b .down).Wf s.cfg.txCapacity)
    (h3 : s.hasDir b .down = false → (s.engine b .down).dev = none) (h4 : s.TaskWf b)
    (h5 : (s.board b).inHandler = false) : s.BoardWf b :=
  ⟨h0, hc, fun d => by cases d <;> assumption, h3, h4, h5⟩

/-- Board A is about to serve its ready interrupt. -/
def serving : State := next [.readyInterrupt .boardA .up true] sending

theorem serving_inv : serving.Inv where
  cfg := by decide
  board b := by cases b <;> exact boardWf_of (by decide) rfl (by decide) (by decide) (by decide) trivial rfl
  host p := by cases p <;> exact ⟨fun h => absurd rfl h, nofun⟩
  tick := nofun

theorem serving_armed : serving.Armed := by
  intro b d
  cases b <;> cases d <;> decide

theorem serving_noErrorWaits : serving.NoErrorWaits := by
  intro b d w hw a ha
  cases b <;> cases d <;> first | (cases hw; cases ha) | cases hw

theorem witness_InterruptStaysArmedIffNonEmpty :
    ∃ t, serving.Inv ∧ serving.Armed ∧ serving.NoErrorWaits ∧ step serving = .next t :=
  ⟨_, serving_inv, serving_armed, serving_noErrorWaits, rfl⟩

/-- Board A's main loop runs a pass of a `write` of one byte on its full ring. -/
def passing : State := next [.mainLoop .boardA] (waiting .running)

theorem passing_inv : passing.Inv where
  cfg := by decide
  board b := by
    cases b
    · exact boardWf_of (by decide) rfl (by decide) (by decide) (by decide) ⟨rfl, nofun, nofun⟩ rfl
    · exact boardWf_of (by decide) rfl (by decide) (by decide) (by decide) trivial rfl
  host p := by cases p <;> exact ⟨fun h => absurd rfl h, nofun⟩
  tick := nofun

theorem witness_EngineBytesLeaveInOrder :
    (∃ t, serving.Inv ∧ step serving = .next t ∧ (serving.engine .boardA .up).dev = some (dev true) ∧
      stepWrites serving .boardA .up = []) ∧
    ∃ t, passing.Inv ∧ step passing = .next t ∧ (passing.engine .boardA .up).dev = some (dev true) ∧
      stepWrites passing .boardA .up = [5] :=
  ⟨⟨_, serving_inv, rfl, rfl, rfl⟩, _, passing_inv, rfl, rfl, rfl⟩

theorem witness_EveryStepKeepsTheInvariant : ∃ t, serving.Inv ∧ step serving = .next t := ⟨_, serving_inv, rfl⟩

theorem witness_InterruptsDrainTheRing :
    ∃ s : State, s = next (List.replicate 4 [Event.readyInterrupt .boardA .up true, Event.devComplete .boardA .up]).flatten
        sending ∧ (s.board .boardA).inHandler = false ∧ s.hasDir .boardA .up = true ∧
      (s.engine .boardA .up).rb.Wf ∧ (s.engine .boardA .up).dev = some (dev true) ∧ (s.engine .boardA .up).Armed ∧
      (dev true).ready = true ∧ (dev true).answers = [] ∧
      s.schedule = (List.replicate (s.engine .boardA .up).rb.contents.length
        [Event.readyInterrupt .boardA .up true, Event.devComplete .boardA .up]).flatten :=
  ⟨_, rfl, by decide⟩

/-- Board A's device is not ready behind its full ring, its main loop is in `task`, and a handler calls `try_write`. -/
def stalled (task : Task) : State :=
  next [.otherInterrupt .boardA (some (.txTryWrite .boardA .up)) true]
    ((withEngine .boardA .up [1, 2, 3, 4] true (dev false) base).setTask .boardA task)

theorem stalled_inv {task : Task} (h : (stalled task).TaskWf .boardA) : (stalled task).Inv where
  cfg := (by decide : (stalled .idle).cfg.Wf)
  board b := by
    cases b
    · exact boardWf_of (by decide : ((stalled .idle).ring .boardA).Wf) rfl
        (by decide : ((stalled .idle).engine .boardA .up).Wf 4) (by decide : ((stalled .idle).engine .boardA .down).Wf 4)
        (fun _ => rfl) h rfl
    · exact boardWf_of (by decide : ((stalled .idle).ring .boardB).Wf) rfl
        (by decide : ((stalled .idle).engine .boardB .up).Wf 4) (by decide : ((stalled .idle).engine .boardB .down).Wf 4)
        (fun _ => rfl) trivial rfl
  host p := by cases p <;> exact ⟨fun h => absurd rfl h, nofun⟩
  tick := nofun

theorem witness_StalledDeviceBlocksWriteAndFlush :
    (∃ s t : State, s = stalled (.write .up [5] .waiting .application) ∧ s.Inv ∧
      (s.engine .boardA .up).dev = some (dev false) ∧ (dev false).ready = false ∧ (dev false).answers = [] ∧
      s.schedule.head? ≠ some (.devComplete .boardA .up) ∧ (∀ a, s.schedule.head? ≠ some (.devAnswer .boardA .up a)) ∧
      step s = .next t ∧ (s.board .boardA).task = .write .up [5] .waiting .application ∧
      (s.engine .boardA .up).rb.length = (s.engine .boardA .up).rb.cap) ∧
    ∃ s t : State, s = stalled (.flush .up .suspending) ∧ s.Inv ∧ (s.engine .boardA .up).dev = some (dev false) ∧
      s.schedule.head? ≠ some (.devComplete .boardA .up) ∧ (∀ a, s.schedule.head? ≠ some (.devAnswer .boardA .up a)) ∧
      step s = .next t ∧ (s.board .boardA).task = .flush .up .suspending :=
  ⟨⟨_, _, rfl, stalled_inv ⟨rfl, nofun, nofun⟩, rfl, rfl, rfl, nofun, nofun, rfl, rfl, rfl⟩,
    _, _, rfl, stalled_inv ⟨rfl, nofun⟩, rfl, nofun, nofun, rfl, rfl⟩

/-! ### Codec -/

theorem witness_DecodeOfEncodeIsTheInstruction :
    (Instr.log [0xC3, 0xA9]).Wf 8 ∧ encode (.log [0xC3, 0xA9]) = some [0x22, 0xC3, 0xA9, 0x0A] ∧
      (Instr.log [0xC3, 0xA9]).tableMap? = some .response := by decide

theorem witness_EncodeOfDecodeIsTheBytes : decode 8 .command [0x6C, 0x31, 0x2A] = .instr (.setSideLed true) 2 := by decide

theorem witness_CodecRoundTrips : (Val.command (.addBuzzerNote (some 440) 250)).Wf base.cfg.logMax ∧
    (Directed.response ⟨.right, .log (List.replicate 8 0x61)⟩).Wf base.cfg.logMax := by decide

theorem witness_TruncatedMessagesAreIncomplete :
    ((Val.command (.setTarget 42)).Wf 8 ∧ 8 < (encVal (.command (.setTarget 42))).length) ∧
      (Directed.command ⟨.left, .powerOff⟩).Wf 8 ∧ 1 < (encDirected (.command ⟨.left, .powerOff⟩)).length := by decide

theorem witness_TrailingBytesAreAnErrorExceptAfterLogs :
    (Val.command .powerOff).Wf 8 ∧ (Val.response (.log [0x68])).Wf 8 ∧ (Directed.command ⟨.left, .powerOff⟩).Wf 8 ∧
      (Directed.response ⟨.right, .log [0x68]⟩).Wf 8 := by decide

theorem witness_ParseVerdictsArePrefixStable :
    parseBody 8 .command [0x6C, 0x31] ≠ .incomplete ∧ parseBody 8 .command ([0x54] ++ [42]) = .incomplete ∧
      parseDirected 8 .command [0x4C, 0x70] ≠ .incomplete ∧ parseDirected 8 .command ([0x4C] ++ [0x54]) = .incomplete := by
  decide

theorem witness_ErrorsReportTheirCount :
    (parseBody 8 .command [0x58] = .err (.invalidTag 0x58) (some 1) ∧
      parseBody 8 .command [0x6C, 0x37] = .err (.invalidField 0x37) (some 2) ∧
      parseBody 8 .response [0x22, 0xFF, 0x0A] = .err .utf8Error (some 3) ∧
      parseBody 8 .response (0x22 :: List.replicate 9 0x61) = .err .logTooLong none ∧
      decodeBody 8 .command [0x70, 0x2A] = .err .trailingBytes none) ∧
    parseDirected 8 .command [0x58, 0x70] = .err (.invalidTag 0x58) (some 1) ∧
      parseDirected 8 .command [0x4C, 0x58] = .err (.invalidTag 0x58) (some 2) ∧
      parseDirected 8 .response (0x4C :: 0x22 :: List.replicate 9 0x61) = .err .logTooLong none ∧
      decodeDirected 8 .command [0x4C, 0x70, 0x2A] = .err .trailingBytes none := by decide

theorem witness_LogLinesEndAtTheFirstNewline : (0x0A#8) ∉ List.replicate 8 0x61#8 ∧
    ([] : List Byte).head? ≠ some 0x22#8 ∧ [0x23#8].head? ≠ some 0x22#8 := by decide

theorem witness_NoEncodingBeginsAnother : (Val.command .powerOff).Wf 8 ∧ encVal (.command .powerOff) <+: encVal (.command .powerOff) ∧
    (Directed.command ⟨.left, .powerOff⟩).Wf 8 ∧
    encDirected (.command ⟨.left, .powerOff⟩) <+: encDirected (.command ⟨.left, .powerOff⟩) := by decide

/-- R98: the edges of the table: `C0 80`, `C1`, `ED A0 80`, `F5` and a sequence cut short are in no row. -/
theorem witness_ValidUtf8IsSequencesOfTheTable :
    (∀ b ∈ [0x61#8, 0x7F#8], b.toNat ≤ 0x7F) ∧ utf8Valid [0xF4, 0x8F, 0xBF, 0xBF] = true ∧
      Utf8Sequence [0xC3, 0xA9] ∧ [0xC3#8, 0xA9#8].length ≠ 1 ∧ utf8Valid [0xC0, 0x80] = false ∧
      utf8Valid [0xED, 0xA0, 0x80] = false ∧ utf8Valid [0xF5] = false ∧ utf8Valid [0xE2, 0x82] = false :=
  ⟨by decide, by decide, ⟨[(0xC2, 0xDF), (0x80, 0xBF)], by decide, by decide⟩, by decide, by decide, by decide, by decide,
    by decide⟩

/-! ### Link receiver -/

theorem witness_IngestAppendsToTheBuffer : base.hasDir .boardA .down = true ∧ base.Free .boardA := by decide

theorem witness_ResolveOnceDropsOnlyWhatWasSettled :
    (base.hasDir .boardA .down = true ∧ base.Free .boardA) ∧
      parseDirected 8 .response [0x4C] = .incomplete ∧
      parseDirected 8 .response [0x4C, 0x43, 0x31, 0x52] = .ok (.response ⟨.left, .chargeState true⟩) 3 ∧
      parseDirected 8 .response [0x4C, 0x58, 0x52] = .err (.invalidTag 0x58) (some 2) ∧
      parseDirected 8 .response (0x4C :: 0x22 :: List.replicate 9 0x61) = .err .logTooLong none := by decide

/-- Board A's main loop is about to act on `4C 67 31`. -/
def settling : State := next [.mainLoop .boardA] (wired.setTask .boardA (.settle .up [0x4C, 0x67, 0x31]))

theorem witness_StepRunsTheDecodedMessage :
    settling.schedule = [.mainLoop .boardA] ∧ (settling.board .boardA).inHandler = false ∧
      (settling.board .boardA).task = .settle .up [0x4C, 0x67, 0x31] ∧
      decode settling.cfg.logMax .side [0x4C, 0x67, 0x31] = .instr (.ofSide .left) 1 ∧
      decode settling.cfg.logMax (tableMapOf .up) ([0x4C#8, 0x67#8, 0x31#8].drop 1) = .instr (.setGreenLed true) 2 := by
  decide

theorem witness_StepRunsTheRequestedOperation :
    (∃ s : State, s = next [.mainLoop .boardA]
        (wired.setBoard .boardA { wired.board .boardA with todo := [.txFlush .boardA .up] }) ∧
      s.schedule = [.mainLoop .boardA] ∧ s.Free .boardA ∧ (s.board .boardA).todo = [.txFlush .boardA .up] ∧
      ownerOf (.txFlush .boardA .up) = .board .boardA) ∧
    ((next [.hostLoop (.hostTick 5)] base).schedule = [.hostLoop (.hostTick 5)] ∧ base.host.task = .idle ∧
      ownerOf (.hostTick 5) = .host) ∧
    (ticking [.hostLoop (.hostTick 5)] (.receive .left)).host.task ≠ .idle ∧
    (next [.hostNext] base).schedule = [.hostNext] ∧ (next [.hostNext] base).host.task = .idle :=
  ⟨⟨_, rfl, by decide⟩, by decide⟩

/-- One byte of `4C 67 31` is still to be taken. -/
def receiving : State := next [.receive .boardA .up] (wired.withReceive .boardA .up [0x31] [0x4C, 0x67])

/-- The bytes `acc` wait for `resolve_once`. -/
def resolving (acc : List Byte) : State :=
  next [.mainLoop .boardA] ((wired.withReceive .boardA .up [] acc).setTask .boardA (.resolve .up))

theorem witness_BoardBufferStaysAHeadOfAMessage :
    (∃ t, receiving.HeadWaits .boardA .up ∧ receiving.schedule.head? ≠ some (.mainLoop .boardA) ∧
      step receiving = .next t) ∧
    (∃ s t : State, s = (resolving [0x4C, 0x67, 0x31]).setBoard .boardA
        { (resolving [0x4C, 0x67, 0x31]).board .boardA with todo := [.linkIngest (.board .boardA .up) [0x4C]] } ∧
      s.HeadWaits .boardA .up ∧ s.schedule.head? = some (.mainLoop .boardA) ∧ (s.board .boardA).task ≠ .idle ∧
      step s = .next t) ∧
    (∃ s t : State, s = next [.mainLoop .boardA]
        (wired.setBoard .boardA { wired.board .boardA with todo := [.txKick .boardA .up] }) ∧
      s.HeadWaits .boardA .up ∧ (s.board .boardA).task = .idle ∧
      (s.board .boardA).todo.head? = some (.txKick .boardA .up) ∧ step s = .next t) ∧ 7 ≤ receiving.cfg.logMax :=
  ⟨⟨_, rfl, nofun, rfl⟩, ⟨_, _, rfl, ⟨nofun, rfl⟩, rfl, nofun, rfl⟩, ⟨_, _, rfl, rfl, rfl, rfl, rfl⟩, by decide⟩

theorem witness_MessagesArriveByteByByte :
    ∃ s : State, s = next [.receive .boardA .up, .mainLoop .boardA, .receive .boardA .up, .mainLoop .boardA,
        .mainLoop .boardA] (wired.withReceive .boardA .up [0x4C, 0x70] []) ∧
      (Directed.command ⟨.left, .powerOff⟩).Wf s.cfg.logMax ∧
      (Directed.command ⟨.left, .powerOff⟩).val.map = mapOf .up ∧ s.Free .boardA ∧ s.hasDir .boardA .up = true ∧
      (s.board .boardA).acc.get .up = [] ∧
      (s.board .boardA).rxq.get .up = encDirected (.command ⟨.left, .powerOff⟩) ++ [] ∧
      s.schedule = (List.replicate (encDirected (.command ⟨.left, .powerOff⟩)).length
        [Event.receive .boardA .up, Event.mainLoop .boardA]).flatten ++ .mainLoop .boardA :: [] :=
  ⟨_, rfl, by decide⟩

theorem witness_ReceiveStepsTakeResolveAndSettle :
    (receiving.schedule = [.receive .boardA .up] ∧ receiving.Free .boardA ∧ receiving.hasDir .boardA .up = true ∧
      (receiving.board .boardA).rxq.get .up = [0x31]) ∧
    ((resolving [0x4C]).HeadWaits .boardA .up ∧ ((resolving [0x4C]).board .boardA).task = .resolve .up ∧
      ((resolving [0x4C]).board .boardA).inHandler = false ∧ parseDirected 8 (mapOf .up) [0x4C] = .incomplete) ∧
    ((resolving [0x4C, 0x58]).HeadWaits .boardA .up ∧
      parseDirected 8 (mapOf .up) [0x4C, 0x58] = .err (.invalidTag 0x58) (some 2)) ∧
    (next [.readFault .boardA .down ⟨3⟩] wired).schedule = [.readFault .boardA .down ⟨3⟩] ∧ wired.Free .boardA ∧
      wired.hasDir .boardA .down = true :=
  ⟨by decide, ⟨⟨nofun, rfl⟩, rfl, rfl, rfl⟩, ⟨⟨nofun, rfl⟩, rfl⟩, by decide⟩

/-! ### Side router -/

theorem witness_CommandsForThisBoardAreDispatched :
    (Command.addBuzzerNote (some 440) 250).Wf ∧ (at' .left wired).Free .boardA ∧ (at' .left wired).rx.cmdAt = .boardA ∧
      (at' .left wired).rx.side = (at' .left wired).cfg.boardSide.get .boardA := by decide

theorem witness_LeavesLogWhatTheyCannotForward :
    ∃ s : State, s = { wired with rx := ⟨.left, .boardB, .host .left⟩ } ∧ Command.recenter.Wf ∧ s.Free .boardB ∧
      Side.left ≠ s.cfg.boardSide.get .boardB ∧ s.cfg.hasDownstream.get .boardB = false ∧ s.rx.cmdAt = .boardB ∧
      s.rx.side = .left :=
  ⟨_, rfl, by decide⟩

theorem witness_CommandsForTheOtherSideAreForwarded :
    Command.recenter.Wf ∧ (at' .right wired).Free .boardA ∧ (at' .right wired).cfg.hasDownstream.get .boardA = true ∧
      ((at' .right wired).engine .boardA .down).rb.Wf ∧
      ((at' .right wired).engine .boardA .down).dev = some (dev true) ∧
      Side.right ≠ (at' .right wired).cfg.boardSide.get .boardA ∧ (at' .right wired).rx.cmdAt = .boardA ∧
      (at' .right wired).rx.side = .right := by decide

theorem witness_ResponsesClimbTheChain :
    ∃ s : State, s = { next [.mainLoop .boardA] wired with rx := ⟨.right, .boardA, .board .boardA⟩ } ∧
      (Response.log (List.replicate 8 0x61)).Wf s.cfg.logMax ∧ s.Free .boardA ∧
      s.cfg.hasDownstream.get .boardA = true ∧ (s.engine .boardA .up).rb.Wf ∧
      (s.engine .boardA .up).dev = some (dev true) ∧ s.rx.respAt = .board .boardA ∧ s.rx.side = .right ∧
      s.schedule = [.mainLoop .boardA] :=
  ⟨_, rfl, by decide⟩

theorem witness_OnlyPowerOffHasALocalReaction :
    Response.powerOff.Wf wired.cfg.logMax ∧ (Response.position 5).Wf wired.cfg.logMax ∧ wired.Free .boardA := by decide

theorem witness_OwnResponsesCarryTheOwnSide :
    (Response.log [0x68, 0x69]).Wf wired.cfg.logMax ∧ wired.Free .boardA ∧ (wired.engine .boardA .up).rb.Wf ∧
      (wired.engine .boardA .up).dev = some (dev true) := by decide

theorem witness_ResponsesAtTheHostAreYielded :
    (Response.log (List.replicate 8 0x61)).Wf (at' .left base).cfg.logMax ∧
      (at' .left base).rx.respAt = .host .left := by decide

/-! ### Host dispatcher -/

theorem witness_TransmitWritesOrDrops :
    (∃ s : State, s = { base with cfg := { base.cfg with port := ⟨false, false⟩ } } ∧ Command.powerOff.Wf ∧
      selectPort s.cfg .left = none) ∧
    (selectPort base.cfg .left = some .left ∧ (base.link .left).port.writeAnswers.head? = none) ∧
    (∃ s : State, s = portAnswer .left (fun q => { q with writeAnswers := [some ⟨⟨1⟩, 1⟩] }) base ∧
      selectPort s.cfg .left = some .left ∧ (s.link .left).port.writeAnswers.head? = some (some ⟨⟨1⟩, 1⟩)) :=
  ⟨⟨_, rfl, by decide⟩, by decide, ⟨_, rfl, by decide⟩⟩

theorem witness_SendsAreStampedAsTheirRuleSays : Command.powerOff.Wf ∧ base.host.clock ≤ 0 := by decide

theorem witness_TargetsAreSentOrHeld :
    (base.host.clock ≤ 0 ∧ (base.link .left).lastSend = none) ∧
      ((sent .left (some 0) none base).host.clock ≤ 100 ∧
        ((sent .left (some 0) none base).link .left).lastSend = some 0 ∧ base.cfg.minSendInterval ≤ 100 - 0) ∧
      99 - 0 < base.cfg.minSendInterval := by decide

theorem witness_TicksSendWhatIsDue :
    (∃ s : State, s = sent .left (some 0) (some 9) base ∧ (∀ p, (s.link p).Wf s.host.clock) ∧ s.host.clock ≤ 100 ∧
      s.host.task = .idle ∧
      (∃ x a, (s.link .left).pending = some x ∧ (s.link .left).lastSend = some a ∧ s.cfg.minSendInterval ≤ 100 - a) ∧
      (¬∃ x a, (s.link .right).pending = some x ∧ (s.link .right).lastSend = some a ∧
        s.cfg.minSendInterval ≤ 100 - a) ∧
      ∀ q, (s.link q).port.writeAnswers = []) ∧
    (∀ e ∈ tickStages 100, (ticking [.hostNext] e.1).host.task = .tick e.1 100 ∧
      (ticking [.hostNext] e.1).host.clock = 100 ∧ (ticking [.hostNext] e.1).schedule = [.hostNext] ∧
      (ticking [.hostNext] e.1).host.task ≠ .idle) :=
  ⟨⟨_, rfl, fun p => by
      cases p
      · exact ⟨nofun, fun _ h => by cases h; exact Nat.le_refl 0⟩
      · exact ⟨fun h => absurd rfl h, nofun⟩,
    by decide, rfl, ⟨9, 0, by decide⟩, fun ⟨_, _, h, _⟩ => (nomatch h), fun q => by cases q <;> rfl⟩, by decide⟩

theorem witness_ReceiveResolvesOneMessage :
    (State.reset.cfg.port.get .right = false) ∧ base.cfg.port.get .left = true ∧
      (base.link .left).port.availAnswers.head? = none ∧ (base.link .left).port.readAnswers.head? = none ∧
      (∃ s : State, s = portAnswer .left (fun q => { q with readAnswers := [some ⟨1⟩] }) base ∧
        s.cfg.port.get .left = true ∧ (s.link .left).port.availAnswers.head? = none ∧
        (s.link .left).port.readAnswers.head? = some (some ⟨1⟩)) ∧
      (∃ s : State, s = portAnswer .left (fun q => { q with availAnswers := [some ⟨2⟩] }) base ∧
        s.cfg.port.get .left = true ∧ (s.link .left).port.availAnswers.head? = some (some ⟨2⟩)) ∧
      parseDirected 8 .response ([0x4C, 0x43] ++ [0x31]) = .ok (.response ⟨.left, .chargeState true⟩) 3 ∧
      parseDirected 8 .response ([] ++ [0x4C]) = .incomplete ∧
      parseDirected 8 .response ([] ++ [0xFF, 0x52]) = .err (.invalidTag 0xFF) (some 1) ∧
      parseDirected 8 .response ([] ++ 0x4C :: 0x22 :: List.replicate 9 0x61) = .err .logTooLong none :=
  ⟨by decide, by decide, by decide, by decide, ⟨_, rfl, by decide⟩, ⟨_, rfl, by decide⟩, by decide, by decide, by decide,
    by decide⟩

theorem witness_TargetSendsAreSpaced :
    (∃ t, base.cfg.Wf ∧ exec (.hostSetTarget .left 12 100) (sent .left (some 0) none base) = .next t ∧
      ((sent .left (some 0) none base).link .left).lastSend = some 0 ∧ (t.link .left).lastSend = some 100) ∧
    ∃ t, (ticking [.hostNext] (.send .left)).schedule = [.hostNext] ∧
      step (ticking [.hostNext] (.send .left)) = .next t ∧
      ((ticking [.hostNext] (.send .left)).link .left).lastSend = some 0 ∧ (t.link .left).lastSend = some 100 :=
  ⟨⟨_, by decide, rfl, rfl, rfl⟩, _, rfl, rfl, rfl, rfl⟩

theorem witness_OnlyTheLatestHeldTargetIsSent :
    ∃ s : State, s = sent .left (some 0) none base ∧ s.host.clock ≤ 10 ∧ (10 : Time) ≤ 60 ∧ (60 : Time) ≤ 100 ∧
      s.host.task = .idle ∧ (s.link .left).lastSend = some 0 ∧ 10 - 0 < s.cfg.minSendInterval ∧ 60 - 0 < s.cfg.minSendInterval ∧
      s.cfg.minSendInterval ≤ 100 - 0 ∧ (s.link Side.left.opposite).pending = none ∧
      ∀ q, (s.link q).port.writeAnswers = [] :=
  ⟨_, rfl, by decide, by decide, by decide, by decide, by decide, by decide, by decide, by decide, by decide,
    fun q => by cases q <;> rfl⟩

theorem witness_SidesOfTheHostAreIndependent : ∃ t, exec (.hostTransmitTarget .right 5 0) State.reset = .next t := ⟨_, rfl⟩

/-! ### The whole block -/

theorem witness_CreationLeavesTheResetTable : Config.initial.Wf ∧ (⟨1, 2, 0, 1, 1, true, ⟨.left, .left⟩, ⟨false, false⟩, ⟨false, false⟩,
    ⟨.otherBoard, .otherBoard⟩⟩ : Config).Wf := by decide

/-- The wiring of the reset machine, and a link that leads nowhere. -/
theorem witness_DevicesEmitAndLinksDeliver :
    (∃ s : State, s = next [.devEmit .boardA .up] (withEngine .boardA .up [7] true ⟨false, [8, 9], []⟩ base) ∧
      s.schedule = [.devEmit .boardA .up] ∧ (s.engine .boardA .up).dev = some ⟨false, [8, 9], []⟩) ∧
    (∃ s : State, s = next [.devEmit .boardA .up] wired ∧ (s.engine .boardA .up).dev = some (dev true) ∧
      (dev true).out = []) ∧
    (∃ s : State, s = next [.devComplete .boardA .up] (withEngine .boardA .up [7] true (dev false) base) ∧
      s.schedule = [.devComplete .boardA .up] ∧ (s.engine .boardA .up).dev = some (dev false)) ∧
    (next [.devComplete .boardA .up] base).schedule = [.devComplete .boardA .up] ∧
      (base.engine .boardA .up).dev = none ∧
    (∃ s : State, s = next [.wireDeliver (.fromPort .left)]
        (base.setLink .left { base.link .left with port := ⟨[], [0x4C, 0x70], [], [], []⟩ }) ∧
      lineOf (.fromPort .left) s = [0x4C, 0x70] ∧ receiverOf s.cfg (.fromPort .left) = some (.path .boardA .up)) ∧
    (∃ s : State, s = next [.wireDeliver (.fromPort .right)]
        (base.setLink .right { base.link .right with port := ⟨[], [0x4C], [], [], []⟩ }) ∧
      lineOf (.fromPort .right) s = [0x4C] ∧ receiverOf s.cfg (.fromPort .right) = none) ∧
    (next [.wireDeliver (.fromEngine .boardB .up)] base).schedule = [.wireDeliver (.fromEngine .boardB .up)] ∧
      lineOf (.fromEngine .boardB .up) base = [] ∧ base.cfg.upstream.get .boardA = .hostPort .left ∧
      base.cfg.upstream.get BoardId.boardA.other ≠ .hostPort .left ∧ base.cfg.upstream.get .boardB = .otherBoard ∧
      base.cfg.hasDownstream.get BoardId.boardB.other = true :=
  ⟨⟨_, rfl, by decide⟩, ⟨_, rfl, by decide⟩, ⟨_, rfl, by decide⟩, rfl, rfl, ⟨_, rfl, by decide⟩, ⟨_, rfl, by decide⟩,
    by decide⟩

theorem witness_StationsShareNoState :
    (∃ t, ownerOf (.rbTake (.alone .boardA)) = .board .boardA ∧ exec (.rbTake (.alone .boardA)) wired = .next t) ∧
      (∃ t, ownerOf (.hostTick 5) = .host ∧ exec (.hostTick 5) wired = .next t) ∧
      ∃ t, ownerOf (.codecEncode (.command .powerOff)) = .anyone ∧
        exec (.codecEncode (.command .powerOff)) wired = .next t :=
  ⟨⟨_, rfl, rfl⟩, ⟨_, rfl, rfl⟩, ⟨_, rfl, rfl⟩⟩

theorem witness_PureOperationsOnlyReturn :
    ∃ t u, exec (.codecParseLog [0x22, 0x0A]) base = .next t ∧ exec (.codecParseLog [0x22, 0x0A]) t = .next u :=
  ⟨_, _, rfl, rfl⟩

theorem witness_LeavesHaveNoDownstreamElements :
    ∃ s : State, s = { wired with rx := ⟨.left, .boardA, .board .boardB⟩ } ∧ s.cfg.hasDownstream.get .boardB = false ∧
      Command.recenter.Wf ∧ (Response.position 5).Wf s.cfg.logMax ∧ s.rx.respAt = .board .boardB :=
  ⟨_, rfl, by decide⟩

end Sys2Proof.Tests
end

/-! # Proofs: an agent's request runs its operation (R13, R57, R61) -/

namespace Sys2Proof.Machine

/-! ## One equation per agent step -/

/-- R61: one event, one step, with the event used up. -/
theorem step_of_schedule {s : State} {e : Event} {rest : List Event} (hs : s.schedule = e :: rest) :
    step s = runEvent e { s with schedule := rest } := by
  simp only [step, hs]

/-- R61: a station's agent runs an operation of its own station, and a pure function; wire messages have no caller. -/
theorem callAs_of {o : Owner} {i : Instr} (hw : o ≠ .wire) (hi : ownerOf i = o ∨ ownerOf i = .anyone) (s : State) :
    callAs o i s = exec i s := by
  rcases hi with hi | hi
  · cases o with
    | wire => exact absurd rfl hw
    | anyone | host | board b => simp [callAs, hi]
  · simp [callAs, hi]

/-- R57, R333: a free main loop takes its first request. -/
theorem mainLoopStep_of_request {s : State} {b : BoardId} {i : Instr} {more : List Instr} (hf : s.Free b)
    (hq : (s.board b).todo = i :: more) :
    mainLoopStep b s = callAs (.board b) i (s.setBoard b { s.board b with todo := more }) := by
  obtain ⟨hirq, htask⟩ := hf
  simp [mainLoopStep, State.mainLoopRuns, hirq, htask, hq]

/-- R57: the host's thread, in no tick, makes the call. -/
theorem hostLoopStep_of_idle {s : State} (h : s.host.task = .idle) (i : Instr) :
    hostLoopStep i s = callAs .host i s := by
  simp only [hostLoopStep, h]

/-- Log entry 41: a call scheduled while a tick is in progress has no effect. -/
theorem hostLoopStep_of_tick {s : State} (h : s.host.task ≠ .idle) (i : Instr) : hostLoopStep i s = .next s := by
  cases ht : s.host.task with
  | idle => exact absurd ht h
  | tick st now => simp only [hostLoopStep, ht]

/-- Log entry 3: the host's thread has no next step outside a tick. -/
theorem hostNextStep_of_idle {s : State} (h : s.host.task = .idle) : hostNextStep s = s := by
  simp only [hostNextStep, h]

/-! ## Scheduled requests and calls -/

/-- A scheduled free main loop runs its first request. -/
theorem step_mainLoop_request {s : State} {b : BoardId} {i : Instr} {more : List Instr} {rest : List Event}
    (hs : s.schedule = .mainLoop b :: rest) (hf : s.Free b) (hq : (s.board b).todo = i :: more)
    (hi : ownerOf i = .board b ∨ ownerOf i = .anyone) :
    step s = exec i { s.setBoard b { s.board b with todo := more } with schedule := rest } :=
  calc step s
    _ = mainLoopStep b { s with schedule := rest } := step_of_schedule hs
    _ = callAs (.board b) i { s.setBoard b { s.board b with todo := more } with schedule := rest } :=
      mainLoopStep_of_request hf hq
    _ = exec i { s.setBoard b { s.board b with todo := more } with schedule := rest } := callAs_of (by simp) hi _

/-- A scheduled call of the host's idle thread runs. -/
theorem step_hostLoop_idle {s : State} {i : Instr} {rest : List Event} (hs : s.schedule = .hostLoop i :: rest)
    (ht : s.host.task = .idle) (hi : ownerOf i = .host ∨ ownerOf i = .anyone) :
    step s = exec i { s with schedule := rest } :=
  calc step s
    _ = hostLoopStep i { s with schedule := rest } := step_of_schedule hs
    _ = callAs .host i { s with schedule := rest } := hostLoopStep_of_idle (s := { s with schedule := rest }) ht i
    _ = exec i { s with schedule := rest } := callAs_of (by simp) hi _

/-- A call scheduled while a tick is in progress is used up. -/
theorem step_hostLoop_tick {s : State} {i : Instr} {rest : List Event} (hs : s.schedule = .hostLoop i :: rest)
    (ht : s.host.task ≠ .idle) : step s = .next { s with schedule := rest } :=
  (step_of_schedule hs).trans (hostLoopStep_of_tick (s := { s with schedule := rest }) ht i)

/-- A next step scheduled with no tick in progress is used up. -/
theorem step_hostNext_idle {s : State} {rest : List Event} (hs : s.schedule = .hostNext :: rest)
    (ht : s.host.task = .idle) : step s = .next { s with schedule := rest } :=
  (step_of_schedule hs).trans (congrArg Host.Outcome.next (hostNextStep_of_idle ht))

/-- Settles O34, one agent's step at a time. -/
theorem stepRunsTheRequestedOperation : Obligations.StepRunsTheRequestedOperation := by
  intro s b i more rest
  refine ⟨step_mainLoop_request, step_hostLoop_idle, ?_⟩
  rintro (⟨hs, ht⟩ | ⟨hs, ht⟩)
  · exact step_hostLoop_tick hs ht
  · exact step_hostNext_idle hs ht

end Sys2Proof.Machine

/-! # Proofs: the ready interrupt is armed exactly while the ring is non-empty (R24, R152) -/

namespace Sys2Proof.Machine

theorem State.BoardWf.engine_wf {s : State} {b : BoardId} (h : s.BoardWf b) (d : Dir) :
    (s.engine b d).Wf s.cfg.txCapacity := by
  obtain ⟨-, -, hengine, -⟩ := h
  exact hengine d

theorem State.BoardWf.taskWf {s : State} {b : BoardId} (h : s.BoardWf b) : s.TaskWf b := by
  obtain ⟨-, -, -, -, htask, -⟩ := h
  exact htask

/-! ## `kick` arms the interrupt -/

/-- R301: a device with no error waiting answers a byte with no error. -/
theorem deviceWriteByte_ne_error {w : Device} (hw : ∀ a ∈ w.answers, a = none) (x : Byte) (e : DevError) :
    (deviceWriteByte w x).1 ≠ .error e := by
  rcases ha : w.answers with _ | ⟨a, as⟩
  · cases hr : w.ready <;> simp [deviceWriteByte, deviceNextAnswer, ha, hr]
  · obtain rfl : a = none := hw a (by simp [ha])
    cases hr : w.ready <;> simp [deviceWriteByte, deviceNextAnswer, ha, hr]

/-- R24 holds of what `set_interrupt_enabled` leaves. -/
theorem Txe.rearm_armed (t : Txe) : t.rearm.Armed := fun _ => rfl

/-- R143: a `kick` that meets no device error leaves the interrupt as `set_interrupt_enabled` does. -/
theorem Txe.kick_armed {t : Txe} (h : t.NoErrorWaits) : t.kick.1.Armed := by
  cases hd : t.dev with
  | none => rw [kick_absent hd]; exact fun hn => absurd hd hn
  | some w =>
    have hne := deviceWriteByte_ne_error (h w hd)
    cases hp : t.rb.peek with
    | none => simp only [kick, hd, hp]; exact rearm_armed _
    | some x =>
      rcases ha : deviceWriteByte w x with ⟨_ | _ | e, w'⟩
      · simp only [kick, hd, hp, ha]; exact rearm_armed _
      · simp only [kick, hd, hp, ha]; exact rearm_armed _
      · exact absurd (congrArg Prod.fst ha) (hne x e)

/-- R24: with a device, what R24 says does not depend on which. -/
theorem Txe.Armed.setDev {t : Txe} {w : Device} (h : t.Armed) (hd : t.dev = some w) (w' : Device) :
    ({ t with dev := some w' } : Txe).Armed := fun _ => h (by simp [hd])

/-- R23, R24: an engine with no device is armed when it is given one: its ring is empty and its interrupt off. -/
theorem Txe.armed_setDev_of_absent {t : Txe} {cap : Nat} (h : t.Wf cap) (hd : t.dev = none) (w : Device) :
    ({ t with dev := some w } : Txe).Armed := by
  obtain ⟨-, -, hn⟩ := h
  obtain ⟨hl, hi⟩ := hn hd
  intro _
  simp [hi, Ring.isEmpty, hl]

/-- No operation's move disarms an engine whose device has no error waiting. -/
theorem EngineMove.armed {offer : List Byte} {t u : Txe} {cap : Nat} (h : EngineMove offer t u) (hw : t.Wf cap)
    (ha : t.Armed) (hn : t.NoErrorWaits) : u.Armed := by
  cases h with
  | same => exact ha
  | setDevice w hd => exact Txe.armed_setDev_of_absent hw hd w
  | kick => exact Txe.kick_armed hn
  | pass => exact Txe.kick_armed hn
  | asked w hd _ => exact ha.setDev hd _

/-- Nor does a step of its device. -/
theorem EngineStepped.armed {offer : List Byte} {s t : State} {b : BoardId} {d : Dir} {cap : Nat}
    (h : EngineStepped offer s t b d) (hw : (s.engine b d).Wf cap) (ha : (s.engine b d).Armed)
    (hn : (s.engine b d).NoErrorWaits) : (t.engine b d).Armed := by
  cases h with
  | moved hm => exact hm.armed hw ha hn
  | completed w hd ht => rw [ht]; exact ha.setDev hd _
  | answered w a hd ht => rw [ht]; exact ha.setDev hd _
  | emitted w x xs hd _ ht _ => rw [ht]; exact ha.setDev hd _

/-- Settles O16: of every engine, by what a step can do to it. -/
theorem interruptStaysArmedIffNonEmpty : Obligations.InterruptStaysArmedIffNonEmpty := by
  intro s t hs ha hn h b d
  exact (step_engine (fun c => (hs.board c).taskWf) h b d).armed ((hs.board b).engine_wf d) (ha b d) (hn b d)

end Sys2Proof.Machine

/-! # Proofs: the boards' part of the invariant (R21, R25, R128, R141, R142) -/

namespace Sys2Proof.Machine

/-! ## What a board's main loop is in -/

/-- R25, R141: what is in progress names a link that meets `ok`, and a `write` has bytes left to store. -/
def Task.Wf (ok : Dir → Prop) : Task → Prop
  | .idle | .resolve _ | .settle _ _ => True
  | .write d rem _ _ => ok d ∧ rem ≠ []
  | .flush d _ => ok d

theorem Task.Wf.mono {ok ok' : Dir → Prop} (h : ∀ d, ok d → ok' d) {k : Task} (hk : k.Wf ok) : k.Wf ok' := by
  cases k with
  | idle | resolve | settle => trivial
  | write d rem ph who => exact ⟨h d hk.1, hk.2⟩
  | flush d ph => exact h d hk

/-- R149: a wake event changes only the phase. -/
theorem Task.Wf.wake {ok : Dir → Prop} {k : Task} (hk : k.Wf ok) (seen : Bool) : (k.wake seen).Wf ok := by
  cases k <;> exact hk

/-- R141: a link of a board that exists and has a device. -/
def Board.Usable (has : Dir → Bool) (x : Board) (d : Dir) : Prop := has d = true ∧ (x.tx.get d).dev ≠ none

theorem State.taskWf_iff {s : State} {b : BoardId} :
    s.TaskWf b ↔ (s.board b).task.Wf ((s.board b).Usable (s.hasDir b)) := by
  unfold State.TaskWf
  cases (s.board b).task <;> simp [Task.Wf, Board.Usable, State.engine, and_assoc]

/-! ## A board, with a handler open or not -/

/-- What the invariant says of a board with the links `has`, while a handler of it is open (R294) or not. -/
structure Board.Sound (c : Config) (has : Dir → Bool) (handler : Bool) (x : Board) : Prop where
  ring : x.ring.Wf
  cap : x.ring.cap = c.ringCapacity
  engine : ∀ d, (x.tx.get d).Wf c.txCapacity
  leaf : has .down = false → (x.tx.get .down).dev = none
  task : x.task.Wf (x.Usable has)
  inHandler : x.inHandler = handler

theorem State.boardWf_iff {s : State} {b : BoardId} :
    s.BoardWf b ↔ (s.board b).Sound s.cfg (s.hasDir b) false := by
  unfold State.BoardWf
  rw [State.taskWf_iff]
  exact ⟨fun ⟨h1, h2, h3, h4, h5, h6⟩ => ⟨h1, h2, h3, h4, h5, h6⟩,
    fun ⟨h1, h2, h3, h4, h5, h6⟩ => ⟨h1, h2, h3, h4, h5, h6⟩⟩

section
variable {c : Config} {has : Dir → Bool} {handler : Bool} {x y : Board}

/-- The buffers, the links and the output ports are outside the invariant. -/
theorem Board.Sound.congr (hx : x.Sound c has handler) (hring : y.ring = x.ring) (htx : y.tx = x.tx)
    (htask : y.task = x.task) (hh : y.inHandler = x.inHandler) : y.Sound c has handler := by
  obtain ⟨h1, h2, h3, h4, h5, h6⟩ := hx
  refine ⟨hring ▸ h1, hring ▸ h2, htx ▸ h3, htx ▸ h4, ?_, hh ▸ h6⟩
  unfold Board.Usable
  rw [htx, htask]
  exact h5

theorem Board.Sound.setTask (hx : x.Sound c has handler) {k : Task} (hk : k.Wf (x.Usable has)) :
    ({ x with task := k } : Board).Sound c has handler :=
  ⟨hx.ring, hx.cap, hx.engine, hx.leaf, hk, hx.inHandler⟩

/-- Changing an engine the board has, which does not lose its device. -/
theorem Board.Sound.setEngine (hx : x.Sound c has handler) {d : Dir} {t : Txe} (hd : has d = true)
    (ht : t.Wf c.txCapacity) (hdev : (x.tx.get d).dev ≠ none → t.dev ≠ none) :
    ({ x with tx := x.tx.set d t } : Board).Sound c has handler where
  ring := hx.ring
  cap := hx.cap
  engine e := by
    rw [PerDir.get_set]
    split
    · exact ht
    · exact hx.engine e
  leaf hl := by
    have hne : Dir.down ≠ d := fun he => by simp [← he, hl] at hd
    rw [PerDir.get_set, if_neg hne]
    exact hx.leaf hl
  task := by
    refine hx.task.mono fun e he => ⟨he.1, ?_⟩
    rw [PerDir.get_set]
    split
    · rename_i hed
      exact hdev (hed ▸ he.2)
    · exact he.2
  inHandler := hx.inHandler

/-- With a device an engine owes only its ring. -/
theorem Txe.wf_of_device {t : Txe} {cap : Nat} (hr : t.rb.Wf) (hc : t.rb.cap = cap) (hd : t.dev ≠ none) : t.Wf cap :=
  ⟨hr, hc, fun hn => absurd hn hd⟩

theorem Txe.kick_dev_ne_none {t : Txe} (hr : t.rb.Wf) (hd : t.dev ≠ none) : t.kick.1.dev ≠ none := by
  obtain ⟨w, hw⟩ := Option.ne_none_iff_exists'.mp hd
  obtain ⟨-, -, -, -, hdev, -⟩ := kick_table hr hw
  simp [hdev]

/-- R128, R141: `kick` keeps an engine well-formed. -/
theorem Txe.kick_wf {t : Txe} {cap : Nat} (h : t.Wf cap) : t.kick.1.Wf cap := by
  obtain ⟨hr, hc, -⟩ := id h
  cases hd : t.dev with
  | none => rw [kick_absent hd]; exact h
  | some w =>
    obtain ⟨-, hr', hc', -, hdev, -⟩ := kick_table hr hd
    exact wf_of_device hr' (hc'.trans hc) (by simp [hdev])

/-- R146: the engine as the stores (a) and the kick (b) of a pass leave it. -/
theorem Board.Sound.pass (hx : x.Sound c has handler) {d : Dir} (hd : has d = true) (hdev : (x.tx.get d).dev ≠ none)
    (bytes : List Byte) :
    ({ x with tx := x.tx.set d ({ x.tx.get d with rb := ((x.tx.get d).rb.addAll bytes).1 } : Txe).kick.1 } :
      Board).Sound c has handler ∧
    ({ x.tx.get d with rb := ((x.tx.get d).rb.addAll bytes).1 } : Txe).kick.1.dev ≠ none := by
  obtain ⟨hr, hc, -⟩ := hx.engine d
  have hr' := Ring.addAll_wf hr bytes
  have hk := Txe.kick_dev_ne_none (t := { x.tx.get d with rb := ((x.tx.get d).rb.addAll bytes).1 }) hr' hdev
  exact ⟨hx.setEngine hd (Txe.kick_wf (Txe.wf_of_device hr' ((Ring.addAll_cap _ _).trans hc) hdev)) fun _ => hk, hk⟩

/-- An operation's move keeps a board sound. -/
theorem BoardMove.sound {offer : Dir → List Byte} (h : BoardMove has offer x y) (hx : x.Sound c has handler) :
    y.Sound c has handler := by
  cases h with
  | outputs acc cs es log => exact hx.congr rfl rfl rfl rfl
  | ring q hq hc => exact ⟨hq hx.ring, hc.trans hx.cap, hx.engine, hx.leaf, hx.task, hx.inHandler⟩
  | setDevice d w hd hn =>
    obtain ⟨hr, hc, -⟩ := hx.engine d
    exact hx.setEngine hd (Txe.wf_of_device hr hc (by simp)) (by simp)
  | kick d hd =>
    obtain ⟨hr, -⟩ := hx.engine d
    exact hx.setEngine hd (Txe.kick_wf (hx.engine d)) (Txe.kick_dev_ne_none hr)
  | begun d rem who es hd hdev hr =>
    exact (hx.setTask (k := .write d rem .running who) ⟨⟨hd, hdev⟩, hr⟩).congr rfl rfl rfl rfl
  | wrote d log hd hdev => exact ((hx.pass hd hdev _).1.setTask (k := .idle) trivial).congr rfl rfl rfl rfl
  | writes d rem ph who hd hdev hr =>
    obtain ⟨hp, hdev'⟩ := hx.pass hd hdev (offer d)
    refine hp.setTask ⟨⟨hd, ?_⟩, hr⟩
    rw [PerDir.get_set_same]
    exact hdev'
  | waits d hd hdev => exact hx.setTask (k := .flush d .suspending) ⟨hd, hdev⟩
  | asked d w k hd hw _ hk =>
    obtain ⟨hr, hc, -⟩ := hx.engine d
    refine (hx.setEngine (t := { x.tx.get d with dev := some (deviceFlush w).2 }) hd
      (Txe.wf_of_device hr hc (by simp)) (by simp)).setTask ?_
    rcases hk with rfl | rfl
    · trivial
    · exact ⟨hd, by simp⟩

end

end Sys2Proof.Machine

/-! # Proofs: the dispatcher's part of the invariant (R250, R257, R261) -/

namespace Sys2Proof.Machine

/-! ## The sends and the pending targets -/

/-- R257, R261: every side's send is recorded and lies at or before the clock. -/
def State.TimesWf (s : State) : Prop := ∀ p, (s.link p).Wf s.host.clock

/-- R261: a clock that goes on puts no send in the future. -/
theorem HostLink.Wf.mono {l : HostLink} {t u : Time} (h : l.Wf t) (htu : t ≤ u) : l.Wf u := by
  obtain ⟨hp, hs⟩ := h
  exact ⟨hp, fun a ha => (hs a ha).trans htu⟩

/-- What is neither a send nor a pending target is outside `HostLink.Wf`. -/
theorem HostLink.Wf.congr {l m : HostLink} {t : Time} (h : l.Wf t) (hs : m.lastSend = l.lastSend)
    (hp : m.pending = l.pending) : m.Wf t := by
  rw [HostLink.Wf, hs, hp]
  exact h

theorem HostLink.wf_of_sent {l : HostLink} {t now : Time} (hs : l.lastSend = some now) (h : now ≤ t) : l.Wf t :=
  ⟨fun _ => by simp [hs], fun a ha => by
    obtain rfl : now = a := Option.some.inj (hs.symm.trans ha)
    exact h⟩

theorem State.TimesWf.congr {s t : State} (h : s.TimesWf) (hc : t.host.clock = s.host.clock)
    (hl : ∀ p, (t.link p).lastSend = (s.link p).lastSend ∧ (t.link p).pending = (s.link p).pending) : t.TimesWf :=
  fun p => by
    rw [hc]
    exact (h p).congr (hl p).1 (hl p).2

theorem State.TimesWf.setLink {s : State} (h : s.TimesWf) {p : Side} {l : HostLink} (hl : l.Wf s.host.clock) :
    (s.setLink p l).TimesWf := fun q => by
  rw [State.link_setLink, State.setLink_clock]
  split
  · exact hl
  · exact h q

/-! ## The dispatcher's internal steps -/

theorem transmit_timesWf {s : State} (h : s.TimesWf) (side : Side) (c : Command) : (transmit side c s).1.TimesWf :=
  h.congr (transmit_kept side c s).clock fun p => by
    obtain ⟨hs, hp, -⟩ := transmit_link side p c s
    exact ⟨hs, hp⟩

theorem transmitTarget_timesWf {s : State} (h : s.TimesWf) {now : Time} (hn : now ≤ s.host.clock) (side : Side)
    (x : Word64) : (transmitTarget side x now s).1.TimesWf :=
  (transmit_timesWf h side (.setTarget x)).setLink
    (HostLink.wf_of_sent rfl (hn.trans_eq (transmit_kept side (.setTarget x) s).clock.symm))

theorem sendCommand_timesWf {s : State} (h : s.TimesWf) {now : Time} (hn : now ≤ s.host.clock) (side : Side)
    (c : Command) : (sendCommand side c now s).1.TimesWf := by
  have ht := transmit_timesWf h side c
  unfold sendCommand
  simp only
  split
  · exact ht.setLink (HostLink.wf_of_sent rfl (hn.trans_eq (transmit_kept side c s).clock.symm))
  · exact ht

/-- R255: a target that has to wait waits for a recorded send. -/
theorem setTarget_timesWf {s : State} (h : s.TimesWf) {now : Time} (hn : now ≤ s.host.clock) (side : Side)
    (x : Word64) : (setTarget side x now s).1.TimesWf := by
  unfold setTarget
  split
  · exact transmitTarget_timesWf h hn side x
  · rename_i hdue
    have hsent : (s.link side).lastSend ≠ none := fun hnone => hdue (by simp [sendDue, hnone])
    exact h.setLink ⟨fun _ => hsent, (h side).2⟩

theorem side_eq_opposite_of_ne {p q : Side} (h : p ≠ q) : p = q.opposite := by
  cases p <;> cases q <;> simp [Side.opposite] at h ⊢

theorem flushPending_timesWf {s : State} (h : s.TimesWf) {now : Time} (hn : now ≤ s.host.clock) (side : Side) :
    (flushPending side now s).TimesWf := by
  have hc := (flushPending_kept side now s).clock
  obtain ⟨hsent, hheld, hother, -⟩ := flushPending_flushed side now s
  intro p
  rw [hc]
  by_cases hp : p = side
  · subst hp
    by_cases hd : TargetDue s now p
    · exact HostLink.wf_of_sent (hsent hd).2 hn
    · exact (h p).congr (hheld hd).2 (hheld hd).1
  · obtain rfl := side_eq_opposite_of_ne hp
    exact (h _).congr hother.2 hother.1

theorem receiveAtHost_timesWf {s : State} (h : s.TimesWf) (p : Side) : (receiveAtHost p s).TimesWf :=
  h.congr (receiveAtHost_kept p s).clock fun q => by
    obtain ⟨hs, hp, -⟩ := receiveAtHost_link p q s
    exact ⟨hs, hp⟩

theorem TickStage.run_timesWf {s : State} (h : s.TimesWf) {now : Time} (hn : now ≤ s.host.clock) (st : TickStage) :
    (st.run now s).TimesWf := by
  cases st with
  | send p => exact flushPending_timesWf h hn p
  | receive p =>
    exact h.congr (TickStage.run_kept (.receive p) now s).clock fun q => by
      obtain ⟨hs, hp, -⟩ := pollPort_link p q s
      exact ⟨hs, hp⟩

/-! ## The host's thread -/

/-- R250, R257, R261: the dispatcher's times, and a tick in progress is at the latest of them. -/
structure State.HostWf (s : State) : Prop where
  times : s.TimesWf
  tick : ∀ st now, s.host.task = .tick st now → s.host.clock = now

/-- The dispatcher's part of the invariant speaks of the host alone. -/
theorem State.HostWf.congr {s t : State} (h : s.HostWf) (ht : t.host = s.host) : t.HostWf := by
  obtain ⟨htimes, htick⟩ := h
  refine ⟨fun p => ?_, ht ▸ htick⟩
  rw [State.link, ht]
  exact htimes p

/-- Bytes on the links and in the buffers are outside it. -/
theorem State.HostWf.setLink {s : State} (h : s.HostWf) {p : Side} {l : HostLink}
    (hs : l.lastSend = (s.link p).lastSend) (hp : l.pending = (s.link p).pending) : (s.setLink p l).HostWf :=
  ⟨h.times.setLink ((h.times p).congr hs hp), h.tick⟩

/-- R57, R257: a step of a tick at the clock's time leaves the tick at that time, or returned. -/
theorem tickStep_hostWf {s : State} (h : s.TimesWf) {st : TickStage} {now : Time} (hn : s.host.clock = now) :
    (tickStep st now s).HostWf := by
  have ht := TickStage.run_timesWf h hn.ge st
  have hc := (TickStage.run_kept st now s).clock.trans hn
  unfold tickStep
  simp only
  split
  · exact ⟨ht, fun _ _ he => by cases he; exact hc⟩
  · exact ⟨ht, fun _ _ he => by cases he⟩

theorem hostNextStep_hostWf {s : State} (h : s.HostWf) : (hostNextStep s).HostWf := by
  unfold hostNextStep
  split
  · exact h
  · rename_i st now ht
    exact tickStep_hostWf h.times (h.tick st now ht)

/-- R250, R261: an operation given a time goes on with the clock there. -/
theorem withClock_timesWf {now : Time} {k : State → Result} {s t : State} (hs : s.TimesWf)
    (h : withClock now k s = .next t) (hk : ∀ u : State, u.TimesWf → now ≤ u.host.clock → k u = .next t → t.TimesWf) :
    t.TimesWf := by
  obtain ⟨hn, h⟩ := withClock_eq_next.mp h
  have hlater : State.TimesWf { s with host := { s.host with clock := now } } := fun p =>
    HostLink.Wf.mono (l := s.link p) (hs p) hn
  exact hk _ hlater le_rfl h

/-- Every operation of the host's keeps the dispatcher's times. -/
theorem exec_timesWf_of_host {i : Instr} {s t : State} (hs : s.TimesWf) (h : exec i s = .next t)
    (ho : ownerOf i = .host) : t.TimesWf := by
  cases i
  case linkIngest a bytes | linkResolveOnce a map =>
    cases a with
    | host p => cases h; exact State.TimesWf.setLink hs ((hs p).congr rfl rfl)
    | board b d => cases ho
  case hostSelectPort side => cases h; exact hs
  case hostTransmit side c =>
    have h := (withWf_eq_next.mp h).2
    cases h
    exact transmit_timesWf hs side c
  case hostSendCommand side c now =>
    refine withClock_timesWf hs (withWf_eq_next.mp h).2 fun u hu hn h => ?_
    cases h
    exact sendCommand_timesWf hu hn side c
  case hostTransmitTarget side x now =>
    simp only [exec, execHostTransmitTarget] at h
    refine withClock_timesWf hs h fun u hu hn h => ?_
    cases h
    exact transmitTarget_timesWf hu hn side x
  case hostSetTarget side x now =>
    simp only [exec, execHostSetTarget] at h
    refine withClock_timesWf hs h fun u hu hn h => ?_
    cases h
    exact setTarget_timesWf hu hn side x
  case hostReceive p =>
    change (if _ then _ else _) = _ at h
    split at h <;> cases h
    exact receiveAtHost_timesWf hs p
  case hostTick now =>
    refine withClock_timesWf hs (withHostFree_eq_next.mp h).2 fun u hu hn h => ?_
    cases h
    exact TickStage.run_timesWf hu hn (.send .left)
  case rbAdd r _ | rbAddAll r _ | rbTake r | rbPeek r | rbIsEmpty r | rbIsFull r => cases r <;> cases ho
  all_goals cases ho

end Sys2Proof.Machine

/-! # Proofs: every step of every agent keeps the invariant -/

namespace Sys2Proof.Machine

/-! ## The invariant while a handler is open -/

/-- The invariant of the block while the handler of a board, or none, is open (R294). -/
structure State.InvIn (handler : Option BoardId) (s : State) : Prop where
  cfg : s.cfg.Wf
  board : ∀ b, (s.board b).Sound s.cfg (s.hasDir b) (decide (handler = some b))
  host : s.HostWf

/-- Between two steps no handler is open. -/
theorem State.inv_iff {s : State} : s.Inv ↔ s.InvIn none :=
  ⟨fun ⟨hcfg, hboard, htimes, htick⟩ => ⟨hcfg, fun b => State.boardWf_iff.mp (hboard b), ⟨htimes, htick⟩⟩,
    fun ⟨hcfg, hboard, ⟨htimes, htick⟩⟩ => ⟨hcfg, fun b => State.boardWf_iff.mpr (hboard b), htimes, htick⟩⟩

section
variable {handler : Option BoardId} {s t : State}

theorem State.InvIn.taskWf (h : s.InvIn handler) (b : BoardId) : s.TaskWf b := State.taskWf_iff.mpr (h.board b).task

/-- The schedule, the result and the receiver's context are outside the invariant. -/
theorem State.InvIn.congr (h : s.InvIn handler) (hcfg : t.cfg = s.cfg) (hboards : t.boards = s.boards)
    (hhost : t.HostWf) : t.InvIn handler := by
  obtain ⟨hc, hb, -⟩ := h
  refine ⟨hcfg ▸ hc, fun b => ?_, hhost⟩
  have hdir : t.hasDir b = s.hasDir b := funext fun d => by cases d <;> simp [State.hasDir, hcfg]
  rw [State.board, hboards, hcfg, hdir]
  exact hb b

/-- Replacing a board, which may open or close its handler. -/
theorem State.InvIn.setBoard_handler {handler' : Option BoardId} (h : s.InvIn handler) {b : BoardId} {x : Board}
    (hx : x.Sound s.cfg (s.hasDir b) (decide (handler' = some b)))
    (hne : ∀ c, c ≠ b → (handler' = some c ↔ handler = some c)) : (s.setBoard b x).InvIn handler' := by
  refine ⟨h.cfg, fun c => ?_, h.host.congr rfl⟩
  have hdir : (s.setBoard b x).hasDir c = s.hasDir c := funext fun d => State.setBoard_hasDir s b c x d
  rw [State.board_setBoard, State.setBoard_cfg, hdir]
  split
  · rename_i hc
    exact hc ▸ hx
  · rename_i hc
    rw [decide_eq_decide.mpr (hne c hc)]
    exact h.board c

theorem State.InvIn.setBoard (h : s.InvIn handler) {b : BoardId} {x : Board}
    (hx : x.Sound s.cfg (s.hasDir b) (decide (handler = some b))) : (s.setBoard b x).InvIn handler :=
  h.setBoard_handler hx fun _ _ => Iff.rfl

/-- Replacing what the invariant does not speak of on a board. -/
theorem State.InvIn.setBoard_congr (h : s.InvIn handler) {b : BoardId} {x : Board} (hring : x.ring = (s.board b).ring)
    (htx : x.tx = (s.board b).tx) (htask : x.task = (s.board b).task) (hh : x.inHandler = (s.board b).inHandler) :
    (s.setBoard b x).InvIn handler :=
  h.setBoard ((h.board b).congr hring htx htask hh)

theorem State.InvIn.setTask (h : s.InvIn handler) {b : BoardId} {k : Task}
    (hk : k.Wf ((s.board b).Usable (s.hasDir b))) : (s.setTask b k).InvIn handler :=
  h.setBoard ((h.board b).setTask hk)

theorem State.InvIn.setLink (h : s.InvIn handler) {p : Side} {l : HostLink}
    (hs : l.lastSend = (s.link p).lastSend) (hp : l.pending = (s.link p).pending) : (s.setLink p l).InvIn handler :=
  h.congr rfl rfl (h.host.setLink hs hp)

/-! ## Operations -/

theorem BoardMoved.inv {offer : Dir → List Byte} {b : BoardId} (hm : BoardMoved offer b s t) (h : s.InvIn handler) :
    t.InvIn handler := by
  obtain ⟨x, r, hx, rfl⟩ := hm
  exact (h.setBoard (hx.sound (h.board b))).congr rfl rfl (h.host.congr rfl)

/-- An operation keeps the boards' part of the invariant. -/
theorem exec_inv_of_hostWf {i : Instr} (h : s.InvIn handler) (he : exec i s = .next t) (ht : t.HostWf) :
    t.InvIn handler := by
  cases exec_moves he with
  | pure r _ h1 => exact h.congr (by rw [h1]) (by rw [h1]) ht
  | host _ hm => obtain ⟨x, r, rx, rfl⟩ := hm; exact h.congr rfl rfl ht
  | board b _ hm => exact hm.inv h

/-- R61: an operation of a board, or a pure function, leaves the host. -/
theorem exec_host_of_not_host {i : Instr} {b : BoardId} (he : exec i s = .next t)
    (ho : ownerOf i = .anyone ∨ ownerOf i = .board b) : t.host = s.host := by
  cases exec_moves he with
  | pure r _ h1 => rw [h1]
  | board c _ hm => obtain ⟨x, r, -, rfl⟩ := hm; rfl
  | host h1 _ => rcases h1 with h1 | h1 <;> rcases ho with ho | ho <;> cases h1.symm.trans ho

theorem exec_inv_of_not_host {i : Instr} {b : BoardId} (h : s.InvIn handler) (he : exec i s = .next t)
    (ho : ownerOf i = .anyone ∨ ownerOf i = .board b) : t.InvIn handler :=
  exec_inv_of_hostWf h he (h.host.congr (exec_host_of_not_host he ho))

/-- R57: an operation of the host's, which its thread calls in no tick. -/
theorem exec_inv_of_host {i : Instr} (h : s.InvIn handler) (he : exec i s = .next t) (ho : ownerOf i = .host)
    (hidle : s.host.task = .idle) : t.InvIn handler := by
  refine exec_inv_of_hostWf h he ⟨exec_timesWf_of_host h.host.times he ho, fun st now ht => ?_⟩
  rcases exec_thread he with ⟨htask, -⟩ | ⟨now', -, hclock, htask⟩
  · cases (ht.symm.trans htask).trans hidle
  · cases ht.symm.trans htask
    exact hclock

/-- R231, R234, R256: a message received keeps the invariant. -/
theorem exec_ofVal_inv {v : Val} (h : s.InvIn handler) (he : exec (.ofVal v) s = .next t) : t.InvIn handler := by
  cases v with
  | command c =>
    have hc := (withWf_eq_next.mp (exec_ofCommand c s ▸ he)).2
    exact (onCommand_moved (offer := fun _ => forwardedBytes s s.rx.cmdAt .down _) rfl hc).inv h
  | response r =>
    have hr := (withWf_eq_next.mp (exec_ofResponse r s ▸ he)).2
    split at hr
    · cases hr
      exact h.congr rfl rfl ⟨h.host.times, h.host.tick⟩
    · exact (onResponse_moved (offer := fun _ => []) hr).inv h

end

/-! ## The main loop -/

section
variable {s t : State} {b : BoardId} {d : Dir}

/-- R146, R149, R150: a blocking operation in progress goes on. -/
theorem continueTask_inv (h : s.InvIn none) : (continueTask b s).InvIn none := by
  have htask := (h.board b).task
  unfold continueTask
  split <;> rename_i hk <;> rw [hk] at htask
  · exact h
  · exact h
  · exact h
  · obtain ⟨⟨hdir, hdev⟩, -⟩ := htask
    exact (writePass_moved (offer := fun _ => _) rfl hdir hdev).inv h
  · exact h.setTask htask
  · exact h
  · obtain ⟨hdir, hdev⟩ := htask
    exact (flushTest_moved (offer := fun _ => []) hdir hdev).inv h
  · exact h.setTask htask
  · exact h

/-- R216: `resolve_once` leaves the main loop idle, or with bytes to act on. -/
theorem resolveAtBoard_inv (h : s.InvIn none) : (resolveAtBoard b d s).InvIn none := by
  unfold resolveAtBoard
  simp only
  refine State.InvIn.setTask ?_ ?_
  · exact h.setBoard_congr rfl rfl rfl rfl
  · split <;> trivial

theorem settle_inv {bytes : List Byte} (h : s.InvIn none) (hs : settle b d bytes s = .next t) : t.InvIn none := by
  have hidle : (s.setTask b .idle).InvIn none := h.setTask trivial
  rcases settle_cases hs with ⟨v, n, -, he⟩ | ⟨rx, log, rfl⟩
  · refine exec_ofVal_inv ?_ he
    exact hidle.congr rfl rfl (hidle.host.congr rfl)
  · have hlog : (s.setBoard b { s.board b with task := .idle, log := log }).InvIn none :=
      h.setBoard (((h.board b).setTask (k := .idle) trivial).congr rfl rfl rfl rfl)
    exact hlog.congr rfl rfl (hlog.host.congr rfl)

theorem mainLoopStep_inv (h : s.InvIn none) (hs : mainLoopStep b s = .next t) : t.InvIn none := by
  unfold mainLoopStep at hs
  split at hs
  · cases hs; exact h
  · split at hs
    · split at hs
      · cases hs; exact h
      · obtain ⟨he, ho⟩ := callAs_next hs
        refine exec_inv_of_not_host ?_ he ho
        exact h.setBoard_congr rfl rfl rfl rfl
    · cases hs; exact resolveAtBoard_inv h
    · exact settle_inv h hs
    · cases hs; exact continueTask_inv h
    · cases hs; exact continueTask_inv h

theorem receiveByte_inv (h : s.InvIn none) : (receiveByte b d s).InvIn none := by
  unfold receiveByte
  split
  · split
    · exact h
    · rename_i x xs _
      have htaken : (s.setBoard b { s.board b with rxq := (s.board b).rxq.set d xs }).InvIn none :=
        h.setBoard_congr rfl rfl rfl rfl
      refine State.InvIn.setTask ?_ trivial
      exact htaken.setBoard_congr rfl rfl rfl rfl
  · exact h

theorem readFault_inv {k : ErrKind} (h : s.InvIn none) : (readFault b d k s).InvIn none := by
  unfold readFault
  split
  · have ha : (s.setBoardAcc b d []).InvIn none := h.setBoard_congr rfl rfl rfl rfl
    exact ha.setBoard_congr rfl rfl rfl rfl
  · exact h

/-! ## The interrupts -/

theorem enterHandler_inv (h : s.InvIn none) : (enterHandler b s).InvIn (some b) := by
  refine h.setBoard_handler ?_ fun c hc => by simp [Ne.symm hc]
  obtain ⟨hring, hcap, hengine, hleaf, htask, -⟩ := h.board b
  exact ⟨hring, hcap, hengine, hleaf, htask, by simp⟩

theorem leaveHandler_inv {seen : Bool} (h : s.InvIn (some b)) : (leaveHandler b seen s).InvIn none := by
  refine h.setBoard_handler ?_ fun c hc => by simp [Ne.symm hc]
  obtain ⟨hring, hcap, hengine, hleaf, htask, -⟩ := h.board b
  exact ⟨hring, hcap, hengine, hleaf, htask.wake seen, by simp⟩

/-- R294, R295: a handler that keeps the invariant while it is open. -/
theorem takeInterrupt_inv {seen : Bool} {k : State → Result} (h : s.InvIn none)
    (hk : ∀ u v : State, u.InvIn (some b) → k u = .next v → v.InvIn (some b))
    (ht : takeInterrupt b seen k s = .next t) : t.InvIn none := by
  obtain ⟨v, hv, ht⟩ := andThen_eq_next.mp ht
  cases ht
  exact leaveHandler_inv (hk _ v (enterHandler_inv h) hv)

theorem readyInterrupt_inv {seen : Bool} (h : s.InvIn none) (ht : readyInterrupt b d seen s = .next t) :
    t.InvIn none := by
  unfold readyInterrupt at ht
  split at ht
  · exact takeInterrupt_inv h (fun u v hu he => exec_inv_of_not_host (b := b) hu he (.inr rfl)) ht
  · cases ht; exact h

theorem otherInterrupt_inv {call : Option Instr} {seen : Bool} (h : s.InvIn none)
    (ht : otherInterrupt b call seen s = .next t) : t.InvIn none := by
  unfold otherInterrupt at ht
  split at ht
  · refine takeInterrupt_inv h (fun u v hu he => ?_) ht
    cases call with
    | none => cases he; exact hu
    | some i =>
      obtain ⟨he, ho⟩ := callAs_next he
      exact exec_inv_of_not_host hu he ho
  · cases ht; exact h

/-! ## The environment -/

/-- R301: a device's own step leaves the engine with a device; a leaf's absent engine has none to take it. -/
theorem setDev_inv (h : s.InvIn none) {w : Device} (hw : (s.engine b d).dev = some w) (w' : Device) :
    (s.setEngine b d { s.engine b d with dev := some w' }).InvIn none := by
  have hd : s.hasDir b d = true := by
    cases d with
    | up => rfl
    | down =>
      by_contra hn
      have habsent := (h.board b).leaf (by simpa using hn)
      cases habsent.symm.trans hw
  obtain ⟨hr, hc, -⟩ := (h.board b).engine d
  exact h.setBoard ((h.board b).setEngine hd (Txe.wf_of_device hr hc (by simp)) (by simp))

theorem mapDevice_inv {f : Device → Device} (h : s.InvIn none) : (mapDevice b d f s).InvIn none := by
  unfold mapDevice
  split
  · exact h
  · rename_i w hw
    exact setDev_inv h hw (f w)

theorem devEmit_inv (h : s.InvIn none) : (devEmit b d s).InvIn none := by
  unfold devEmit
  split
  · exact h
  · rename_i w hw
    split
    · exact h
    · exact (setDev_inv h hw _).setBoard_congr rfl rfl rfl rfl

theorem setLine_inv {l : LinkId} {bs : List Byte} (h : s.InvIn none) : (setLine l bs s).InvIn none := by
  cases l with
  | fromPort p => exact h.setLink rfl rfl
  | fromEngine b d => exact h.setBoard_congr rfl rfl rfl rfl

theorem arrive_inv {r : Receiver} {x : Byte} (h : s.InvIn none) : (arrive r x s).InvIn none := by
  cases r with
  | port p => exact h.setLink rfl rfl
  | path b d => exact h.setBoard_congr rfl rfl rfl rfl

theorem wireDeliver_inv {l : LinkId} (h : s.InvIn none) : (wireDeliver l s).InvIn none := by
  unfold wireDeliver
  split
  · exact h
  · split
    · exact setLine_inv h
    · exact arrive_inv (setLine_inv h)

/-! ## The host's thread -/

theorem hostLoopStep_inv {i : Instr} (h : s.InvIn none) (ht : hostLoopStep i s = .next t) : t.InvIn none := by
  unfold hostLoopStep at ht
  split at ht
  · rename_i hidle
    obtain ⟨he, ho | ho⟩ := callAs_next ht
    · exact exec_inv_of_not_host (b := .boardA) h he (.inl ho)
    · exact exec_inv_of_host h he ho hidle
  · cases ht; exact h

theorem hostNextStep_inv (h : s.InvIn none) : (hostNextStep s).InvIn none := by
  have hw := hostNextStep_hostWf h.host
  obtain ⟨x, r, rx, ht⟩ := hostNextStep_moved s
  exact h.congr (by rw [ht]) (by rw [ht]) hw

end

/-! ## Every step -/

/-- Every agent's step keeps the invariant. -/
theorem runEvent_inv {e : Event} {s t : State} (h : s.InvIn none) (ht : runEvent e s = .next t) : t.InvIn none := by
  cases e <;> simp only [runEvent] at ht
  case request b i => cases ht; exact h.setBoard_congr rfl rfl rfl rfl
  case mainLoop b => exact mainLoopStep_inv h ht
  case receive b d => cases ht; exact receiveByte_inv h
  case readFault b d e => cases ht; exact readFault_inv h
  case readyInterrupt b d seen => exact readyInterrupt_inv h ht
  case otherInterrupt b call seen => exact otherInterrupt_inv h ht
  case devComplete b d => cases ht; exact mapDevice_inv h
  case devEmit b d => cases ht; exact devEmit_inv h
  case devAnswer b d a => cases ht; exact mapDevice_inv h
  case wireDeliver l => cases ht; exact wireDeliver_inv h
  case wireGlitch l bytes => cases ht; exact setLine_inv h
  case hostLoop i => exact hostLoopStep_inv h ht
  case hostNext => cases ht; exact hostNextStep_inv h
  case portWriteAnswer | portAvailAnswer | portReadAnswer => cases ht; exact h.setLink rfl rfl

theorem step_inv {s t : State} (h : s.InvIn none) (ht : step s = .next t) : t.InvIn none := by
  unfold step at ht
  split at ht
  · cases ht; exact h
  · refine runEvent_inv ?_ ht
    exact h.congr rfl rfl (h.host.congr rfl)

/-- Settles O57, agent by agent. -/
theorem everyStepKeepsTheInvariant : Obligations.EveryStepKeepsTheInvariant := by
  intro s t hs h
  exact State.inv_iff.mpr (step_inv (State.inv_iff.mp hs) h)

end Sys2Proof.Machine

/-! # Proofs: creation, and the downstream elements of a leaf (R20, R40, R234, R320) -/

namespace Sys2Proof.Machine

/-! ## Creation -/

@[simp] theorem State.initial_board (c : Config) (b : BoardId) : (State.initial c).board b = Board.initial c := by
  cases b <;> rfl

@[simp] theorem State.initial_engine (c : Config) (b : BoardId) (d : Dir) :
    (State.initial c).engine b d = Txe.initial c.txCapacity := by
  cases b <;> cases d <;> rfl

@[simp] theorem State.initial_link (c : Config) (p : Side) : (State.initial c).link p = HostLink.initial := by
  cases p <;> rfl

/-- R40: a created engine has an empty ring, no device and the interrupt off. -/
theorem Txe.initial_wf {cap : Nat} (h : 0 < cap) : (Txe.initial cap).Wf cap :=
  ⟨Ring.initial_wf cap h, rfl, fun _ => ⟨rfl, rfl⟩⟩

theorem State.initial_boardWf {c : Config} (h : c.Wf) (b : BoardId) : (State.initial c).BoardWf b := by
  obtain ⟨hring, htx, -, -⟩ := h
  refine State.boardWf_iff.mpr ?_
  rw [State.initial_board]
  exact {
    ring := Ring.initial_wf _ hring
    cap := rfl
    engine := fun d => by cases d <;> exact Txe.initial_wf (Nat.zero_lt_of_lt htx)
    leaf := fun _ => rfl
    task := trivial
    inHandler := rfl }

/-- R40, R320: creation meets the invariant. -/
theorem State.initial_inv {c : Config} (h : c.Wf) : (State.initial c).Inv where
  cfg := h
  board := State.initial_boardWf h
  host p := by
    rw [State.initial_link]
    exact ⟨fun hn => absurd rfl hn, fun _ ht => nomatch ht⟩
  tick _ _ ht := nomatch ht

/-- Settles O55: the table element by element, and the invariant. -/
theorem creationLeavesTheResetTable : Obligations.CreationLeavesTheResetTable := by
  intro c hc
  refine ⟨fun b d => ?_, fun b => ?_, fun p => ?_, rfl, rfl, State.initial_inv hc⟩
  · rw [State.initial_engine, State.initial_board]
    exact ⟨rfl, rfl, rfl, rfl, by cases d <;> rfl⟩
  · rw [State.ring, State.initial_board]
    exact ⟨rfl, rfl, rfl⟩
  · rw [State.initial_link]
    exact ⟨rfl, rfl, rfl⟩

/-! ## A leaf -/

/-- R20, log entry 17: an operation on an element the board does not have. -/
theorem withDir_of_absent {b : BoardId} {d : Dir} {s : State} (h : s.hasDir b d = false) (k : State → Result) :
    withDir b d k s = .fault .noDownstream := by
  simp [withDir, h]

theorem withWf_none (k : State → Result) (s : State) : withWf none k s = k s := rfl

/-- R234: `on_response` does not exist on a leaf. -/
theorem onResponse_of_leaf {b : BoardId} {s : State} (h : s.hasDir b .down = false) (sr : SideResponse) :
    onResponse b sr s = .fault .noDownstream :=
  withDir_of_absent h _

/-- R234: nor is a response received there. -/
theorem runResponse_of_leaf {b : BoardId} {s : State} (h : s.hasDir b .down = false) {r : Response}
    (hr : r.Wf s.cfg.logMax) (hat : s.rx.respAt = .board b) : runResponse r s = .fault .noDownstream := by
  rw [runResponse, hr, withWf_none, hat]
  exact onResponse_of_leaf h _

/-- Settles O60, operation by operation. -/
theorem leavesHaveNoDownstreamElements : Obligations.LeavesHaveNoDownstreamElements := by
  intro s b w bytes map dc sr i hleaf hi
  have h : s.hasDir b .down = false := hleaf
  rcases hi with hi | ⟨hdc, rfl⟩ | ⟨hsr, rfl | ⟨rfl, hat⟩⟩
  · simp only [List.mem_cons, List.not_mem_nil, or_false] at hi
    rcases hi with rfl | rfl | rfl | rfl | rfl | rfl | rfl <;>
      simp only [exec, execTxSetDevice, execTxKick, execTxWrite, execTxTryWrite, execTxFlush, startWrite, startFlush,
        execLinkIngest, execLinkResolveOnce, withAcc, withDir_of_absent h]
  · simp only [exec, execRouterForwardCommand, hdc, withWf_none]
    exact withDir_of_absent h _
  · simp only [exec, execRouterOnResponse, hsr, withWf_none]
    exact onResponse_of_leaf h sr
  · rw [exec_ofResponse]
    exact runResponse_of_leaf h hsr hat

end Sys2Proof.Machine

/-! # Proofs: the ring as a bounded queue, and what operations leave alone (R32, R59, R61, R127, R304) -/

namespace Sys2Proof.Machine

/-! ## The stand-alone ring -/

/-- R127: one operation on a well-formed ring is one step of the bounded queue of its items. -/
theorem exec_queueOp {s : State} {b : BoardId} (h : (s.ring b).Wf) (o : QueueOp) :
    ∃ q : Ring Byte,
      exec (o.on b) s = .next ((s.setRing b q).returns (queueStep (s.ring b).cap o (s.ring b).contents).2) ∧
      q.contents = (queueStep (s.ring b).cap o (s.ring b).contents).1 ∧ q.Wf ∧ q.cap = (s.ring b).cap := by
  have hlen := Ring.contents_length h
  cases o with
  | add x =>
    refine ⟨((s.ring b).add x).1, ?_⟩
    by_cases hl : (s.ring b).length < (s.ring b).cap
    · refine ⟨?_, ?_, Ring.add_wf h x, Ring.add_cap _ _⟩
      · simp [QueueOp.on, exec, execRbAdd, withRing, queueStep, hlen, hl, Ring.add_of_lt]
      · simp [queueStep, hlen, hl, Ring.add_contents h]
    · rw [Ring.add_of_ge x (Nat.not_lt.mp hl)]
      refine ⟨?_, ?_, h, rfl⟩
      · simp [QueueOp.on, exec, execRbAdd, withRing, queueStep, hlen, hl, Ring.add_of_ge x (Nat.not_lt.mp hl)]
      · simp [queueStep, hlen, hl]
  | addAll xs =>
    refine ⟨((s.ring b).addAll xs).1, ?_, ?_, Ring.addAll_wf h xs, Ring.addAll_cap _ _⟩
    · simp [QueueOp.on, exec, execRbAddAll, withRing, queueStep, hlen, Ring.addAll_count h]
    · simp [queueStep, hlen, Ring.addAll_contents h]
  | take =>
    refine ⟨(s.ring b).take.1, ?_, Ring.take_contents h, Ring.take_wf h, Ring.take_cap _⟩
    simp [QueueOp.on, exec, execRbTake, withRing, queueStep, Ring.take_item h]
  | peek =>
    refine ⟨s.ring b, ?_, rfl, h, rfl⟩
    simp [QueueOp.on, exec, execRbPeek, withRing, queueStep, Ring.peek_eq h]
  | isEmpty =>
    refine ⟨s.ring b, ?_, rfl, h, rfl⟩
    simp [QueueOp.on, exec, execRbIsEmpty, withRing, queueStep, Ring.isEmpty_eq h]
  | isFull =>
    refine ⟨s.ring b, ?_, rfl, h, rfl⟩
    simp [QueueOp.on, exec, execRbIsFull, withRing, queueStep, Ring.isFull_eq h]

/-- A run begins with the instruction at its head. -/
theorem execRun_cons {i : Instr} {s t : State} (h : exec i s = .next t) (is : List Instr) :
    execRun (i :: is) s = (execRun is t).map fun o => (t.ret :: o.1, o.2) := by
  simp only [execRun, h]

/-- Settles O5, by induction on the operations. -/
theorem ringRefinesBoundedQueue : Obligations.RingRefinesBoundedQueue := by
  intro os
  induction os with
  | nil => exact fun s b h => ⟨s, rfl, rfl, h, rfl⟩
  | cons o os ih =>
    intro s b h
    obtain ⟨q, hexec, hq, hwf, hcap⟩ := exec_queueOp h o
    obtain ⟨t, hrun, ht⟩ :=
      ih ((s.setRing b q).returns (queueStep (s.ring b).cap o (s.ring b).contents).2) b (by simpa using hwf)
    simp only [State.returns_ring, State.ring_setRing_same, hq, hcap] at hrun ht
    refine ⟨t, ?_, ht⟩
    rw [List.map_cons, execRun_cons hexec, hrun]
    rfl

/-! ## Stations -/

/-- R32: no instruction writes the parameters or the schedule. -/
theorem Moved.cfg_schedule {o : Owner} {offer : BoardId → Dir → List Byte} {s t : State} (h : Moved o offer s t) :
    t.cfg = s.cfg ∧ t.schedule = s.schedule := by
  cases h with
  | pure r _ ht => subst ht; exact ⟨rfl, rfl⟩
  | board b _ hm => obtain ⟨x, r, -, rfl⟩ := hm; exact ⟨rfl, rfl⟩
  | host _ hm => obtain ⟨x, r, rx, rfl⟩ := hm; exact ⟨rfl, rfl⟩

/-- R61: an operation of the host, or a pure function, leaves the boards. -/
theorem exec_boards_of_not_board {i : Instr} {s t : State} (he : exec i s = .next t)
    (ho : ownerOf i = .anyone ∨ ownerOf i = .host) : t.boards = s.boards := by
  cases exec_moves he with
  | pure r _ ht => rw [ht]
  | host _ hm => obtain ⟨x, r, rx, rfl⟩ := hm; rfl
  | board b h1 _ => rcases h1 with h1 | h1 <;> rcases ho with ho | ho <;> cases h1.symm.trans ho

/-- Settles O58, owner by owner. -/
theorem stationsShareNoState : Obligations.StationsShareNoState := by
  intro i s t he
  obtain ⟨hcfg, hschedule⟩ := (exec_moves he).cfg_schedule
  refine ⟨hcfg, hschedule, fun b hb => ?_, fun hh => exec_boards_of_not_board he (.inr hh), fun ha => ?_⟩
  · exact ⟨(exec_boardMoved he hb).other b.other_ne, exec_host_of_not_host he (.inr hb)⟩
  · exact ⟨exec_boards_of_not_board he (.inl ha), exec_host_of_not_host (b := .boardA) he (.inl ha)⟩

/-! ## Pure operations -/

/-- R59: the instruction at most checks its operand and returns; neither the check nor the result depends on what the
operation before it returned (`old`). -/
def OnlyReturns (i : Instr) : Prop :=
  ∀ s : State, ∃ (c : Option IllFormed) (r : Ret), ∀ old : Option Ret,
    exec i { s with ret := old } = withWf c (fun u => .next (u.returns r)) { s with ret := old }

/-- R59: such an instruction changes the result alone, and run again it returns the same. -/
theorem OnlyReturns.frame_and_repeat {i : Instr} (hi : OnlyReturns i) {s t : State}
    (h : exec i s = .next t) : t = { s with ret := t.ret } ∧ ∀ u, exec i t = .next u → u.ret = t.ret := by
  obtain ⟨c, r, hex⟩ := hi s
  obtain ⟨-, ht⟩ := withWf_eq_next.mp ((hex s.ret).symm.trans h)
  cases ht
  refine ⟨rfl, fun u hu => ?_⟩
  obtain ⟨-, hu⟩ := withWf_eq_next.mp ((hex (some r)).symm.trans hu)
  cases hu
  rfl

/-- Settles O59: each of the eleven only returns. -/
theorem pureOperationsOnlyReturn : Obligations.PureOperationsOnlyReturn := by
  intro i s t bs map v d side a hi
  refine OnlyReturns.frame_and_repeat fun s => ?_
  simp only [List.mem_cons, List.not_mem_nil, or_false] at hi
  rcases hi with rfl | rfl | rfl | rfl | rfl | rfl | rfl | rfl | rfl | rfl | rfl
  · exact ⟨none, .item (s.ring a).peek, fun _ => rfl⟩
  · exact ⟨none, .flag (s.ring a).isEmpty, fun _ => rfl⟩
  · exact ⟨none, .flag (s.ring a).isFull, fun _ => rfl⟩
  · exact ⟨none, .body (parseBody s.cfg.logMax map bs), fun _ => rfl⟩
  · exact ⟨none, .body (decodeBody s.cfg.logMax map bs), fun _ => rfl⟩
  · exact ⟨v.check s.cfg.logMax, .bytes (encVal v), fun _ => rfl⟩
  · exact ⟨none, .body (if bs.head? = some 0x22#8 then parseLog s.cfg.logMax bs
      else Config.parseLogUntagged s.cfg.logMax bs), fun _ => rfl⟩
  · exact ⟨d.check s.cfg.logMax, .bytes (encDirected d), fun _ => rfl⟩
  · exact ⟨none, .directed (parseDirected s.cfg.logMax map bs), fun _ => rfl⟩
  · exact ⟨none, .directed (decodeDirected s.cfg.logMax map bs), fun _ => rfl⟩
  · exact ⟨none, .port (selectPort s.cfg side), fun _ => rfl⟩

end Sys2Proof.Machine

/-! # Proofs: words, canonical encodings, no encoding begins another (R81, R87, R88, R95, R96) -/

namespace Sys2Proof

/-! ## Wire rows and their values -/

@[simp] theorem Instr.val?_ofVal (v : Val) : (Instr.ofVal v).val? = some v := by
  cases v with
  | command c => cases c <;> rfl
  | response r => cases r <;> rfl

@[simp] theorem Instr.val?_ofSide (side : Side) : (Instr.ofSide side).val? = none := by cases side <;> rfl

@[simp] theorem Instr.side?_ofSide (side : Side) : (Instr.ofSide side).side? = some side := by cases side <;> rfl

/-- R89: the map of the opcode table that reads the bodies of a map. -/
def MsgMap.table : MsgMap → TableMap
  | .command => .command
  | .response => .response

/-- R97: the wire row of a value is of the value's map. -/
theorem Instr.tableMap?_ofVal (v : Val) : (Instr.ofVal v).tableMap? = some v.map.table := by
  cases v <;> simp [Instr.tableMap?, Val.map, MsgMap.table]

theorem Instr.tableMap?_ofSide (side : Side) : (Instr.ofSide side).tableMap? = some .side := by
  simp [Instr.tableMap?]

/-- R174: the wire row of a value has the value's encoding. -/
theorem encode_ofVal (v : Val) : encode (.ofVal v) = some (encVal v) := by simp [encode]

/-- R81: the wire row of a side has the one byte of its tag. -/
theorem encode_ofSide (side : Side) : encode (.ofSide side) = some [sideTag side] := by simp [encode]

/-- R174: the wire row of a value is well-formed as the value is. -/
theorem Instr.wf_ofVal {m : Nat} {v : Val} : (Instr.ofVal v).Wf m ↔ v.Wf m := by simp [Instr.Wf, Instr.check]

theorem Instr.wf_ofSide (m : Nat) (side : Side) : (Instr.ofSide side).Wf m := by cases side <;> rfl

/-! ## What the decoder accepts -/

/-- R171: the decoder to messages accepts what the stream parse accepts. -/
theorem decodeMsg_eq_instr {m : Nat} {map : MsgMap} {s : List Byte} {i : Instr} {n : Nat} :
    decodeMsg m map s = .instr i n ↔ ∃ v, parseBody m map s = .ok v n ∧ i = .ofVal v := by
  unfold decodeMsg
  cases parseBody m map s with
  | incomplete | err k c => simp
  | ok v k => simp [eq_comm, and_comm]

/-- R81: the decoder of side tags accepts a tag and takes one byte. -/
theorem decodeSide_eq_instr {s : List Byte} {i : Instr} {n : Nat} (h : decodeSide s = .instr i n) :
    ∃ side rest, s = sideTag side :: rest ∧ i = .ofSide side ∧ n = 1 := by
  cases s with
  | nil => cases h
  | cons t rest =>
    cases hs : sideOf t with
    | none => simp [decodeSide, hs] at h
    | some side =>
      simp only [decodeSide, hs, Decoded.instr.injEq] at h
      exact ⟨side, rest, by rw [sideTag_of_sideOf hs], h.1.symm, h.2.symm⟩

/-- R95: a message that decodes is well-formed, of the map it was read with, and encodes to the bytes consumed. -/
theorem decodeMsg_canonical {m : Nat} {map : MsgMap} {s : List Byte} {i : Instr} {n : Nat}
    (h : decodeMsg m map s = .instr i n) :
    i.Wf m ∧ i.tableMap? = some map.table ∧ n ≤ s.length ∧ encode i = some (s.take n) := by
  obtain ⟨v, hp, rfl⟩ := decodeMsg_eq_instr.mp h
  obtain ⟨hwf, rfl, hn, henc⟩ := parseBody_ok hp
  exact ⟨Instr.wf_ofVal.mpr hwf, Instr.tableMap?_ofVal v, hn, by rw [encode_ofVal, henc]⟩

/-- R95, for the side tags. -/
theorem decodeSide_canonical {m : Nat} {s : List Byte} {i : Instr} {n : Nat} (h : decodeSide s = .instr i n) :
    i.Wf m ∧ i.tableMap? = some .side ∧ n ≤ s.length ∧ encode i = some (s.take n) := by
  obtain ⟨side, rest, rfl, rfl, rfl⟩ := decodeSide_eq_instr h
  exact ⟨Instr.wf_ofSide m side, Instr.tableMap?_ofSide side, by simp, by simp [encode_ofSide]⟩

/-- Settles O22, map by map. -/
theorem encodeOfDecodeIsTheBytes : Obligations.EncodeOfDecodeIsTheBytes := by
  intro m map bs i n h
  cases map with
  | command => exact decodeMsg_canonical (map := .command) h
  | response => exact decodeMsg_canonical (map := .response) h
  | side => exact decodeSide_canonical h

/-- Settles O20: each of the six words is decoded. -/
theorem wordsOfEachFamilyDecode : Obligations.WordsOfEachFamilyDecode := by
  unfold Obligations.WordsOfEachFamilyDecode
  decide

/-! ## No encoding begins another -/

/-- R96: the stream parse of the longer encoding gives the value of the shorter, and its own. -/
theorem eq_of_encVal_prefix {m : Nat} {v w : Val} (hv : v.Wf m) (hw : w.Wf m) (hmap : v.map = w.map)
    (hp : encVal v <+: encVal w) : v = w := by
  obtain ⟨tail, htail⟩ := hp
  have hparse : Parse.ok v (encVal v).length = Parse.ok w (encVal w).length :=
    calc Parse.ok v (encVal v).length
      _ = parseBody m v.map (encVal v ++ tail) := (parseBody_encVal hv tail).symm
      _ = parseBody m w.map (encVal w ++ []) := by rw [hmap, htail, List.append_nil]
      _ = Parse.ok w (encVal w).length := parseBody_encVal hw []
  exact (Parse.ok.inj hparse).1

theorem sideTag_injective : Function.Injective sideTag := fun a b h =>
  Option.some.inj (by rw [← sideOf_sideTag a, h, sideOf_sideTag])

/-- R96 behind the side tags: these are the same byte, and the bodies' encodings begin one another. -/
theorem eq_of_encDirected_prefix {m : Nat} {v w : Directed} (hv : v.Wf m) (hw : w.Wf m) (hmap : v.val.map = w.val.map)
    (hp : encDirected v <+: encDirected w) : v = w := by
  rw [encDirected_eq, encDirected_eq, List.cons_prefix_cons] at hp
  obtain ⟨htag, hbody⟩ := hp
  rw [← Directed.of_side_val v, ← Directed.of_side_val w, sideTag_injective htag,
    eq_of_encVal_prefix (v := v.val) (w := w.val) hv hw hmap hbody]

/-- Settles O29, bare and directed. -/
theorem noEncodingBeginsAnother : Obligations.NoEncodingBeginsAnother := fun _ =>
  ⟨fun _ _ hv hw hmap hp => eq_of_encVal_prefix hv hw hmap hp,
    fun _ _ hv hw hmap hp => eq_of_encDirected_prefix hv hw hmap hp⟩

end Sys2Proof

/-! # Proofs: UTF-8 validity and the table of sequences (R98) -/

namespace Sys2Proof.Machine

/-- R98: a byte within an inclusive range of the table. -/
abbrev InRange (r : Nat × Nat) (b : Byte) : Prop := r.1 ≤ b.toNat ∧ b.toNat ≤ r.2

/-- R98: what a first byte owes is what the rows of the table that begin with it list after it. -/
theorem utf8Lead_eq_some {b : Byte} {rs : List (Nat × Nat)} :
    utf8Lead b = some rs ↔ ∃ r, r :: rs ∈ utf8Forms ∧ InRange r b := by
  constructor
  · intro h
    simp only [utf8Lead] at h
    split_ifs at h <;> cases h
    · exact ⟨(0x00, 0x7F), by decide, by omega⟩
    · exact ⟨(0xC2, 0xDF), by decide, by omega⟩
    · exact ⟨(0xE0, 0xE0), by decide, by omega⟩
    · exact ⟨(0xE1, 0xEC), by decide, by omega⟩
    · exact ⟨(0xED, 0xED), by decide, by omega⟩
    · exact ⟨(0xEE, 0xEF), by decide, by omega⟩
    · exact ⟨(0xF0, 0xF0), by decide, by omega⟩
    · exact ⟨(0xF1, 0xF3), by decide, by omega⟩
    · exact ⟨(0xF4, 0xF4), by decide, by omega⟩
  · rintro ⟨r, hform, hlo, hhi⟩
    simp only [utf8Forms, List.mem_cons, List.not_mem_nil, or_false, List.cons.injEq] at hform
    rcases hform with ⟨rfl, rfl⟩ | ⟨rfl, rfl⟩ | ⟨rfl, rfl⟩ | ⟨rfl, rfl⟩ | ⟨rfl, rfl⟩ | ⟨rfl, rfl⟩ | ⟨rfl, rfl⟩ |
      ⟨rfl, rfl⟩ | ⟨rfl, rfl⟩ <;> simp (disch := omega) only [utf8Lead, if_pos, if_neg]

/-! ## The scan -/

/-- R98: behind a string that pays what is owed, the scan goes on as at a boundary. -/
theorem utf8Scan_append {rs : List (Nat × Nat)} {s : List Byte} (t : List Byte) (h : utf8Scan rs s = true) :
    utf8Scan rs (s ++ t) = utf8Valid t := by
  induction rs, s using utf8Scan.induct with
  | case1 => rfl
  | case2 r rs => cases h
  | case3 r rs b bs ih =>
    simp only [utf8Scan, Bool.and_eq_true] at h
    simp [utf8Scan, h.1, ih h.2]
  | case4 b bs hlead => simp [utf8Scan, hlead] at h
  | case5 b bs rs hlead ih =>
    simp only [utf8Scan, hlead] at h
    simp only [List.cons_append, utf8Scan, hlead, ih h]

/-- R98: bytes in the ranges owed are accepted. -/
theorem utf8Scan_of_forall₂ {rs : List (Nat × Nat)} {q : List Byte} (h : List.Forall₂ InRange rs q) :
    utf8Scan rs q = true := by
  induction h with
  | nil => rfl
  | cons hr _ ih => simp only [utf8Scan, decide_eq_true hr, ih, Bool.and_self]

/-- R98: an accepted string is the bytes owed and then whole sequences. -/
theorem sequences_of_utf8Scan {rs : List (Nat × Nat)} {s : List Byte} (h : utf8Scan rs s = true) :
    ∃ (q : List Byte) (qs : List (List Byte)), List.Forall₂ InRange rs q ∧ (∀ p ∈ qs, Utf8Sequence p) ∧
      s = q ++ qs.flatten := by
  induction rs, s using utf8Scan.induct with
  | case1 => exact ⟨[], [], .nil, by simp, rfl⟩
  | case2 r rs => cases h
  | case3 r rs b bs ih =>
    simp only [utf8Scan, Bool.and_eq_true, decide_eq_true_eq] at h
    obtain ⟨q, qs, hq, hqs, rfl⟩ := ih h.2
    exact ⟨b :: q, qs, .cons h.1 hq, hqs, rfl⟩
  | case4 b bs hlead => simp [utf8Scan, hlead] at h
  | case5 b bs rs hlead ih =>
    simp only [utf8Scan, hlead] at h
    obtain ⟨q, qs, hq, hqs, rfl⟩ := ih h
    obtain ⟨r, hform, hr⟩ := utf8Lead_eq_some.mp hlead
    exact ⟨[], (b :: q) :: qs, .nil, List.forall_mem_cons.mpr ⟨⟨r :: rs, hform, .cons hr hq⟩, hqs⟩, rfl⟩

/-! ## Valid strings -/

theorem utf8Valid_append {s : List Byte} (t : List Byte) (h : utf8Valid s = true) :
    utf8Valid (s ++ t) = utf8Valid t := utf8Scan_append t h

theorem utf8Valid_of_sequence {q : List Byte} (h : Utf8Sequence q) : utf8Valid q = true := by
  obtain ⟨f, hf, hq⟩ := h
  cases hq with
  | nil => rfl
  | cons hr hrest =>
    have hlead := utf8Lead_eq_some.mpr ⟨_, hf, hr⟩
    simpa only [utf8Valid, utf8Scan, hlead] using utf8Scan_of_forall₂ hrest

theorem utf8Valid_flatten {qs : List (List Byte)} (h : ∀ q ∈ qs, Utf8Sequence q) : utf8Valid qs.flatten = true := by
  induction qs with
  | nil => rfl
  | cons q qs ih =>
    obtain ⟨hq, hqs⟩ := List.forall_mem_cons.mp h
    rw [List.flatten_cons, utf8Valid_append _ (utf8Valid_of_sequence hq), ih hqs]

/-- R98: exactly the concatenations of the table's sequences are valid. -/
theorem utf8Valid_iff {s : List Byte} :
    utf8Valid s = true ↔ ∃ qs : List (List Byte), (∀ q ∈ qs, Utf8Sequence q) ∧ s = qs.flatten := by
  constructor
  · intro h
    obtain ⟨q, qs, hq, hqs, rfl⟩ := sequences_of_utf8Scan h
    cases hq
    exact ⟨qs, hqs, rfl⟩
  · rintro ⟨qs, hqs, rfl⟩
    exact utf8Valid_flatten hqs

/-- R98: a byte of 00..7F is a sequence by itself. -/
theorem utf8Sequence_singleton {b : Byte} (h : b.toNat ≤ 0x7F) : Utf8Sequence [b] :=
  ⟨[(0x00, 0x7F)], by simp [utf8Forms], .cons ⟨Nat.zero_le _, h⟩ .nil⟩

theorem utf8Valid_of_ascii {s : List Byte} (h : ∀ b ∈ s, b.toNat ≤ 0x7F) : utf8Valid s = true := by
  induction s with
  | nil => rfl
  | cons b s ih =>
    obtain ⟨hb, hs⟩ := List.forall_mem_cons.mp h
    exact (utf8Valid_append s (utf8Valid_of_sequence (utf8Sequence_singleton hb))).trans (ih hs)

/-! ## The newline -/

/-- R98: every byte of a row for more than one byte is above the newline. -/
theorem newline_lt_of_mem_utf8Forms : ∀ f ∈ utf8Forms, f.length ≠ 1 → ∀ r ∈ f, newline.toNat < r.1 := by decide

theorem newline_notMem_of_forall₂ {f : List (Nat × Nat)} {q : List Byte} (h : List.Forall₂ InRange f q)
    (hf : ∀ r ∈ f, newline.toNat < r.1) : newline ∉ q := by
  induction h with
  | nil => simp
  | @cons r b _ _ hr _ ih =>
    obtain ⟨hlt, hf⟩ := List.forall_mem_cons.mp hf
    have hb : newline ≠ b := by
      rintro rfl
      exact absurd hr.1 (Nat.not_le.mpr hlt)
    simpa [hb] using ih hf

/-- R91, R98: a sequence of more than one byte holds no newline. -/
theorem Utf8Sequence.newline_notMem {q : List Byte} (h : Utf8Sequence q) (hlen : q.length ≠ 1) : newline ∉ q := by
  obtain ⟨f, hf, hq⟩ := h
  exact newline_notMem_of_forall₂ hq (newline_lt_of_mem_utf8Forms f hf (by rwa [hq.length_eq]))

/-- Settles O30. -/
theorem validUtf8IsSequencesOfTheTable : Obligations.ValidUtf8IsSequencesOfTheTable :=
  ⟨fun _ => utf8Valid_iff, fun _ => Utf8Sequence.newline_notMem, fun _ => utf8Valid_of_ascii,
    fun _ t h => (utf8Valid_append t h).symm⟩

end Sys2Proof.Machine

/-! # Proofs: each ring operation by itself (R121 to R126, R128) -/

namespace Sys2Proof.Machine

/-! ## Equations of the ring operations, without well-formedness -/

section
variable {α : Type} {r : Ring α}

/-- R122: with room left, `add_all` adds the first item and goes on. -/
theorem Ring.addAll_cons (h : r.length < r.cap) (x : α) (xs : List α) :
    r.addAll (x :: xs) = (((r.add x).1.addAll xs).1, ((r.add x).1.addAll xs).2 + 1) := by
  simp only [Ring.addAll, Ring.add_of_lt x h]

/-- R122: a full ring takes nothing of a slice. -/
theorem Ring.addAll_of_ge (h : r.cap ≤ r.length) (xs : List α) : r.addAll xs = (r, 0) := by
  cases xs with
  | nil => rfl
  | cons x xs => simp only [Ring.addAll, Ring.add_of_ge x h]

/-- R123: `take` on an empty ring. -/
theorem Ring.take_of_eq_zero (h : r.length = 0) : r.take = (r, none) := if_pos h

/-- R123: `take` on a ring that holds items. -/
theorem Ring.take_of_ne_zero (h : r.length ≠ 0) :
    r.take = ({ r with start := (r.start + 1) % r.cap, length := r.length - 1 }, r.item 0) := if_neg h

/-! ## The bounds (R128) -/

/-- R128: `start < N` and `length <= N`, whatever the slots hold. -/
def Ring.InBounds (r : Ring α) : Prop := r.start < r.cap ∧ r.length ≤ r.cap

theorem Ring.InBounds.add (h : r.InBounds) (x : α) : (r.add x).1.InBounds := by
  by_cases hl : r.length < r.cap
  · rw [Ring.add_of_lt x hl]
    exact ⟨h.1, hl⟩
  · rwa [Ring.add_of_ge x (Nat.not_lt.mp hl)]

theorem Ring.InBounds.addAll (h : r.InBounds) (xs : List α) : (r.addAll xs).1.InBounds := by
  induction xs generalizing r with
  | nil => exact h
  | cons x xs ih =>
    by_cases hl : r.length < r.cap
    · rw [Ring.addAll_cons hl]
      exact ih (h.add x)
    · rwa [Ring.addAll_of_ge (Nat.not_lt.mp hl)]

theorem Ring.InBounds.take (h : r.InBounds) : r.take.1.InBounds := by
  by_cases hl : r.length = 0
  · rwa [Ring.take_of_eq_zero hl]
  · rw [Ring.take_of_ne_zero hl]
    exact ⟨Nat.mod_lt _ (Nat.zero_lt_of_lt h.1), (Nat.sub_le _ _).trans h.2⟩

end

/-! ## The six operations at once -/

/-- R121 to R126: what an operation makes of the ring it is asked of. -/
def QueueOp.ringAfter (r : Ring Byte) : QueueOp → Ring Byte
  | .add x => (r.add x).1
  | .addAll xs => (r.addAll xs).1
  | .take => r.take.1
  | .peek | .isEmpty | .isFull => r

/-- R121 to R126: what an operation returns, read off the ring it is asked of. -/
def QueueOp.answer (r : Ring Byte) : QueueOp → Ret
  | .add x => .flag (r.add x).2
  | .addAll xs => .count (r.addAll xs).2
  | .take => .item r.take.2
  | .peek => .item r.peek
  | .isEmpty => .flag r.isEmpty
  | .isFull => .flag r.isFull

/-- R120 to R126: an operation completes on every ring, well-formed or not, and writes that ring and the result. -/
theorem exec_on (o : QueueOp) (s : State) (b : BoardId) :
    exec (o.on b) s = .next ((s.setRing b (o.ringAfter (s.ring b))).returns (o.answer (s.ring b))) := by
  cases o with
  | add | addAll | take => rfl
  | peek | isEmpty | isFull => rw [QueueOp.ringAfter, State.setRing_ring]; rfl

theorem exec_on_eq_setRing {o : QueueOp} {s : State} {b : BoardId} {a : Ret} (h : o.answer (s.ring b) = a) :
    exec (o.on b) s = .next ((s.setRing b (o.ringAfter (s.ring b))).returns a) := by
  rw [exec_on, h]

/-- An operation that leaves the ring changes the result alone. -/
theorem exec_on_eq_returns {o : QueueOp} {s : State} {b : BoardId} {a : Ret}
    (hring : o.ringAfter (s.ring b) = s.ring b) (h : o.answer (s.ring b) = a) :
    exec (o.on b) s = .next (s.returns a) := by
  rw [exec_on, hring, State.setRing_ring, h]

theorem QueueOp.ringAfter_cap (o : QueueOp) (r : Ring Byte) : (o.ringAfter r).cap = r.cap := by
  cases o with
  | add x => exact Ring.add_cap r x
  | addAll xs => exact Ring.addAll_cap r xs
  | take => exact Ring.take_cap r
  | peek | isEmpty | isFull => rfl

/-- R128. -/
theorem QueueOp.ringAfter_inBounds {r : Ring Byte} (h : r.InBounds) (o : QueueOp) : (o.ringAfter r).InBounds := by
  cases o with
  | add x => exact h.add x
  | addAll xs => exact h.addAll xs
  | take => exact h.take
  | peek | isEmpty | isFull => exact h

/-- Settles O6: an operation completes on the ring it leaves, whose bounds hold. -/
theorem ringOperationsKeepTheirBounds : Obligations.RingOperationsKeepTheirBounds := by
  intro o s t b hstart hlen hexec
  cases (exec_on o s b).symm.trans hexec
  rw [State.returns_ring, State.ring_setRing_same]
  exact ⟨o.ringAfter_cap _, QueueOp.ringAfter_inBounds ⟨hstart, hlen⟩ o⟩

/-! ## Operation by operation -/

/-- Settles O2. -/
theorem ringAddAllStoresWhatFits : Obligations.RingAddAllStoresWhatFits := by
  intro s b xs h
  refine ⟨((s.ring b).addAll xs).1, ?_, ?_, Ring.addAll_cap _ _, Ring.addAll_start _ _, Ring.addAll_wf h xs, ?_⟩
  · exact exec_on_eq_setRing (o := .addAll xs) (congrArg Ret.count (Ring.addAll_count h xs))
  · rw [Ring.addAll_contents h, min_comm, ← List.take_eq_take_min]
  · rintro (rfl | hfull)
    · rfl
    · rw [Ring.addAll_of_ge hfull.ge]

/-- Settles O1: the two cases of `add`. -/
theorem ringAddAppendsOrRefuses : Obligations.RingAddAppendsOrRefuses := by
  intro s b x h
  refine ⟨fun hroom => ?_, fun hfull => ?_⟩
  · have hadd := Ring.add_of_lt x hroom
    refine ⟨((s.ring b).add x).1, ?_, congrArg Prod.fst hadd, Ring.add_contents h x hroom, ?_, ?_⟩
    · exact exec_on_eq_setRing (o := .add x) (by rw [QueueOp.answer, hadd])
    · simp [hadd, Ring.isEmpty]
    · simp [hadd, Ring.isFull]
  · have hadd := Ring.add_of_ge x hfull.ge
    exact exec_on_eq_returns (o := .add x) (congrArg Prod.fst hadd) (by rw [QueueOp.answer, hadd])

/-- Settles O3: the two cases of `take`. -/
theorem ringTakeReturnsTheOldest : Obligations.RingTakeReturnsTheOldest := by
  intro s b h
  refine ⟨fun hempty => ?_, fun hne => ?_⟩
  · have htake := Ring.take_of_eq_zero hempty
    exact exec_on_eq_returns (o := .take) (congrArg Prod.fst htake) (by rw [QueueOp.answer, htake])
  · have htake := Ring.take_of_ne_zero hne
    have ⟨_, _, hlen, _⟩ := h
    obtain ⟨x, xs, hcontents⟩ := List.exists_cons_of_ne_nil (mt (Ring.contents_eq_nil_iff h).mp hne)
    refine ⟨x, (s.ring b).take.1, ?_, ?_, ?_, Ring.take_cap _, Ring.take_wf h, ?_, ?_, ?_⟩
    · exact exec_on_eq_setRing (o := .take) (by rw [QueueOp.answer, Ring.take_item h, hcontents, List.head?_cons])
    · rw [htake]
    · rw [htake]
    · rw [Ring.take_contents h, hcontents, List.tail_cons]
    · simp only [htake, Ring.isFull, beq_eq_false_iff_ne]
      omega
    · simp only [htake, Ring.isEmpty, beq_iff_eq]
      omega

/-- Settles O4: a query leaves the ring, and reads what its contents say. -/
theorem ringQueriesOnlyReturn : Obligations.RingQueriesOnlyReturn := by
  intro s b h
  refine ⟨exec_on_eq_returns (o := .peek) rfl ?_, exec_on_eq_returns (o := .isEmpty) rfl ?_,
    exec_on_eq_returns (o := .isFull) rfl ?_⟩
  · rw [QueueOp.answer, Ring.peek_eq h]
  · simp only [QueueOp.answer, Ring.isEmpty_eq h, ← List.isEmpty_iff, Bool.decide_eq_true]
  · exact congrArg Ret.flag (Ring.isFull_eq h)

end Sys2Proof.Machine

/-! # Proofs: what `kick`, `set_device`, `write` and `flush` do at once (R141 to R147, R150) -/

namespace Sys2Proof.Machine

/-! ## `kick` and `try_write` -/

theorem exec_kick_of {b : BoardId} {d : Dir} {i : Instr} {s : State} (hdir : s.hasDir b d = true)
    (hi : i ∈ [.txKick b d, .txTryWrite b d]) : exec i s = .next (kickEngine b d s) := by
  simp only [List.mem_cons, List.not_mem_nil, or_false] at hi
  rcases hi with rfl | rfl <;> exact withDir_of hdir fun s => .next (kickEngine b d s)

/-- R143: with no device, `kick` changes the result alone. -/
theorem kickEngine_of_absent {b : BoardId} {d : Dir} {s : State} (h : (s.engine b d).dev = none) :
    kickEngine b d s = s.returns (.result .ok) := by
  rw [kickEngine, Txe.kick_absent h, State.setEngine_engine]

/-- R144: with a device, `kick` follows its table. -/
theorem kickEngine_became {b : BoardId} {d : Dir} {s : State} {w : Device} (hwf : (s.engine b d).rb.Wf)
    (hdev : (s.engine b d).dev = some w) :
    EngineBecame b d s (kickEngine b d s) (kickTable (s.engine b d).rb.contents (s.engine b d).irqEn w).1
      (kickTable (s.engine b d).rb.contents (s.engine b d).irqEn w).2.1
      (kickTable (s.engine b d).rb.contents (s.engine b d).irqEn w).2.2.1 (s.board b).task (s.board b).log
      (some (.result (kickTable (s.engine b d).rb.contents (s.engine b d).irqEn w).2.2.2)) := by
  obtain ⟨hq, hwf', hcap, hirq, hdev', hres⟩ := Txe.kick_table hwf hdev
  refine engineBecame_of (e := (s.engine b d).kick.1) ?_ hq hwf' hcap hirq hdev'
  rw [kickEngine, hres]
  rfl

/-- Settles O7. -/
theorem kickFollowsItsTable : Obligations.KickFollowsItsTable := by
  intro s b d w i hdir hwf hdev hi
  exact ⟨kickEngine b d s, exec_kick_of hdir hi, kickEngine_became hwf hdev⟩

/-! ## The device of an engine -/

theorem withDevice_of_absent {b : BoardId} {d : Dir} {s : State} (h : (s.engine b d).dev = none)
    (k : State → Result) : withDevice b d k s = .refused .deviceAbsent := by
  simp only [withDevice, h]

/-- Settles O8: the guard of `write` and `flush`, and the absent case of `kick`. -/
theorem withoutDeviceWriteAndFlushAreRefused : Obligations.WithoutDeviceWriteAndFlushAreRefused := by
  intro s b d bytes hdir hdev
  refine ⟨fun hf => ⟨?_, ?_⟩, ?_, ?_⟩
  · simp only [exec, execTxWrite, startWrite, withDir_of hdir, onMainLoop_of hf, withDevice_of_absent hdev]
  · simp only [exec, execTxFlush, startFlush, withDir_of hdir, onMainLoop_of hf, withDevice_of_absent hdev]
  · exact (exec_kick_of hdir (by simp)).trans (congrArg _ (kickEngine_of_absent hdev))
  · exact (exec_kick_of hdir (by simp)).trans (congrArg _ (kickEngine_of_absent hdev))

/-- R143: `kick` neither sets nor clears the device, whatever the ring holds. -/
theorem Txe.kick_dev_eq_none {t : Txe} : t.kick.1.dev = none ↔ t.dev = none := by
  cases hd : t.dev with
  | none => simp [Txe.kick_absent hd, hd]
  | some w =>
    cases hp : t.rb.peek with
    | none => simp [Txe.kick, hd, hp, Txe.rearm]
    | some x => rcases ha : deviceWriteByte w x with ⟨_ | _ | e, w'⟩ <;> simp [Txe.kick, hd, hp, ha, Txe.rearm]

/-- R142: no operation's move clears the device. -/
theorem EngineMove.dev_ne_none {offer : List Byte} {t u : Txe} (h : EngineMove offer t u) (hd : t.dev ≠ none) :
    u.dev ≠ none := by
  cases h with
  | same => exact hd
  | setDevice w | asked w => simp
  | kick | pass => exact mt Txe.kick_dev_eq_none.mp hd

/-- Settles O9: the two cases of `set_device`, and the moves of every instruction. -/
theorem deviceIsSetOnceForGood : Obligations.DeviceIsSetOnceForGood := by
  refine ⟨fun s b d w hdir hf => ⟨fun hdev => ?_, fun hdev => ?_⟩, fun i s t b d h => ?_⟩
  · simp only [exec, execTxSetDevice, withDir_of hdir, onMainLoop_of hf, hdev]
  · obtain ⟨w', hw'⟩ := Option.ne_none_iff_exists'.mp hdev
    simp only [exec, execTxSetDevice, withDir_of hdir, onMainLoop_of hf, hw']
  · exact (exec_engines h b d).1.dev_ne_none

/-! ## The main loop goes on with a `write` or a `flush` -/

/-- R57, R149: a main loop in a blocking operation goes on with it. -/
theorem mainLoopStep_of_blocking {s : State} {b : BoardId} {d : Dir} {ph : Phase} (hh : (s.board b).inHandler = false)
    (ht : (∃ rem who, (s.board b).task = .write d rem ph who) ∨ (s.board b).task = .flush d ph) :
    mainLoopStep b s = .next (continueTask b s) := by
  rcases ht with ⟨rem, who, ht⟩ | ht
  · simp [mainLoopStep, State.mainLoopRuns, hh, ht]
  · simp [mainLoopStep, State.mainLoopRuns, hh, ht]

theorem step_mainLoop_blocking {s : State} {b : BoardId} {d : Dir} {ph : Phase} {rest : List Event}
    (hs : s.schedule = .mainLoop b :: rest) (hh : (s.board b).inHandler = false)
    (ht : (∃ rem who, (s.board b).task = .write d rem ph who) ∨ (s.board b).task = .flush d ph) :
    step s = .next (continueTask b { s with schedule := rest }) :=
  (step_of_schedule hs).trans (mainLoopStep_of_blocking (s := { s with schedule := rest }) hh ht)

section
variable {s : State} {b : BoardId} {d : Dir} {rem : List Byte} {who : Caller}

/-! R149: what `continueTask` does in each phase. -/

theorem continueTask_write_running (ht : (s.board b).task = .write d rem .running who) :
    continueTask b s = writePass b d rem who s := by
  simp only [continueTask, ht]

theorem continueTask_write_suspending (ht : (s.board b).task = .write d rem .suspending who) :
    continueTask b s = s.setTask b (.write d rem .waiting who) := by
  simp only [continueTask, ht]

theorem continueTask_write_waiting (ht : (s.board b).task = .write d rem .waiting who) : continueTask b s = s := by
  simp only [continueTask, ht]

theorem continueTask_flush_running (ht : (s.board b).task = .flush d .running) :
    continueTask b s = flushTest b d s := by
  simp only [continueTask, ht]

theorem continueTask_flush_suspending (ht : (s.board b).task = .flush d .suspending) :
    continueTask b s = s.setTask b (.flush d .waiting) := by
  simp only [continueTask, ht]

theorem continueTask_flush_waiting (ht : (s.board b).task = .flush d .waiting) : continueTask b s = s := by
  simp only [continueTask, ht]

end

/-- Settles O10: an empty `write`, the first pass, a later pass. -/
theorem writeRunsPassByPass : Obligations.WriteRunsPassByPass := by
  intro s b d bytes w hdir hwf hdev
  refine ⟨fun hf hb => ?_, fun hf hb => ?_, fun who rest hh ht hs => ?_⟩
  · subst hb
    have hfin : finishWrite b d .application .ok s = s.returns (.result .ok) := by
      rw [finishWrite, finishTask, State.setTask_idle hf.2]
    refine startWrite_eq_next.mpr ⟨hdir, hf, by simp [hdev], ?_⟩
    rw [if_pos rfl, hfin]
    rfl
  · exact ⟨_, startWrite_of hdir hf hdev hb, writePass_passed .application hwf hdev⟩
  · refine ⟨_, step_mainLoop_blocking hs hh (.inl ⟨bytes, who, ht⟩), ?_⟩
    rw [continueTask_write_running (s := { s with schedule := rest }) ht]
    exact writePass_passed who hwf hdev

/-- Settles O11: the first test, and a later test. -/
theorem flushTestsUntilDrained : Obligations.FlushTestsUntilDrained := by
  intro s b d w hdir hwf hdev
  refine ⟨fun hf => ?_, fun rest hh ht hs => ?_⟩
  · exact ⟨_, startFlush_eq_next.mpr ⟨hdir, hf, by simp [hdev], rfl⟩, flushTest_tested hwf hdev⟩
  · refine ⟨_, step_mainLoop_blocking hs hh (.inr ht), ?_⟩
    rw [continueTask_flush_running (s := { s with schedule := rest }) ht]
    exact flushTest_tested hwf hdev

end Sys2Proof.Machine

/-! # Proofs: the ready interrupt, suspension and wake (R145, R149, R153, R290 to R295) -/

namespace Sys2Proof.Machine

/-! ## A handler from entry to return -/

/-- R293: what a handler of a board does is nothing, or one operation of its board or a pure one. -/
def IsHandler (b : BoardId) (k : State → Result) : Prop :=
  ∀ u v, k u = .next v → v = u ∨ ∃ i, exec i u = .next v ∧ (ownerOf i = .anyone ∨ ownerOf i = .board b)

theorem isHandler_exec {b : BoardId} {i : Instr} (hi : ownerOf i = .board b) : IsHandler b (exec i) :=
  fun _ _ h => .inr ⟨i, h, .inr hi⟩

theorem isHandler_callAs (b : BoardId) (i : Instr) : IsHandler b (callAs (.board b) i) :=
  fun _ _ h => .inr ⟨i, callAs_next h⟩

theorem isHandler_next (b : BoardId) : IsHandler b .next := fun _ _ h => .inl (by cases h; rfl)

/-- R294: the ready interrupt of an engine with a device, when it is pending, takes the interrupt. -/
theorem readyInterrupt_of_pending {s : State} {b : BoardId} {d : Dir} {w : Device} (seen : Bool)
    (hh : (s.board b).inHandler = false) (hdir : s.hasDir b d = true) (hdev : (s.engine b d).dev = some w)
    (hirq : (s.engine b d).irqEn = true) (hr : w.ready = true) :
    readyInterrupt b d seen s = takeInterrupt b seen (exec (.txTryWrite b d)) s := by
  simp [readyInterrupt, State.mainLoopRuns, hh, hdir, Txe.readyPending, hdev, hirq, hr]

/-- R290: when the ready interrupt does something, it takes the interrupt. -/
theorem readyInterrupt_cases {s : State} (b : BoardId) (d : Dir) (seen : Bool) :
    readyInterrupt b d seen s = .next s ∨
      readyInterrupt b d seen s = takeInterrupt b seen (exec (.txTryWrite b d)) s := by
  unfold readyInterrupt
  split
  · exact .inr rfl
  · exact .inl rfl

/-- R293, R294: another handler, with none running. -/
theorem otherInterrupt_none {s : State} {b : BoardId} (seen : Bool) (hh : (s.board b).inHandler = false) :
    otherInterrupt b none seen s = takeInterrupt b seen .next s := by
  simp only [otherInterrupt, State.mainLoopRuns, hh]
  rfl

theorem otherInterrupt_some {s : State} {b : BoardId} (i : Instr) (seen : Bool) (hh : (s.board b).inHandler = false) :
    otherInterrupt b (some i) seen s = takeInterrupt b seen (callAs (.board b) i) s := by
  simp only [otherInterrupt, State.mainLoopRuns, hh]
  rfl

theorem otherInterrupt_takes {s : State} {b : BoardId} (call : Option Instr) (seen : Bool)
    (hh : (s.board b).inHandler = false) :
    ∃ k, IsHandler b k ∧ otherInterrupt b call seen s = takeInterrupt b seen k s := by
  cases call with
  | none => exact ⟨_, isHandler_next b, otherInterrupt_none seen hh⟩
  | some i => exact ⟨_, isHandler_callAs b i, otherInterrupt_some i seen hh⟩

/-- R295: a handler that changes nothing only wakes the main loop. -/
theorem leaveHandler_enterHandler {s : State} {b : BoardId} (hh : (s.board b).inHandler = false) (seen : Bool) :
    leaveHandler b seen (enterHandler b s) = s.setTask b ((s.board b).task.wake seen) := by
  simp [leaveHandler, enterHandler, State.setTask, ← hh]

/-- R295: after a handler none is open. -/
theorem takeInterrupt_inHandler {b : BoardId} {seen : Bool} {k : State → Result} {s t : State}
    (h : takeInterrupt b seen k s = .next t) : (t.board b).inHandler = false := by
  obtain ⟨v, -, h⟩ := andThen_eq_next.mp h
  cases h
  simp [leaveHandler]

/-- R149, R295: to what a board's main loop is in, a handler of the board is a wake event and nothing else. -/
theorem takeInterrupt_wakes {b : BoardId} {seen : Bool} {k : State → Result} {s t : State} (hk : IsHandler b k)
    (h : takeInterrupt b seen k s = .next t) : (t.board b).task = (s.board b).task.wake seen := by
  obtain ⟨-, htask⟩ := takeInterrupt_kept (c := b) h hk
  exact htask.trans (if_pos rfl)

/-! ## Handlers as steps -/

/-- R294: a handler that calls nothing only wakes the main loop. -/
theorem step_otherInterrupt_none {s : State} {b : BoardId} {seen : Bool} {rest : List Event}
    (hs : s.schedule = .otherInterrupt b none seen :: rest) (hh : (s.board b).inHandler = false) :
    step s = .next (({ s with schedule := rest } : State).setTask b ((s.board b).task.wake seen)) :=
  calc step s
    _ = otherInterrupt b none seen { s with schedule := rest } := step_of_schedule hs
    _ = takeInterrupt b seen .next { s with schedule := rest } :=
      otherInterrupt_none (s := { s with schedule := rest }) seen hh
    _ = .next (({ s with schedule := rest } : State).setTask b ((s.board b).task.wake seen)) :=
      congrArg Host.Outcome.next (leaveHandler_enterHandler (s := { s with schedule := rest }) hh seen)

/-- R293, R294: an event that runs a handler takes an interrupt. -/
theorem step_runsHandler {s : State} {b : BoardId} {seen : Bool} {e : Event} {rest : List Event}
    (hh : (s.board b).inHandler = false) (he : RunsHandler s b seen e) (hs : s.schedule = e :: rest) :
    ∃ k, IsHandler b k ∧ step s = takeInterrupt b seen k { s with schedule := rest } := by
  rw [step_of_schedule hs]
  rcases he with ⟨call, rfl⟩ | ⟨d, w, rfl, hdir, hdev, hirq, hr⟩
  · exact otherInterrupt_takes (s := { s with schedule := rest }) call seen hh
  · exact ⟨_, isHandler_exec rfl,
      readyInterrupt_of_pending (s := { s with schedule := rest }) seen hh hdir hdev hirq hr⟩

/-- R147: a handler that calls `try_write` on an existing engine completes. -/
theorem takeInterrupt_tryWrite {s : State} {b : BoardId} {d : Dir} (seen : Bool) (hdir : s.hasDir b d = true) :
    takeInterrupt b seen (exec (.txTryWrite b d)) s =
      .next (leaveHandler b seen (kickEngine b d (enterHandler b s))) := by
  have hdir' : (enterHandler b s).hasDir b d = true := (State.setBoard_hasDir s b b _ d).trans hdir
  simp only [takeInterrupt, exec_kick_of hdir' (i := .txTryWrite b d) (by simp), andThen_next]

/-- Settles O13: the main loop's own steps, a handler that calls nothing, any handler, and the calls of `try_write`. -/
theorem suspendedContextsWakeOnInterrupts : Obligations.SuspendedContextsWakeOnInterrupts := by
  intro s b d rem who rest seen hh
  refine ⟨fun hs => ⟨fun ht => ?_, fun ht => ?_, ?_⟩, fun hs => ?_, fun e t he hs hstep => ?_, fun e f hdir he hs => ?_⟩
  · rw [step_mainLoop_blocking hs hh (.inl ⟨rem, who, ht⟩)]
    exact congrArg _ (continueTask_write_suspending (s := { s with schedule := rest }) ht)
  · rw [step_mainLoop_blocking hs hh (.inr ht)]
    exact congrArg _ (continueTask_flush_suspending (s := { s with schedule := rest }) ht)
  · rintro (ht | ht)
    · rw [step_mainLoop_blocking hs hh (.inl ⟨rem, who, ht⟩)]
      exact congrArg _ (continueTask_write_waiting (s := { s with schedule := rest }) ht)
    · rw [step_mainLoop_blocking hs hh (.inr ht)]
      exact congrArg _ (continueTask_flush_waiting (s := { s with schedule := rest }) ht)
  · rw [step_otherInterrupt_none hs hh]
    refine ⟨?_, ?_, ?_, ?_⟩ <;> intro ht <;> rw [ht] <;> rfl
  · obtain ⟨k, hk, htakes⟩ := step_runsHandler hh he hs
    have hint := htakes.symm.trans hstep
    have htask : (t.board b).task = (s.board b).task.wake seen :=
      takeInterrupt_wakes (s := { s with schedule := rest }) hk hint
    rw [htask]
    refine ⟨takeInterrupt_inHandler hint, ?_, ?_, ?_, ?_⟩ <;> intro ht <;> rw [ht] <;> rfl
  · rw [step_of_schedule hs]
    have htry := takeInterrupt_tryWrite (s := { s with schedule := rest }) seen hdir
    rcases he with rfl | rfl
    · rcases readyInterrupt_cases (s := { s with schedule := rest }) b f seen with h | h
      · exact ⟨_, h⟩
      · exact ⟨_, h.trans htry⟩
    · have hcall : callAs (.board b) (.txTryWrite b f) = exec (.txTryWrite b f) :=
        funext (callAs_of (by simp) (.inl rfl))
      have hother := otherInterrupt_some (s := { s with schedule := rest }) (.txTryWrite b f) seen hh
      exact ⟨_, hother.trans (hcall ▸ htry)⟩

/-! ## The ready interrupt hands over bytes -/

/-- R294, R295: a handler that runs one `kick` changes the engine, wakes the main loop and returns the result. -/
theorem leaveHandler_kickEngine {s : State} {b : BoardId} (d : Dir) (hh : (s.board b).inHandler = false)
    (seen : Bool) :
    leaveHandler b seen (kickEngine b d (enterHandler b s)) =
      { s.setBoard b { s.board b with
          tx := (s.board b).tx.set d (s.engine b d).kick.1
          task := (s.board b).task.wake seen } with ret := some (.result (s.engine b d).kick.2) } := by
  have he : (enterHandler b s).engine b d = s.engine b d := by rw [enterHandler, engine_setBoard (by rfl)]
  have hreturns : ∀ (u : State) (r : Ret) (x : Board), (u.returns r).setBoard b x = (u.setBoard b x).returns r :=
    fun _ _ _ => rfl
  rw [kickEngine, he]
  simp only [leaveHandler, hreturns, State.returns_board, State.setEngine, enterHandler,
    State.board_setBoard_same, State.setBoard_setBoard, ← hh]
  rfl

/-- R145, R294: the ready interrupt, when it is pending, is one `kick`, and wakes the main loop. -/
theorem step_readyInterrupt_became {s : State} {b : BoardId} {d : Dir} {w : Device} {seen : Bool} {rest : List Event}
    (hs : s.schedule = .readyInterrupt b d seen :: rest) (hh : (s.board b).inHandler = false)
    (hdir : s.hasDir b d = true) (hwf : (s.engine b d).rb.Wf) (hdev : (s.engine b d).dev = some w)
    (hirq : (s.engine b d).irqEn = true) (hr : w.ready = true) :
    ∃ t, step s = .next t ∧
      EngineBecame b d { s with schedule := rest } t (kickTable (s.engine b d).rb.contents (s.engine b d).irqEn w).1
        (kickTable (s.engine b d).rb.contents (s.engine b d).irqEn w).2.1
        (kickTable (s.engine b d).rb.contents (s.engine b d).irqEn w).2.2.1 ((s.board b).task.wake seen)
        (s.board b).log
        (some (.result (kickTable (s.engine b d).rb.contents (s.engine b d).irqEn w).2.2.2)) := by
  refine ⟨leaveHandler b seen (kickEngine b d (enterHandler b { s with schedule := rest })), ?_, ?_⟩
  · calc step s
      _ = readyInterrupt b d seen { s with schedule := rest } := step_of_schedule hs
      _ = takeInterrupt b seen (exec (.txTryWrite b d)) { s with schedule := rest } :=
        readyInterrupt_of_pending (s := { s with schedule := rest }) seen hh hdir hdev hirq hr
      _ = .next (leaveHandler b seen (kickEngine b d (enterHandler b { s with schedule := rest }))) :=
        takeInterrupt_tryWrite seen hdir
  · obtain ⟨hq, hwf', hcap, hirq', hdev', hres⟩ := Txe.kick_table hwf hdev
    refine engineBecame_of (e := (s.engine b d).kick.1) ?_ hq hwf' hcap hirq' hdev'
    rw [leaveHandler_kickEngine (s := { s with schedule := rest }) d hh seen, ← hres]
    rfl

/-- R144: `kick` on a ring with bytes and a ready device that answers no error. -/
theorem kickTable_of_ready {x : Byte} {q : List Byte} {irqEn : Bool} {w : Device} (hr : w.ready = true)
    (ha : ∀ e, w.answers.head? ≠ some (some e)) :
    kickTable (x :: q) irqEn w = (q, !q.isEmpty, ⟨false, w.out ++ [x], w.answers.tail⟩, .ok) := by
  rcases hw : w.answers with _ | ⟨_ | e, as⟩
  · simp [kickTable, hw, hr]
  · simp [kickTable, hw, hr]
  · exact absurd (by simp [hw]) (ha e)

/-- Settles O15. -/
theorem readyInterruptSendsTheOldestByte : Obligations.ReadyInterruptSendsTheOldestByte := by
  intro s b d w x q rest hs hh hdir hwf hdev hirq hr ha hq
  have h := step_readyInterrupt_became hs hh hdir hwf hdev hirq hr
  rw [hq, kickTable_of_ready hr ha] at h
  exact h

/-! ## Rounds of interrupt and completion -/

section
variable {b : BoardId} {d : Dir} {s t : State} {q : List Byte} {irqEn : Bool} {w : Device} {task : Task}
  {log : List BoardLog} {ret : Option Ret}

theorem EngineBecame.schedule (h : EngineBecame b d s t q irqEn w task log ret) : t.schedule = s.schedule := by
  rw [h.frame]
  rfl

theorem EngineBecame.hasDir (h : EngineBecame b d s t q irqEn w task log ret) (c : BoardId) (e : Dir) :
    t.hasDir c e = s.hasDir c e := by
  rw [h.frame]
  cases e <;> rfl

theorem EngineBecame.inHandler (h : EngineBecame b d s t q irqEn w task log ret) :
    (t.board b).inHandler = (s.board b).inHandler := by
  rw [h.frame]
  show ((s.setBoard b _).board b).inHandler = _
  rw [State.board_setBoard_same]

end

/-- R153: an engine that interrupts alone will drain: the ring holds `q`, and the device, which has accepted `out`, is
ready with no answers waiting. -/
structure Draining (s : State) (b : BoardId) (d : Dir) (q out : List Byte) : Prop where
  outside : (s.board b).inHandler = false
  hasDir : s.hasDir b d = true
  wf : (s.engine b d).rb.Wf
  contents : (s.engine b d).rb.contents = q
  irq : (s.engine b d).irqEn = !q.isEmpty
  dev : (s.engine b d).dev = some ⟨true, out, []⟩

/-- R301: the device's completion, as a step. -/
theorem step_devComplete {s : State} {b : BoardId} {d : Dir} {w : Device} {rest : List Event}
    (hs : s.schedule = .devComplete b d :: rest) (hdev : (s.engine b d).dev = some w) :
    step s = .next (({ s with schedule := rest } : State).setEngine b d
      { s.engine b d with dev := some { w with ready := true } }) := by
  have hdev' : (State.engine { s with schedule := rest } b d).dev = some w := hdev
  rw [step_of_schedule hs, runEvent, devComplete, mapDevice, hdev']
  rfl

/-- R145, R153: one round hands the oldest byte to the device and leaves it ready again. -/
theorem Draining.round {s : State} {b : BoardId} {d : Dir} {seen : Bool} {x : Byte} {q out : List Byte}
    {rest : List Event} (h : Draining s b d (x :: q) out)
    (hs : s.schedule = .readyInterrupt b d seen :: .devComplete b d :: rest) :
    ∃ t u, step s = .next t ∧ step t = .next u ∧ u.schedule = rest ∧ Draining u b d q (out ++ [x]) := by
  obtain ⟨t, hst, hbecame⟩ := step_readyInterrupt_became hs h.outside h.hasDir h.wf h.dev h.irq rfl
  rw [h.contents, kickTable_of_ready rfl (by simp)] at hbecame
  refine ⟨t, _, hst, step_devComplete hbecame.schedule hbecame.dev, rfl, ?_⟩
  exact {
    outside := by rw [State.setEngine_inHandler]; exact hbecame.inHandler.trans h.outside
    hasDir := by rw [State.setEngine_hasDir]; exact (hbecame.hasDir b d).trans h.hasDir
    wf := by rw [State.engine_setEngine_same]; exact hbecame.wf
    contents := by rw [State.engine_setEngine_same]; exact hbecame.contents
    irq := by rw [State.engine_setEngine_same]; exact hbecame.irq
    dev := by rw [State.engine_setEngine_same]; rfl }

/-- R153: a round for each byte drains the ring. -/
theorem Draining.run {s : State} {b : BoardId} {d : Dir} {seen : Bool} {q out : List Byte} (h : Draining s b d q out)
    (hs : s.schedule = (List.replicate q.length [Event.readyInterrupt b d seen, Event.devComplete b d]).flatten) :
    ∃ t, core.run s.schedule.length s = .next t ∧ Draining t b d [] (out ++ q) := by
  induction q generalizing s out with
  | nil =>
    refine ⟨s, ?_, by rwa [List.append_nil]⟩
    rw [hs]
    exact core_run_zero s
  | cons x q ih =>
    rw [List.length_cons, List.replicate_succ, List.flatten_cons] at hs
    obtain ⟨t, u, hst, htu, hu, hround⟩ := h.round hs
    obtain ⟨v, hrun, hv⟩ := ih hround hu
    refine ⟨v, ?_, by rwa [List.append_assoc] at hv⟩
    rw [hu] at hrun
    rw [hs]
    exact (core_run_succ _ hst).trans ((core_run_succ _ htu).trans hrun)

/-- Settles O18, by induction on the ring's contents. -/
theorem interruptsDrainTheRing : Obligations.InterruptsDrainTheRing := by
  intro s b d w seen hh hdir hwf hdev harmed hr ha hs
  have hstart : Draining s b d (s.engine b d).rb.contents w.out := {
    outside := hh
    hasDir := hdir
    wf := hwf
    contents := rfl
    irq := (harmed (by simp [hdev])).trans (congrArg _ (Ring.isEmpty_eq hwf))
    dev := by rw [hdev, ← hr, ← ha] }
  obtain ⟨t, hrun, ht⟩ := hstart.run hs
  exact ⟨t, hrun, ht.contents, ht.irq, ht.dev⟩

end Sys2Proof.Machine

/-! # Proofs: no step loses, reorders or invents a byte (R62, R64, R145, R154) -/

namespace Sys2Proof.Machine

/-! ## The device and the ring together -/

/-- R154: a call hands a device at most one byte, behind those it has accepted. -/
def AcceptsAtMostOne (w w' : Device) : Prop := w'.out = w.out ∨ ∃ x, w'.out = w.out ++ [x]

/-- R144, R154: the table of `kick` moves at most the oldest byte, from the ring to the device. -/
theorem kickTable_pipeline (q : List Byte) (irqEn : Bool) (w : Device) :
    (kickTable q irqEn w).2.2.1.out ++ (kickTable q irqEn w).1 = w.out ++ q ∧
      AcceptsAtMostOne w (kickTable q irqEn w).2.2.1 := by
  cases q with
  | nil => exact ⟨rfl, .inl rfl⟩
  | cons x rest =>
    rcases ha : w.answers with _ | ⟨_ | e, as⟩
    · cases hr : w.ready <;> simp [kickTable, ha, hr, AcceptsAtMostOne]
    · cases hr : w.ready <;> simp [kickTable, ha, hr, AcceptsAtMostOne]
    · simp [kickTable, ha, AcceptsAtMostOne]

/-- R301: asking the device to flush accepts nothing. -/
theorem deviceFlush_out (w : Device) : (deviceFlush w).2.out = w.out := by
  rcases ha : w.answers with _ | ⟨_ | e, as⟩
  · simp only [deviceFlush, deviceNextAnswer, ha]; split <;> rfl
  · simp only [deviceFlush, deviceNextAnswer, ha]; split <;> rfl
  · simp only [deviceFlush, deviceNextAnswer, ha]

/-- R154: the engine `u` holds the bytes of `t`, whose device is `w`, and then a head of the bytes offered; its device
accepted at most one of them. -/
def Txe.Carries (offer : List Byte) (t : Txe) (w : Device) (u : Txe) : Prop :=
  ∃ w', u.dev = some w' ∧
    (∃ more, more <+: offer ∧ u.pipeline w' = t.pipeline w ++ more) ∧ AcceptsAtMostOne w w'

/-- An engine with the same ring whose device has accepted the same bytes. -/
theorem Txe.Carries.of_same {offer : List Byte} {t u : Txe} {w w' : Device} (hd : u.dev = some w') (hr : u.rb = t.rb)
    (ho : w'.out = w.out) : t.Carries offer w u :=
  ⟨w', hd, ⟨[], List.nil_prefix, by simp [pipeline, hr, ho]⟩, .inl ho⟩

/-- R143, R154: `kick`, after bytes were stored behind those in the ring. -/
theorem Txe.Carries.of_kick {offer more : List Byte} {t u : Txe} {w : Device} (hr : u.rb.Wf) (hd : u.dev = some w)
    (hq : u.rb.contents = t.rb.contents ++ more) (hm : more <+: offer) : t.Carries offer w u.kick.1 := by
  obtain ⟨hq', -, -, -, hd', -⟩ := Txe.kick_table hr hd
  obtain ⟨hpipe, hone⟩ := kickTable_pipeline u.rb.contents u.irqEn w
  refine ⟨_, hd', ⟨more, hm, ?_⟩, hone⟩
  rw [pipeline, hq', hpipe, hq, pipeline, List.append_assoc]

/-- R154: what an operation's move does to the bytes. -/
theorem EngineMove.carries {offer : List Byte} {t u : Txe} {w : Device} (h : EngineMove offer t u) (hr : t.rb.Wf)
    (hd : t.dev = some w) : t.Carries offer w u := by
  cases h with
  | same => exact .of_same hd rfl rfl
  | setDevice w' hn => cases hn.symm.trans hd
  | kick => exact .of_kick hr hd (List.append_nil _).symm List.nil_prefix
  | pass =>
    exact .of_kick (u := { t with rb := (t.rb.addAll offer).1 }) (Ring.addAll_wf hr offer) hd
      (Ring.addAll_contents hr offer) (List.take_prefix _ _)
  | asked w' hd' _ =>
    cases hd'.symm.trans hd
    exact .of_same rfl rfl (deviceFlush_out w)

/-- Settles O17: of every engine, by what a step can do to it. -/
theorem engineBytesLeaveInOrder : Obligations.EngineBytesLeaveInOrder := by
  intro s t b d w hs h hd
  have ⟨hr, _, _⟩ := (hs.board b).engine_wf d
  have hcases : (s.engine b d).Carries (stepWrites s b d) w (t.engine b d) ∨
      ∃ w' x, (t.engine b d).dev = some w' ∧ w.out = x :: w'.out ∧ (t.engine b d).rb = (s.engine b d).rb ∧
        (t.board b).line.get d = (s.board b).line.get d ++ [x] := by
    cases step_engine (fun c => (hs.board c).taskWf) h b d with
    | moved hm => exact .inl (hm.carries hr hd)
    | completed w₀ hd₀ ht =>
      cases hd₀.symm.trans hd
      exact .inl (.of_same (congrArg Txe.dev ht) (by rw [ht]) rfl)
    | answered w₀ a hd₀ ht =>
      cases hd₀.symm.trans hd
      exact .inl (.of_same (congrArg Txe.dev ht) (by rw [ht]) rfl)
    | emitted w₀ x xs hd₀ hout ht hline =>
      cases hd₀.symm.trans hd
      exact .inr ⟨_, x, congrArg Txe.dev ht, hout, by rw [ht], hline⟩
  rcases hcases with ⟨w', hd', ⟨more, hm, hpipe⟩, hone⟩ | ⟨w', x, hd', hout, hrb, hline⟩
  · exact ⟨w', hd', .inl ⟨more, hm, hpipe, hone⟩⟩
  · exact ⟨w', hd', .inr ⟨x, hout, congrArg Ring.contents hrb, hline⟩⟩

end Sys2Proof.Machine

/-! # Proofs: a device that stays not ready blocks `write` and `flush` (R153, R334) -/

namespace Sys2Proof.Machine

/-! ## An engine whose device is stalled -/

/-- R153: the device is not ready and has no answers waiting. -/
def Txe.Stalled (t : Txe) : Prop := ∃ w, t.dev = some w ∧ w.ready = false ∧ w.answers = []

/-- R301: a stalled device takes no byte. -/
theorem deviceWriteByte_of_stalled {w : Device} (hr : w.ready = false) (ha : w.answers = []) (x : Byte) :
    deviceWriteByte w x = (.wouldBlock, w) := by
  simp [deviceWriteByte, deviceNextAnswer, hr, ha]

/-- R301: nor has it drained. -/
theorem deviceFlush_of_stalled {w : Device} (hr : w.ready = false) (ha : w.answers = []) :
    deviceFlush w = (.wouldBlock, w) := by
  simp [deviceFlush, deviceNextAnswer, hr, ha]

/-- R143: `kick` with a stalled device only sets the interrupt enable. -/
theorem Txe.kick_of_stalled {t : Txe} (h : t.Stalled) : t.kick = (t.rearm, .ok) := by
  obtain ⟨w, hd, hr, ha⟩ := h
  cases hp : t.rb.peek with
  | none => simp only [kick, hd, hp]
  | some x =>
    have hsame : ({ t with dev := some w } : Txe) = t := by rw [← hd]
    simp only [kick, hd, hp, deviceWriteByte_of_stalled hr ha, hsame]

/-- R153: from `t` to `u` a stalled device stays stalled, and then a full ring stays as it is. -/
def Txe.StaysStalled (t u : Txe) : Prop := t.Stalled → u.Stalled ∧ (t.rb.length = t.rb.cap → u.rb = t.rb)

theorem Txe.StaysStalled.refl (t : Txe) : t.StaysStalled t := fun h => ⟨h, fun _ => rfl⟩

theorem Txe.StaysStalled.trans {t u v : Txe} (h : t.StaysStalled u) (k : u.StaysStalled v) : t.StaysStalled v := by
  intro hst
  obtain ⟨hu, hkeep⟩ := h hst
  obtain ⟨hv, hkeep'⟩ := k hu
  exact ⟨hv, fun hfull => (hkeep' (hkeep hfull ▸ hfull)).trans (hkeep hfull)⟩

/-- No operation's move makes a stalled device ready, nor a full ring another. -/
theorem EngineMove.staysStalled {offer : List Byte} {t u : Txe} (h : EngineMove offer t u) : t.StaysStalled u := by
  intro hst
  cases h with
  | same => exact ⟨hst, fun _ => rfl⟩
  | setDevice w hn =>
    obtain ⟨w', hd, -⟩ := hst
    cases hn.symm.trans hd
  | kick =>
    rw [Txe.kick_of_stalled hst]
    exact ⟨hst, fun _ => rfl⟩
  | pass =>
    have hst' : ({ t with rb := (t.rb.addAll offer).1 } : Txe).Stalled := hst
    rw [Txe.kick_of_stalled hst']
    exact ⟨hst, fun hfull => congrArg Prod.fst (Ring.addAll_of_ge hfull.ge offer)⟩
  | asked w hd _ =>
    obtain ⟨w', hd', hr, ha⟩ := hst
    cases hd'.symm.trans hd
    rw [deviceFlush_of_stalled hr ha]
    exact ⟨⟨w, rfl, hr, ha⟩, fun _ => rfl⟩

/-! ## A blocking operation that stays in progress -/

/-- R149: `k'` is the blocking operation `k` is, with the same bytes left, in whatever phase. -/
def Task.StaysIn (k k' : Task) : Prop :=
  (∀ d rem ph who, k = .write d rem ph who → ∃ ph', k' = .write d rem ph' who) ∧
    ∀ d ph, k = .flush d ph → ∃ ph', k' = .flush d ph'

theorem Task.StaysIn.refl (k : Task) : k.StaysIn k := ⟨fun _ _ ph _ h => ⟨ph, h⟩, fun _ ph h => ⟨ph, h⟩⟩

theorem Task.StaysIn.trans {k l m : Task} (h : k.StaysIn l) (h' : l.StaysIn m) : k.StaysIn m := by
  refine ⟨fun d rem ph who hk => ?_, fun d ph hk => ?_⟩
  · obtain ⟨ph', hl⟩ := h.1 d rem ph who hk
    exact h'.1 d rem ph' who hl
  · obtain ⟨ph', hl⟩ := h.2 d ph hk
    exact h'.2 d ph' hl

theorem Task.StaysIn.of_idle {k k' : Task} (h : k = .idle) : k.StaysIn k' := by
  subst h
  exact ⟨fun _ _ _ _ h => (nomatch h), fun _ _ h => (nomatch h)⟩

theorem Task.StaysIn.wake (k : Task) (seen : Bool) : k.StaysIn (k.wake seen) :=
  ⟨fun _ _ ph _ h => ⟨ph.wake seen, by rw [h]; rfl⟩, fun _ ph h => ⟨ph.wake seen, by rw [h]; rfl⟩⟩

/-! ## The steps of the main loop that is in the operation -/

section
variable {s : State} {b : BoardId} {d : Dir}

/-- R146: a pass that meets a full ring and a stalled device stores nothing and suspends. -/
theorem writePass_of_stalled {rem : List Byte} {who : Caller} (hst : (s.engine b d).Stalled)
    (hfull : (s.engine b d).rb.length = (s.engine b d).rb.cap) (hrem : rem ≠ []) :
    ((writePass b d rem who s).board b).task = .write d rem .suspending who := by
  simp only [writePass, Ring.addAll_of_ge hfull.ge, Txe.kick_of_stalled hst, List.drop_zero, if_neg hrem, if_true]
  exact State.setTask_task _ _ _

/-- R150: a test that meets a stalled device suspends. -/
theorem flushTest_of_stalled (hst : (s.engine b d).Stalled) :
    ((flushTest b d s).board b).task = .flush d .suspending := by
  obtain ⟨w, hd, hr, ha⟩ := hst
  simp only [flushTest, hd, deviceFlush_of_stalled hr ha]
  split <;> exact State.setTask_task _ _ _

theorem continueTask_write_of_stalled {rem : List Byte} {ph : Phase} {who : Caller}
    (ht : (s.board b).task = .write d rem ph who) (hst : (s.engine b d).Stalled)
    (hfull : (s.engine b d).rb.length = (s.engine b d).rb.cap) (hrem : rem ≠ []) :
    ∃ ph', ((continueTask b s).board b).task = .write d rem ph' who := by
  cases ph with
  | running => exact ⟨_, by rw [continueTask_write_running ht]; exact writePass_of_stalled hst hfull hrem⟩
  | suspending => exact ⟨_, by rw [continueTask_write_suspending ht]; exact State.setTask_task _ _ _⟩
  | waiting => exact ⟨_, by rw [continueTask_write_waiting ht]; exact ht⟩

theorem continueTask_flush_of_stalled {ph : Phase} (ht : (s.board b).task = .flush d ph)
    (hst : (s.engine b d).Stalled) : ∃ ph', ((continueTask b s).board b).task = .flush d ph' := by
  cases ph with
  | running => exact ⟨_, by rw [continueTask_flush_running ht]; exact flushTest_of_stalled hst⟩
  | suspending => exact ⟨_, by rw [continueTask_flush_suspending ht]; exact State.setTask_task _ _ _⟩
  | waiting => exact ⟨_, by rw [continueTask_flush_waiting ht]; exact ht⟩

end

/-! ## The steps of every other agent -/

/-- R153: what a step of another agent leaves of an engine with a stalled device and of what its board's main loop is
in. -/
structure LeavesStalled (b : BoardId) (d : Dir) (s t : State) : Prop where
  engine : (s.engine b d).StaysStalled (t.engine b d)
  task : (s.board b).task.StaysIn (t.board b).task

section
variable {s t : State} {b : BoardId} {d : Dir}

theorem LeavesStalled.of_boards (h : t.boards = s.boards) : LeavesStalled b d s t := by
  have hb : t.board b = s.board b := by rw [State.board, h, State.board]
  refine ⟨?_, ?_⟩
  · rw [State.engine, State.engine, hb]
    exact .refl _
  · rw [hb]
    exact .refl _

theorem LeavesStalled.refl (s : State) : LeavesStalled b d s s := .of_boards rfl

theorem LeavesStalled.trans {u : State} (h : LeavesStalled b d s t) (k : LeavesStalled b d t u) :
    LeavesStalled b d s u :=
  ⟨h.engine.trans k.engine, h.task.trans k.task⟩

theorem LeavesStalled.of_setBoard {c : BoardId} {x : Board} (htx : x.tx = (s.board c).tx)
    (hk : (s.board c).task.StaysIn x.task) : LeavesStalled b d s (s.setBoard c x) := by
  refine ⟨?_, ?_⟩
  · rw [engine_setBoard htx]
    exact .refl _
  · rw [State.board_setBoard]
    split
    · rename_i hbc
      exact hbc ▸ hk
    · exact .refl _

theorem LeavesStalled.of_setEngine {c : BoardId} {e : Dir} {t : Txe}
    (h : c = b → e = d → (s.engine b d).StaysStalled t) : LeavesStalled b d s (s.setEngine c e t) := by
  refine ⟨?_, ?_⟩
  · rw [State.engine_setEngine]
    split
    · rename_i hbc
      exact h hbc.1.symm hbc.2.symm
    · exact .refl _
  · rw [State.setEngine_task]
    exact .refl _

/-- R301: a device's own step, on another engine. -/
theorem mapDevice_leavesStalled {c : BoardId} {e : Dir} (f : Device → Device) (h : ¬(c = b ∧ e = d)) :
    LeavesStalled b d s (mapDevice c e f s) := by
  unfold mapDevice
  split
  · exact .refl s
  · exact .of_setEngine fun hc he => absurd ⟨hc, he⟩ h

/-- R301: a byte that leaves a device. -/
theorem devEmit_leavesStalled (c : BoardId) (e : Dir) : LeavesStalled b d s (devEmit c e s) := by
  unfold devEmit
  split
  · exact .refl s
  · rename_i w hw
    split
    · exact .refl s
    · rename_i x xs hout
      have hset : LeavesStalled b d s
          (s.setEngine c e { s.engine c e with dev := some { w with out := xs } }) := .of_setEngine fun hc he => by
        subst hc he
        rintro ⟨w', hw', hr, ha⟩
        cases hw'.symm.trans hw
        exact ⟨⟨_, rfl, hr, ha⟩, fun _ => rfl⟩
      exact hset.trans (.of_setBoard rfl (.refl _))

theorem setLine_leavesStalled (l : LinkId) (bs : List Byte) : LeavesStalled b d s (setLine l bs s) := by
  cases l with
  | fromPort p => exact .of_boards rfl
  | fromEngine c e => exact .of_setBoard rfl (.refl _)

theorem wireDeliver_leavesStalled (l : LinkId) : LeavesStalled b d s (wireDeliver l s) := by
  unfold wireDeliver
  split
  · exact .refl s
  · split
    · exact setLine_leavesStalled l _
    · rename_i xs _ _ r _
      refine (setLine_leavesStalled l xs).trans ?_
      cases r with
      | port p => exact .of_boards rfl
      | path c e => exact .of_setBoard rfl (.refl _)

/-- R216: a main loop that takes a byte is free. -/
theorem receiveByte_leavesStalled (c : BoardId) (e : Dir) : LeavesStalled b d s (receiveByte c e s) := by
  unfold receiveByte
  split
  · rename_i hfree
    have hidle : (s.board c).task = .idle := by simp_all [State.mainLoopFree]
    split
    · exact .refl s
    · simp only [ingest, State.setAcc, State.setBoardAcc, State.setTask, State.board_setBoard_same,
        State.setBoard_setBoard]
      exact .of_setBoard (by rfl) (.of_idle hidle)
  · exact .refl s

theorem readFault_leavesStalled (c : BoardId) (e : Dir) (k : ErrKind) : LeavesStalled b d s (readFault c e k s) := by
  unfold readFault
  split
  · simp only [State.setBoardAcc, State.boardLog, State.board_setBoard_same, State.setBoard_setBoard]
    exact .of_setBoard (by rfl) (.refl _)
  · exact .refl s

/-- R149, R294: a handler, of this board or the other, runs no pass of a `write` and at most wakes what is in
progress. -/
theorem takeInterrupt_leavesStalled {c : BoardId} {seen : Bool} {k : State → Result} (hk : IsHandler c k)
    (h : takeInterrupt c seen k s = .next t) : LeavesStalled b d s t := by
  refine ⟨(takeInterrupt_engine h hk b d).staysStalled, ?_⟩
  rw [(takeInterrupt_kept (c := b) h hk).2]
  split
  · exact .wake _ seen
  · exact .refl _

/-- R61, R304: what the other board's main loop goes on with leaves this board. -/
theorem continueTask_other {c : BoardId} (hwf : s.TaskWf c) (hc : b ≠ c) : (continueTask c s).board b = s.board b := by
  have htask : ∀ k, (s.setTask c k).board b = s.board b := fun k =>
    (State.board_setBoard s c b _).trans (if_neg hc)
  unfold continueTask
  unfold State.TaskWf at hwf
  split <;> rename_i hk <;> simp only [hk] at hwf
  · rfl
  · rfl
  · rfl
  · exact (writePass_moved (offer := fun _ => _) rfl hwf.1 hwf.2.1).other hc
  · exact htask _
  · rfl
  · exact (flushTest_moved (offer := fun _ => []) hwf.1 hwf.2).other hc
  · exact htask _
  · rfl

/-- R25: a step of the other board's main loop leaves what this board's is in. -/
theorem mainLoopStep_staysIn {c : BoardId} (hwf : s.TaskWf c) (hc : b ≠ c) (h : mainLoopStep c s = .next t) :
    (s.board b).task.StaysIn (t.board b).task := by
  by_cases hidle : (s.board b).task = .idle
  · exact .of_idle hidle
  suffices hsame : (t.board b).task = (s.board b).task by
    rw [hsame]
    exact .refl _
  have busy : ∀ {i : Instr} {u : State}, exec i u = .next t → u.board b = s.board b →
      (t.board b).task = (s.board b).task := fun {i u} he hu => by
    have hf : ¬u.Free b := fun hf => hidle (hu ▸ hf.2)
    exact (exec_busy he hf).1.trans (congrArg Board.task hu)
  have other : ∀ x, (s.setBoard c x).board b = s.board b := fun x =>
    (State.board_setBoard s c b x).trans (if_neg hc)
  unfold mainLoopStep at h
  split at h
  · cases h; rfl
  · split at h
    · split at h
      · cases h; rfl
      · exact busy (callAs_next h).1 (other _)
    · cases h
      rw [resolveAtBoard, State.setTask, State.setBoardAcc, State.setBoard_setBoard, other]
    · rcases settle_cases h with ⟨v, n, -, he⟩ | ⟨rx, log, rfl⟩
      · exact busy he (other _)
      · exact congrArg Board.task (other _)
    · cases h; rw [continueTask_other hwf hc]
    · cases h; rw [continueTask_other hwf hc]

end

/-- R153: every step but the board's own main loop's, the device's completion and an answer it is given. -/
theorem step_leavesStalled {s t : State} {b : BoardId} {d : Dir} {e : Event} {rest : List Event}
    (hwf : ∀ c, s.TaskWf c) (hh : ∀ c, (s.board c).inHandler = false) (hs : s.schedule = e :: rest)
    (hml : e ≠ .mainLoop b) (hcomplete : e ≠ .devComplete b d) (hanswer : ∀ a, e ≠ .devAnswer b d a)
    (h : step s = .next t) : LeavesStalled b d s t := by
  have hrun := (step_of_schedule hs).symm.trans h
  have used : ∀ {u : State}, LeavesStalled b d { s with schedule := rest } u → LeavesStalled b d s u :=
    fun hu => ⟨hu.engine, hu.task⟩
  refine used ?_
  cases e <;> simp only [runEvent] at hrun
  case request c i => cases hrun; exact .of_setBoard rfl (.refl _)
  case mainLoop c =>
    have hc : b ≠ c := fun hc => hml (hc ▸ rfl)
    exact ⟨(mainLoopStep_engine (hwf c) hrun hs b d).staysStalled,
      mainLoopStep_staysIn (s := { s with schedule := rest }) (hwf c) hc hrun⟩
  case receive c e => cases hrun; exact receiveByte_leavesStalled c e
  case readFault c e k => cases hrun; exact readFault_leavesStalled c e _
  case readyInterrupt c e seen =>
    rcases readyInterrupt_cases (s := { s with schedule := rest }) c e seen with hcase | hcase
    · cases hcase.symm.trans hrun; exact .refl _
    · exact takeInterrupt_leavesStalled (isHandler_exec rfl) (hcase.symm.trans hrun)
  case otherInterrupt c call seen =>
    obtain ⟨k, hk, hcase⟩ := otherInterrupt_takes (s := { s with schedule := rest }) call seen (hh c)
    exact takeInterrupt_leavesStalled hk (hcase.symm.trans hrun)
  case devComplete c e =>
    cases hrun
    exact mapDevice_leavesStalled _ fun ⟨hc, he⟩ => hcomplete (by rw [hc, he])
  case devAnswer c e a =>
    cases hrun
    exact mapDevice_leavesStalled _ fun ⟨hc, he⟩ => hanswer a (by rw [hc, he])
  case devEmit c e => cases hrun; exact devEmit_leavesStalled c e
  case wireDeliver l => cases hrun; exact wireDeliver_leavesStalled l
  case wireGlitch l bs => cases hrun; exact setLine_leavesStalled l bs
  case hostLoop i =>
    unfold hostLoopStep at hrun
    split at hrun
    · obtain ⟨he, ho⟩ := callAs_next hrun
      exact .of_boards (exec_boards_of_not_board he ho)
    · cases hrun; exact .refl _
  case hostNext =>
    cases hrun
    obtain ⟨x, r, rx, hx⟩ := hostNextStep_moved { s with schedule := rest }
    exact .of_boards (by rw [hx])
  case portWriteAnswer | portAvailAnswer | portReadAnswer => cases hrun; exact .of_boards rfl

/-- Settles O19: the board's own main loop by itself, and every other agent. -/
theorem stalledDeviceBlocksWriteAndFlush : Obligations.StalledDeviceBlocksWriteAndFlush := by
  intro s t b d w hs hd hr ha hcomplete hanswer h
  have hst : (s.engine b d).Stalled := ⟨w, hd, hr, ha⟩
  have hwf := fun c => (hs.board c).taskWf
  have hh := fun c => (State.boardWf_iff.mp (hs.board c)).inHandler
  cases hsch : s.schedule with
  | nil =>
    have ht : step s = .next s := by simp only [step, hsch]
    cases ht.symm.trans h
    exact ⟨hst, fun _ ph _ hk _ => ⟨rfl, ph, hk⟩, fun ph hk => ⟨ph, hk⟩⟩
  | cons e rest =>
    by_cases hml : e = .mainLoop b
    · subst hml
      have hrun := (step_of_schedule hsch).symm.trans h
      obtain ⟨hst', hkeep⟩ := (mainLoopStep_engine (hwf b) hrun hsch b d).staysStalled hst
      refine ⟨hst', fun rem ph who hk hfull => ⟨hkeep hfull, ?_⟩, fun ph hk => ?_⟩
      · cases (step_mainLoop_blocking hsch (hh b) (.inl ⟨rem, who, hk⟩)).symm.trans h
        have ⟨⟨_, _⟩, hrem⟩ : Task.Wf _ (.write d rem ph who) := hk ▸ State.taskWf_iff.mp (hwf b)
        exact continueTask_write_of_stalled (s := { s with schedule := rest }) hk hst hfull hrem
      · cases (step_mainLoop_blocking hsch (hh b) (.inr hk)).symm.trans h
        exact continueTask_flush_of_stalled (s := { s with schedule := rest }) hk hst
    · rw [hsch] at hcomplete hanswer
      have hleaves := step_leavesStalled (d := d) hwf hh hsch hml (fun he => hcomplete (congrArg some he))
        (fun a he => hanswer a (congrArg some he)) h
      obtain ⟨hst', hkeep⟩ := hleaves.engine hst
      exact ⟨hst', fun rem ph who hk hfull => ⟨hkeep hfull, hleaves.task.1 d rem ph who hk⟩, hleaves.task.2 d⟩

end Sys2Proof.Machine

/-! # Proofs: encode, then parse or decode (R171, R172, R174, R191 to R193, R213) -/

namespace Sys2Proof

/-! ## The instructions that have an encoding -/

theorem Instr.eq_ofVal {i : Instr} {v : Val} (h : i.val? = some v) : i = .ofVal v := by
  cases i <;> cases h <;> rfl

theorem Instr.eq_ofSide {i : Instr} {side : Side} (h : i.side? = some side) : i = .ofSide side := by
  unfold Instr.side? at h
  split_ifs at h with hl hr
  · cases h; exact hl
  · cases h; exact hr

/-- R97: what has an encoding is the wire row of a value or of a side. -/
theorem encode_eq_some {i : Instr} {bs : List Byte} (h : encode i = some bs) :
    (∃ v, i = .ofVal v ∧ bs = encVal v) ∨ ∃ side, i = .ofSide side ∧ bs = [sideTag side] := by
  unfold encode at h
  split at h
  next v hv =>
    cases h
    exact .inl ⟨v, Instr.eq_ofVal hv, rfl⟩
  next =>
    obtain ⟨side, hside, rfl⟩ := Option.map_eq_some_iff.mp h
    exact .inr ⟨side, Instr.eq_ofSide hside, rfl⟩

theorem decode_table (m : Nat) (map : MsgMap) (s : List Byte) : decode m map.table s = decodeMsg m map s := by
  cases map <;> rfl

/-- R81: a side tag decodes to its row, whatever follows. -/
theorem decodeSide_sideTag (side : Side) (tail : List Byte) :
    decodeSide (sideTag side :: tail) = .instr (.ofSide side) 1 := by
  simp only [decodeSide, sideOf_sideTag]

/-- Settles O21: the row is a value's, where the stream parse gives the value back, or a side's. -/
theorem decodeOfEncodeIsTheInstruction : Obligations.DecodeOfEncodeIsTheInstruction := by
  intro m i bs tail map hwf henc hmap
  rcases encode_eq_some henc with ⟨v, rfl, rfl⟩ | ⟨side, rfl, rfl⟩
  · cases (Instr.tableMap?_ofVal v).symm.trans hmap
    rw [decode_table]
    exact decodeMsg_eq_instr.mpr ⟨v, parseBody_encVal (Instr.wf_ofVal.mp hwf) tail, rfl⟩
  · cases (Instr.tableMap?_ofSide side).symm.trans hmap
    exact decodeSide_sideTag side tail

/-! ## The exact decode of an encoding -/

@[simp] theorem exact_incomplete {α : Type} (isLog : α → Bool) (len : Nat) :
    exact isLog len .incomplete = .incomplete := rfl

/-- R172: a parsed value stands if it took the whole string or is a log line. -/
theorem exact_ok {α : Type} (isLog : α → Bool) (len n : Nat) (v : α) :
    exact isLog len (.ok v n) = if n = len ∨ isLog v then .ok v n else .err .trailingBytes none := by
  simp only [exact, ite_or]

/-- R191, R193: the exact decode of an encoding and what follows it. -/
theorem decodeBody_encVal {m : Nat} {v : Val} (h : v.Wf m) (tail : List Byte) :
    decodeBody m v.map (encVal v ++ tail) =
      if tail = [] ∨ v.isLog then .ok v (encVal v).length else .err .trailingBytes none := by
  rw [decodeBody, parseBody_encVal h, exact_ok]
  simp

/-- R191, R193, R213: the same for a directed value. -/
theorem decodeDirected_encDirected {m : Nat} {v : Directed} (h : v.Wf m) (tail : List Byte) :
    decodeDirected m v.val.map (encDirected v ++ tail) =
      if tail = [] ∨ v.val.isLog then .ok v (encDirected v).length else .err .trailingBytes none := by
  rw [decodeDirected, parseDirected_encDirected h, exact_ok]
  simp

/-- Settles O24: the exact decode is incomplete where the stream parse is. -/
theorem truncatedMessagesAreIncomplete : Obligations.TruncatedMessagesAreIncomplete := by
  refine fun m => ⟨fun v k hv hk => ?_, fun v k hv hk => ?_⟩
  · have hp := parseBody_truncated hv hk
    exact ⟨by rw [decodeBody, hp, exact_incomplete], hp⟩
  · have hp := parseDirected_truncated hv hk
    exact ⟨by rw [decodeDirected, hp, exact_incomplete], hp⟩

/-- Settles O25, with the one byte as what follows the encoding. -/
theorem trailingBytesAreAnErrorExceptAfterLogs : Obligations.TrailingBytesAreAnErrorExceptAfterLogs := fun _ x =>
  ⟨fun _ hv => ⟨by simpa using decodeBody_encVal hv [x], parseBody_encVal hv [x]⟩,
    fun _ hv => ⟨by simpa using decodeDirected_encDirected hv [x], parseDirected_encDirected hv [x]⟩⟩

/-- Settles O26: a head with a verdict would have given it to the longer string. -/
theorem parseVerdictsArePrefixStable : Obligations.ParseVerdictsArePrefixStable := fun _ _ _ q =>
  ⟨parseBody_append q, fun h => by_contra fun hp => hp ((parseBody_append q hp).symm.trans h),
    parseDirected_append q, fun h => by_contra fun hp => hp ((parseDirected_append q hp).symm.trans h)⟩

end Sys2Proof

namespace Sys2Proof.Machine

/-! ## The codec's operations -/

/-- R174: `encode` of a well-formed value returns its bytes. -/
theorem exec_codecEncode {v : Val} {s : State} (h : v.Wf s.cfg.logMax) :
    exec (.codecEncode v) s = .next (s.returns (.bytes (encVal v))) :=
  withWf_eq_next.mpr ⟨h, rfl⟩

/-- R210: the same for a directed value. -/
theorem exec_codecEncDirected {v : Directed} {s : State} (h : v.Wf s.cfg.logMax) :
    exec (.codecEncDirected v) s = .next (s.returns (.bytes (encDirected v))) :=
  withWf_eq_next.mpr ⟨h, rfl⟩

/-- R171, R172, R211, R212: each parse and decode operation returns the codec's verdict. -/
theorem exec_codec_verdicts (s : State) (map : MsgMap) (bs : List Byte) :
    exec (.codecParseBody map bs) s = .next (s.returns (.body (parseBody s.cfg.logMax map bs))) ∧
    exec (.codecDecodeBody map bs) s = .next (s.returns (.body (decodeBody s.cfg.logMax map bs))) ∧
    exec (.codecParseDirected map bs) s = .next (s.returns (.directed (parseDirected s.cfg.logMax map bs))) ∧
    exec (.codecDecodeDirected map bs) s = .next (s.returns (.directed (decodeDirected s.cfg.logMax map bs))) :=
  ⟨rfl, rfl, rfl, rfl⟩

/-- Settles O23: the bytes are the value's encoding, with nothing behind it. -/
theorem codecRoundTrips : Obligations.CodecRoundTrips := by
  refine fun s => ⟨exec_codec_verdicts s, fun v hv => ⟨encVal v, exec_codecEncode hv, ?_⟩,
    fun v hv => ⟨encDirected v, exec_codecEncDirected hv, ?_⟩⟩
  · have hparse := parseBody_encVal hv []
    have hdecode := decodeBody_encVal hv []
    rw [List.append_nil] at hparse hdecode
    rw [if_pos (.inl rfl)] at hdecode
    obtain ⟨hexParse, hexDecode, -, -⟩ := exec_codec_verdicts s v.map (encVal v)
    exact ⟨hparse ▸ hexParse, hdecode ▸ hexDecode⟩
  · have hparse := parseDirected_encDirected hv []
    have hdecode := decodeDirected_encDirected hv []
    rw [List.append_nil] at hparse hdecode
    rw [if_pos (.inl rfl)] at hdecode
    obtain ⟨-, -, hexParse, hexDecode⟩ := exec_codec_verdicts s v.val.map (encDirected v)
    exact ⟨hparse ▸ hexParse, hdecode ▸ hexDecode⟩

end Sys2Proof.Machine

/-! # Proofs: the consumed count of each error (R172, R195, R211, R212) -/

namespace Sys2Proof

/-! ## A body -/

theorem isBoolByte_eq_false {b : Byte} : isBoolByte b = false ↔ b ≠ 0x30#8 ∧ b ≠ 0x31#8 := by
  simp [isBoolByte]

/-- R171: a rejected byte is the first field's own, a `BOOL`, or a later field's. -/
theorem scanFields_cons_eq_bad {c : Coding} {cs : List Coding} {s : List Byte} {b : Byte} {n : Nat}
    (h : scanFields (c :: cs) s = .bad b n) :
    (c = .bool ∧ n = 1) ∨ ∃ k, scanFields cs (s.drop c.width) = .bad b k := by
  simp only [scanFields] at h
  split_ifs at h with _ hbool
  · cases h
    exact .inl ⟨hbool.1, rfl⟩
  · split at h
    · cases h
    · cases h
    next k hbad =>
      cases h
      exact .inr ⟨k, hbad⟩

/-- R82: only a `BOOL` field rejects a byte. -/
theorem scanFields_ne_bad {cs : List Coding} (h : .bool ∉ cs) (s : List Byte) (b : Byte) (n : Nat) :
    scanFields cs s ≠ .bad b n := by
  induction cs generalizing s n with
  | nil => exact nofun
  | cons c cs ih =>
    obtain ⟨hc, hcs⟩ := not_or.mp (List.mem_cons.not.mp h)
    intro hbad
    rcases scanFields_cons_eq_bad hbad with ⟨rfl, -⟩ | ⟨k, hbad⟩
    · exact hc rfl
    · exact ih hcs _ k hbad

/-- R195: where only the first field can be a `BOOL`, the rejected byte is the first. -/
theorem eq_one_of_scanFields_bad {cs : List Coding} {s : List Byte} {b : Byte} {n : Nat} (hbool : .bool ∉ cs.tail)
    (h : scanFields cs s = .bad b n) : n = 1 := by
  cases cs with
  | nil => cases h
  | cons c cs =>
    rcases scanFields_cons_eq_bad h with ⟨-, hn⟩ | ⟨k, hbad⟩
    · exact hn
    · exact absurd hbad (scanFields_ne_bad hbool _ b k)

/-- R84: a `BOOL` is the first field of its format. -/
theorem Format.bool_notMem_fields_tail (f : Format) : .bool ∉ f.fields.tail := by cases f <;> decide

/-- R195, R204: a rejected log line is not UTF-8 up to its newline, or too long. -/
theorem parseLog_err {m : Nat} {t : Byte} {p : List Byte} {k : ErrKind} {c : Option Nat}
    (h : parseLog m (t :: p) = .err k c) :
    (∃ i, k = .utf8Error ∧ p[i]? = some newline ∧ i ≤ m ∧ c = some (i + 2)) ∨ (k = .logTooLong ∧ c = none) := by
  simp only [parseLog, List.drop_succ_cons, List.drop_zero] at h
  split at h
  next i hi =>
    split_ifs at h with hlong
    · cases h
      exact .inr ⟨rfl, rfl⟩
    · cases h
      exact .inl ⟨i, rfl, (lineEnd_eq_some hi).2.1, Nat.not_lt.mp hlong, rfl⟩
  next =>
    split_ifs at h
    cases h
    exact .inr ⟨rfl, rfl⟩

/-- R195: the errors of the stream parse of a body, each with its count. -/
theorem parseBody_err {m : Nat} {map : MsgMap} {s : List Byte} {k : ErrKind} {c : Option Nat}
    (h : parseBody m map s = .err k c) :
    (∃ t, k = .invalidTag t ∧ s.head? = some t ∧ map.row? t = none ∧ c = some 1) ∨
    (∃ x, k = .invalidField x ∧ s[1]? = some x ∧ x ≠ 0x30#8 ∧ x ≠ 0x31#8 ∧ c = some 2) ∨
    (∃ i, k = .utf8Error ∧ s[i + 1]? = some newline ∧ i ≤ m ∧ c = some (i + 2)) ∨
    (k = .logTooLong ∧ c = none) := by
  cases s with
  | nil => cases h
  | cons t rest =>
    simp only [parseBody] at h
    split at h
    next hrow =>
      cases h
      exact .inl ⟨t, rfl, rfl, hrow, rfl⟩
    next r hrow =>
      split_ifs at h
      · exact .inr (.inr (parseLog_err h))
      · split at h
        · cases h
        · cases h
        next x n hbad =>
          cases h
          obtain rfl := eq_one_of_scanFields_bad r.format.bool_notMem_fields_tail hbad
          obtain ⟨-, -, hx, hbool⟩ := scanFields_bad hbad
          exact .inr (.inl ⟨x, rfl, hx, (isBoolByte_eq_false.mp hbool).1, (isBoolByte_eq_false.mp hbool).2, rfl⟩)

/-! ## A directed message -/

theorem sideOf_eq_none {t : Byte} : sideOf t = none ↔ t ≠ 0x4C#8 ∧ t ≠ 0x52#8 := by
  unfold sideOf
  split_ifs <;> simp_all

/-- R195, R211: the errors of the directed stream parse: a byte that is no side tag, or the body's error, counted with the
side tag. -/
theorem parseDirected_err {m : Nat} {map : MsgMap} {s : List Byte} {k : ErrKind} {c : Option Nat}
    (h : parseDirected m map s = .err k c) :
    (∃ t, k = .invalidTag t ∧ s.head? = some t ∧ t ≠ 0x4C#8 ∧ t ≠ 0x52#8 ∧ c = some 1) ∨
    ∃ side body n, s = sideTag side :: body ∧ parseBody m map body = .err k n ∧ c = n.map (· + 1) := by
  cases s with
  | nil => cases h
  | cons t rest =>
    simp only [parseDirected] at h
    split at h
    next hside =>
      cases h
      obtain ⟨hleft, hright⟩ := sideOf_eq_none.mp hside
      exact .inl ⟨t, rfl, rfl, hleft, hright, rfl⟩
    next side hside =>
      split at h
      · cases h
      · cases h
      next n hbody =>
        cases h
        exact .inr ⟨side, rest, n, by rw [sideTag_of_sideOf hside], hbody, rfl⟩

/-! ## The exact decode -/

/-- R172: the exact decode adds one error to those of the stream parse. -/
theorem exact_eq_err {α : Type} {isLog : α → Bool} {len : Nat} {p : Parse α} {k : ErrKind} {c : Option Nat}
    (h : exact isLog len p = .err k c) : p = .err k c ∨ (k = .trailingBytes ∧ c = none) := by
  cases p with
  | incomplete => cases h
  | err => exact .inl h
  | ok v n =>
    rw [exact_ok] at h
    split_ifs at h
    cases h
    exact .inr ⟨rfl, rfl⟩

/-- Settles O27: the two parses, and each exact decode behind its parse. -/
theorem errorsReportTheirCount : Obligations.ErrorsReportTheirCount := by
  refine fun m map s k c => ⟨parseBody_err, exact_eq_err, fun h => ?_, exact_eq_err⟩
  rcases parseDirected_err h with htag | ⟨side, body, n, hs, hbody, rfl⟩
  · exact .inl htag
  · cases n with
    | none => exact .inr (.inr ⟨side, body, hs, hbody, rfl⟩)
    | some n => exact .inr (.inl ⟨side, body, n, hs, hbody, rfl⟩)

end Sys2Proof

/-! # Proofs: log lines, and the wire rows that run at once (R81, R200, R204, R211, R256) -/

namespace Sys2Proof

/-- R204: a line with its newline, whatever follows. -/
theorem parseLog_of_newline {line : List Byte} (h : newline ∉ line) (m : Nat) (t : Byte) (rest : List Byte) :
    parseLog m (t :: (line ++ newline :: rest)) =
      if m < line.length then .err .logTooLong none
      else if utf8Valid line then .ok (.response (.log line)) (line.length + 2)
      else .err .utf8Error (some (line.length + 2)) := by
  simp only [parseLog, List.drop_succ_cons, List.drop_zero, lineEnd_line h rest, List.take_left]
  cases utf8Valid line <;> rfl

/-- R204: a line whose newline is still to come. -/
theorem parseLog_of_no_newline {line : List Byte} (h : newline ∉ line) (m : Nat) (t : Byte) :
    parseLog m (t :: line) = if m < line.length then .err .logTooLong none else .incomplete := by
  simp only [parseLog, List.drop_succ_cons, List.drop_zero, lineEnd_eq_none.mpr h]

theorem Instr.ofSide_injective : Function.Injective Instr.ofSide := fun a b h => by
  have hside := congrArg Instr.side? h
  simpa using hside

/-- R211: a side tag before a body that parses is a directed message. -/
theorem parseDirected_sideTag {m : Nat} {map : MsgMap} {body : List Byte} {v : Val} {n : Nat}
    (h : parseBody m map body = .ok v n) (side : Side) :
    parseDirected m map (sideTag side :: body) = .ok (.of side v) (n + 1) := by
  simp only [parseDirected, sideOf_sideTag, h]

namespace Machine

/-- R204: on a string that begins with the tag the operation returns the codec's verdict. -/
theorem exec_codecParseLog_tag {bs : List Byte} {s : State} {p : Parse Val}
    (h : parseLog s.cfg.logMax (0x22#8 :: bs) = p) :
    exec (.codecParseLog (0x22#8 :: bs)) s = .next { s with ret := some (.body p) } := by
  rw [← h]
  rfl

/-- Settles O28, by whether a newline follows the line. -/
theorem logLinesEndAtTheFirstNewline : Obligations.LogLinesEndAtTheFirstNewline := by
  refine fun s line rest => ⟨fun h => ⟨?_, ?_⟩, fun _ => ⟨_, rfl⟩⟩
  · exact exec_codecParseLog_tag (parseLog_of_newline h _ _ rest)
  · exact exec_codecParseLog_tag (parseLog_of_no_newline h _ _)

/-- Settles O44: a well-formed response at a host port is yielded. -/
theorem responsesAtTheHostAreYielded : Obligations.ResponsesAtTheHostAreYielded := by
  intro s r p hwf hat
  rw [exec_ofResponse, runResponse, hwf, withWf_none, hat]
  rfl

/-- Settles O45. -/
theorem sideTagsSetTheSide : Obligations.SideTagsSetTheSide := fun s side =>
  ⟨decodeSide_sideTag side [], exec_ofSide side s⟩

end Machine
end Sys2Proof

/-! # Proofs: the receiver's two operations and the parts of a receive step (R89, R214 to R219) -/

namespace Sys2Proof.Machine

/-! ## `ingest` and `resolve_once` -/

/-- R237, D39: a board's buffer, which exists, while the main loop is free, and any buffer of the host. -/
theorem withAcc_of {a : AccSel} {s : State} (h : ∀ b d, a = .board b d → s.hasDir b d = true ∧ s.Free b)
    (k : State → Result) : withAcc a k s = k s := by
  cases a with
  | host p => rfl
  | board b d =>
    obtain ⟨hdir, hf⟩ := h b d rfl
    rw [withAcc, withDir_of hdir, onMainLoop_of hf]

/-- R214: where the buffer may be touched, the operation is `ingest`. -/
theorem exec_linkIngest {s : State} {a : AccSel} (h : ∀ b d, a = .board b d → s.hasDir b d = true ∧ s.Free b)
    (bytes : List Byte) : exec (.linkIngest a bytes) s = .next ((ingest a bytes s).returns .unit) := by
  simp only [exec, execLinkIngest, withAcc_of h]

/-- Settles O31, for the host's buffers and for a board's. -/
theorem ingestAppendsToTheBuffer : Obligations.IngestAppendsToTheBuffer := by
  refine fun s p b d bytes => ⟨exec_linkIngest (by simp) bytes, fun hdir hf => ?_⟩
  have hbuffer : ∀ c e, AccSel.board b d = .board c e → s.hasDir c e = true ∧ s.Free c := by
    rintro _ _ ⟨⟩
    exact ⟨hdir, hf⟩
  rw [exec_linkIngest hbuffer, State.withReceive, PerDir.set_get]
  rfl

@[simp] theorem State.setAcc_acc (s : State) (a : AccSel) : s.setAcc a (s.acc a) = s := by
  cases a with
  | host p => exact State.setLink_link s p
  | board b d =>
    simp only [State.setAcc, State.setBoardAcc, State.acc, PerDir.set_get]
    exact State.setBoard_board s b

/-- R215: the operation leaves what one attempt to resolve the head leaves, and returns the attempt's event. -/
theorem exec_linkResolveOnce {s : State} {a : AccSel} (h : ∀ b d, a = .board b d → s.hasDir b d = true ∧ s.Free b)
    (map : MsgMap) {e : LinkEvent} {left : List Byte} (hr : resolveHead s.cfg.logMax map (s.acc a) = (e, left)) :
    exec (.linkResolveOnce a map) s = .next ((s.setAcc a left).returns (.link e)) := by
  simp only [exec, execLinkResolveOnce, withAcc_of h, hr]

/-- Settles O32: the four verdicts of the parse. -/
theorem resolveOnceDropsOnlyWhatWasSettled : Obligations.ResolveOnceDropsOnlyWhatWasSettled := by
  refine fun s a map h => ⟨fun hp => ?_, fun m n hp => ?_, fun k c hp => ?_, fun k hp => ?_⟩
  · rw [exec_linkResolveOnce h map (e := .nothing) (left := s.acc a) (by rw [resolveHead, hp]), State.setAcc_acc]
    rfl
  · exact exec_linkResolveOnce h map (by rw [resolveHead, hp])
  · exact exec_linkResolveOnce h map (by rw [resolveHead, hp])
  · exact exec_linkResolveOnce h map (by rw [resolveHead, hp])

/-! ## The steps of a receive step -/

section
variable {s : State} {b : BoardId} {d : Dir} {rest : List Event}

/-- R216: the step in which a free main loop takes a byte. -/
theorem step_receive {x : Byte} {xs : List Byte} (hs : s.schedule = .receive b d :: rest) (hf : s.Free b)
    (hdir : s.hasDir b d = true) (hx : (s.board b).rxq.get d = x :: xs) :
    step s = .next
      { (s.withReceive b d xs ((s.board b).acc.get d ++ [x])).setTask b (.resolve d) with schedule := rest } :=
  calc step s
    _ = .next (receiveByte b d { s with schedule := rest }) := step_of_schedule hs
    _ = _ := congrArg Host.Outcome.next (receiveByte_of (s := { s with schedule := rest }) hf
      (by cases d <;> exact hdir) hx)

/-- R216: what a main loop in a part of the receive step does next. -/
theorem mainLoopStep_of_resolve (hh : (s.board b).inHandler = false) (ht : (s.board b).task = .resolve d) :
    mainLoopStep b s = .next (resolveAtBoard b d s) := by
  simp [mainLoopStep, State.mainLoopRuns, hh, ht]

theorem mainLoopStep_of_settle {bytes : List Byte} (hh : (s.board b).inHandler = false)
    (ht : (s.board b).task = .settle d bytes) : mainLoopStep b s = settle b d bytes s := by
  simp [mainLoopStep, State.mainLoopRuns, hh, ht]

/-- R219: a read error empties the buffer and is logged. -/
theorem readFault_of (hf : s.Free b) (hdir : s.hasDir b d = true) (k : ErrKind) :
    readFault b d k s = s.setBoard b { s.board b with
      acc := (s.board b).acc.set d []
      log := (s.board b).log ++ [.readError d k] } := by
  obtain ⟨hh, ht⟩ := hf
  simp [readFault, State.mainLoopFree, State.mainLoopRuns, hh, ht, hdir, State.setBoardAcc, State.boardLog]

/-- R216: the step in which the main loop runs `resolve_once`. -/
theorem step_resolve (hs : s.schedule = .mainLoop b :: rest) (hh : (s.board b).inHandler = false)
    (ht : (s.board b).task = .resolve d) : step s = .next (resolveAtBoard b d { s with schedule := rest }) :=
  (step_of_schedule hs).trans (mainLoopStep_of_resolve (s := { s with schedule := rest }) hh ht)

/-- R216: the step in which the main loop acts on what it resolved. -/
theorem step_settle {bytes : List Byte} (hs : s.schedule = .mainLoop b :: rest) (hh : (s.board b).inHandler = false)
    (ht : (s.board b).task = .settle d bytes) : step s = settle b d bytes { s with schedule := rest } :=
  (step_of_schedule hs).trans (mainLoopStep_of_settle (s := { s with schedule := rest }) hh ht)

/-- R219: the step in which a free main loop meets a read error. -/
theorem step_readFault {e : DevError} (hs : s.schedule = .readFault b d e :: rest) (hf : s.Free b)
    (hdir : s.hasDir b d = true) :
    step s = .next { s.setBoard b { s.board b with
      acc := (s.board b).acc.set d []
      log := (s.board b).log ++ [.readError d (.deviceError e)] } with schedule := rest } :=
  (step_of_schedule hs).trans
    (congrArg Host.Outcome.next (readFault_of (s := { s with schedule := rest }) hf hdir _))

end

/-- R216: a buffer with a byte to resolve is what waited, and that byte. -/
theorem State.HeadWaits.eq_append {s : State} {b : BoardId} {d : Dir} (h : s.HeadWaits b d)
    (ht : (s.board b).task = .resolve d) :
    ∃ p x, (s.board b).acc.get d = p ++ [x] ∧ parseDirected s.cfg.logMax (mapOf d) p = .incomplete := by
  rw [State.HeadWaits, if_pos ht] at h
  obtain ⟨hne, hp⟩ := h
  exact ⟨_, _, (List.dropLast_concat_getLast hne).symm, hp⟩

section
variable {s : State} {b : BoardId} {d : Dir} {p : List Byte} {x : Byte} {rest : List Event}

/-- R215: `resolve_once` on a buffer that still waits with the byte just taken. -/
theorem step_resolve_waits (hs : s.schedule = .mainLoop b :: rest) (hh : (s.board b).inHandler = false)
    (ht : (s.board b).task = .resolve d) (hacc : (s.board b).acc.get d = p ++ [x])
    (hp : parseDirected s.cfg.logMax (mapOf d) p = .incomplete)
    (hv : parseDirected s.cfg.logMax (mapOf d) (p ++ [x]) = .incomplete) :
    step s = .next { s.setTask b .idle with schedule := rest } := by
  rw [step_resolve hs hh ht, resolveAtBoard_last (s := { s with schedule := rest }) hacc hp, if_pos hv]
  rfl

/-- R194, R215: `resolve_once` takes the whole of a buffer to which the byte just taken brings a verdict. -/
theorem step_resolve_verdict (hs : s.schedule = .mainLoop b :: rest) (hh : (s.board b).inHandler = false)
    (ht : (s.board b).task = .resolve d) (hacc : (s.board b).acc.get d = p ++ [x])
    (hp : parseDirected s.cfg.logMax (mapOf d) p = .incomplete)
    (hv : parseDirected s.cfg.logMax (mapOf d) (p ++ [x]) ≠ .incomplete) :
    step s = .next { (s.setBoardAcc b d []).setTask b (.settle d (p ++ [x])) with schedule := rest } := by
  rw [step_resolve hs hh ht, resolveAtBoard_last (s := { s with schedule := rest }) hacc hp, if_neg hv]
  rfl

end

/-- Settles O37, each part as the step it is. -/
theorem receiveStepsTakeResolveAndSettle : Obligations.ReceiveStepsTakeResolveAndSettle := by
  refine fun s b d rest hh => ⟨fun x xs hs ht hdir hx => step_receive hs ⟨hh, ht⟩ hdir hx, fun hs ht hw => ?_,
    fun bytes k c hs ht hp => ?_, fun e hs ht hdir => step_readFault hs ⟨hh, ht⟩ hdir⟩
  · obtain ⟨p, x, hacc, hp⟩ := hw.eq_append ht
    rw [hacc, State.withReceive, PerDir.set_get]
    exact ⟨step_resolve_waits hs hh ht hacc hp, step_resolve_verdict hs hh ht hacc hp⟩
  · obtain ⟨rx, hrx⟩ := settle_error (s := { s with schedule := rest }) (b := b) hp
    exact ⟨rx, (step_settle hs hh ht).trans hrx⟩

/-! ## A message that is acted on -/

theorem tableMapOf_eq (d : Dir) : tableMapOf d = (mapOf d).table := by cases d <;> rfl

/-- R216, R230, R234: the step that acts on a message runs it where it arrived. -/
theorem step_settle_message {s : State} {b : BoardId} {d : Dir} {bytes : List Byte} {v : Directed} {n : Nat}
    {rest : List Event} (hs : s.schedule = .mainLoop b :: rest) (hh : (s.board b).inHandler = false)
    (ht : (s.board b).task = .settle d bytes) (hv : parseDirected s.cfg.logMax (mapOf d) bytes = .ok v n) :
    step s = exec (.ofVal v.val) { s.setTask b .idle with schedule := rest, rx := s.rx.onBoard b d v.side } :=
  (step_settle hs hh ht).trans (settle_message (s := { s with schedule := rest }) hv)

/-- Settles O33: what decodes, tag and body, is a directed message. -/
theorem stepRunsTheDecodedMessage : Obligations.StepRunsTheDecodedMessage := by
  intro s b d bytes side i k rest hs hh ht hside hbody
  obtain ⟨side', body, rfl, hi, -⟩ := decodeSide_eq_instr hside
  cases Instr.ofSide_injective hi
  rw [tableMapOf_eq, decode_table] at hbody
  obtain ⟨v, hv, rfl⟩ := decodeMsg_eq_instr.mp hbody
  have hstep := step_settle_message hs hh ht (parseDirected_sideTag hv side)
  rwa [Directed.val_of, Directed.side_of] at hstep

end Sys2Proof.Machine

/-! # Proofs: a message that arrives byte by byte is run (R194, R213, R216) -/

namespace Sys2Proof

/-- R194: a head of a string that waits for more bytes waits. -/
theorem parseDirected_incomplete_of_append {m : Nat} {map : MsgMap} {p q : List Byte}
    (h : parseDirected m map (p ++ q) = .incomplete) : parseDirected m map p = .incomplete := by
  obtain ⟨-, -, -, hhead⟩ := parseVerdictsArePrefixStable m map p q
  exact hhead h

/-- R194: every byte of a message but the last leaves a buffer waiting. -/
theorem encDirected_eq_append {m : Nat} {v : Directed} (h : v.Wf m) :
    ∃ p x, encDirected v = p ++ [x] ∧ parseDirected m v.val.map p = .incomplete := by
  have hne : encDirected v ≠ [] := by simp [encDirected_eq]
  refine ⟨_, _, (List.dropLast_concat_getLast hne).symm, ?_⟩
  rw [List.dropLast_eq_take]
  exact parseDirected_truncated h (Nat.sub_lt (List.length_pos_of_ne_nil hne) Nat.one_pos)

end Sys2Proof

namespace Sys2Proof.Machine

/-! ## A receive link replaced -/

theorem State.board_withReceive (s : State) (b : BoardId) (d : Dir) (q p : List Byte) :
    (s.withReceive b d q p).board b =
      { s.board b with rxq := (s.board b).rxq.set d q, acc := (s.board b).acc.set d p } :=
  State.board_setBoard_same s b _

theorem State.withReceive_withReceive (s : State) (b : BoardId) (d : Dir) (q p q' p' : List Byte) (rest : List Event) :
    ({ s.withReceive b d q p with schedule := rest } : State).withReceive b d q' p' =
      { s.withReceive b d q' p' with schedule := rest } := by
  have h : (s.withReceive b d q p).withReceive b d q' p' = s.withReceive b d q' p' := by simp [State.withReceive]
  rw [← h]
  rfl

theorem State.setTask_setTask (s : State) (b : BoardId) (k l : Task) : (s.setTask b k).setTask b l = s.setTask b l := by
  simp [State.setTask]

/-! ## Rounds of receive and resolve -/

/-- R216: one receive and one main loop step for each of `n` bytes. -/
def receiveRounds (b : BoardId) (d : Dir) (n : Nat) : List Event :=
  (List.replicate n [Event.receive b d, Event.mainLoop b]).flatten

theorem receiveRounds_succ (b : BoardId) (d : Dir) (n : Nat) :
    receiveRounds b d (n + 1) = .receive b d :: .mainLoop b :: receiveRounds b d n := rfl

/-- R216: a free board with the bytes `p` in the buffer of a link it has, and `q` received behind them. -/
structure Receiving (s : State) (b : BoardId) (d : Dir) (p q : List Byte) : Prop where
  free : s.Free b
  hasDir : s.hasDir b d = true
  acc : (s.board b).acc.get d = p
  rxq : (s.board b).rxq.get d = q

section
variable {s : State} {b : BoardId} {d : Dir} {p q : List Byte} {x : Byte} {rest : List Event}

theorem Receiving.withReceive_self (h : Receiving s b d p q) : s.withReceive b d q p = s := by
  rw [State.withReceive, ← h.acc, ← h.rxq, PerDir.set_get, PerDir.set_get]
  exact State.setBoard_board s b

theorem Receiving.withReceive (h : Receiving s b d p q) (q' p' : List Byte) (rest : List Event) :
    Receiving { s.withReceive b d q' p' with schedule := rest } b d p' q' := by
  have hboard : State.board { s.withReceive b d q' p' with schedule := rest } b = _ :=
    State.board_withReceive s b d q' p'
  refine ⟨?_, by cases d <;> exact h.hasDir, ?_, ?_⟩
  · rw [State.Free, hboard]
    exact h.free
  · rw [hboard, PerDir.get_set_same]
  · rw [hboard, PerDir.get_set_same]

/-- R216, R333: the board while its main loop is in a task, a part of the receive step. -/
theorem Receiving.inTask (h : Receiving s b d p q) (q' p' : List Byte) (k : Task) (rest : List Event) :
    let t : State := { (s.withReceive b d q' p').setTask b k with schedule := rest }
    (t.board b).inHandler = false ∧ (t.board b).task = k ∧ (t.board b).acc.get d = p' := by
  intro t
  have hboard : t.board b = { (s.withReceive b d q' p').board b with task := k } := State.board_setBoard_same _ _ _
  rw [hboard, State.board_withReceive]
  exact ⟨h.free.1, rfl, PerDir.get_set_same _ _ _⟩

/-- R216: when the main loop is free again, only the link has changed. -/
theorem Receiving.setTask_idle (h : Receiving s b d p q) (q' p' : List Byte) (k : Task) :
    ((s.withReceive b d q' p').setTask b k).setTask b .idle = s.withReceive b d q' p' := by
  rw [State.setTask_setTask, State.setTask_idle]
  rw [State.board_withReceive]
  exact h.free.2

/-- R214, R215: a round whose byte leaves the buffer waiting. -/
theorem Receiving.round_waits (h : Receiving s b d p (x :: q)) (hs : s.schedule = .receive b d :: .mainLoop b :: rest)
    (hv : parseDirected s.cfg.logMax (mapOf d) (p ++ [x]) = .incomplete) :
    ∃ t, step s = .next t ∧ step t = .next { s.withReceive b d q (p ++ [x]) with schedule := rest } := by
  obtain ⟨hh, ht, hacc⟩ := h.inTask q (p ++ [x]) (.resolve d) (.mainLoop b :: rest)
  refine ⟨_, h.acc ▸ step_receive hs h.free h.hasDir h.rxq, ?_⟩
  exact (step_resolve_waits rfl hh ht hacc (parseDirected_incomplete_of_append hv) hv).trans
    (congrArg (fun u : State => Host.Outcome.next { u with schedule := rest }) (h.setTask_idle _ _ _))

/-- R214, R215: a round whose byte brings a verdict. -/
theorem Receiving.round_verdict (h : Receiving s b d p (x :: q))
    (hs : s.schedule = .receive b d :: .mainLoop b :: rest)
    (hp : parseDirected s.cfg.logMax (mapOf d) p = .incomplete)
    (hv : parseDirected s.cfg.logMax (mapOf d) (p ++ [x]) ≠ .incomplete) :
    ∃ t, step s = .next t ∧ step t = .next
      { (s.withReceive b d q []).setTask b (.settle d (p ++ [x])) with schedule := rest } := by
  obtain ⟨hh, ht, hacc⟩ := h.inTask q (p ++ [x]) (.resolve d) (.mainLoop b :: rest)
  refine ⟨_, h.acc ▸ step_receive hs h.free h.hasDir h.rxq, ?_⟩
  have hleft : (((s.withReceive b d q (p ++ [x])).setTask b (.resolve d)).setBoardAcc b d []).setTask b
      (.settle d (p ++ [x])) = (s.withReceive b d q []).setTask b (.settle d (p ++ [x])) := by
    simp [State.setTask, State.setBoardAcc, State.withReceive]
  exact (step_resolve_verdict rfl hh ht hacc hp hv).trans
    (congrArg (fun u : State => Host.Outcome.next { u with schedule := rest }) hleft)

/-- R194, R216: rounds that bring no verdict take their bytes into the buffer and leave the board free. -/
theorem Receiving.run {more : List Byte} (h : Receiving s b d p (q ++ more))
    (hs : s.schedule = receiveRounds b d q.length ++ rest)
    (hp : parseDirected s.cfg.logMax (mapOf d) (p ++ q) = .incomplete) (n : Nat) :
    core.run (2 * q.length + n) s = core.run n { s.withReceive b d more (p ++ q) with schedule := rest } := by
  induction q generalizing s p with
  | nil =>
    have hself : s.withReceive b d more p = s := h.withReceive_self
    have hrest : { s with schedule := rest } = s := by rw [← (show s.schedule = rest from hs)]
    rw [List.append_nil, hself, hrest, List.length_nil, Nat.mul_zero, Nat.zero_add]
  | cons x q ih =>
    rw [List.append_cons] at hp ⊢
    rw [List.length_cons, receiveRounds_succ] at hs
    obtain ⟨t, hst, htu⟩ := h.round_waits hs (parseDirected_incomplete_of_append hp)
    have hrest := ih (h.withReceive (q ++ more) (p ++ [x]) (receiveRounds b d q.length ++ rest)) rfl hp
    rw [State.withReceive_withReceive] at hrest
    calc core.run (2 * (x :: q).length + n) s
      _ = core.run (2 * q.length + n + 1 + 1) s := by rw [List.length_cons]; congr 1; omega
      _ = core.run (2 * q.length + n + 1) t := core_run_succ _ hst
      _ = core.run (2 * q.length + n) _ := core_run_succ _ htu
      _ = core.run n { s.withReceive b d more (p ++ [x] ++ q) with schedule := rest } := hrest

end

/-- Settles O36: rounds that wait, the round of the last byte, and the step that acts on the message. -/
theorem messagesArriveByteByByte : Obligations.MessagesArriveByteByByte := by
  intro s b d m more rest hwf hmap hf hdir hacc hrxq hs
  obtain ⟨p, x, henc, hp⟩ := encDirected_eq_append hwf
  have hok := parseDirected_encDirected hwf []
  rw [List.append_nil] at hok
  rw [hmap] at hp hok
  rw [henc] at hrxq hs hok ⊢
  have hv : parseDirected s.cfg.logMax (mapOf d) (p ++ [x]) ≠ .incomplete := by simp [hok]
  have hstart : Receiving s b d [] (p ++ x :: more) := ⟨hf, hdir, hacc, by rw [hrxq, List.append_assoc]; rfl⟩
  have hschedule : s.schedule = receiveRounds b d p.length ++ .receive b d :: .mainLoop b :: .mainLoop b :: rest := by
    rw [hs]
    simp [receiveRounds, List.replicate_succ']
  obtain ⟨t, hst, htu⟩ := (hstart.withReceive (x :: more) p
    (.receive b d :: .mainLoop b :: .mainLoop b :: rest)).round_verdict rfl hp hv
  rw [State.withReceive_withReceive] at htu
  refine ⟨{ (s.withReceive b d more []).setTask b (.settle d (p ++ [x])) with schedule := .mainLoop b :: rest },
    ?_, ?_⟩
  · calc core.run (2 * (p ++ [x]).length) s
      _ = core.run (2 * p.length + 2) s := by rw [List.length_append]; rfl
      _ = core.run 2 { s.withReceive b d (x :: more) p with
          schedule := .receive b d :: .mainLoop b :: .mainLoop b :: rest } := hstart.run hschedule hp 2
      _ = core.run 1 t := core_run_succ 1 hst
      _ = core.run 0 _ := core_run_succ 0 htu
      _ = _ := core_run_zero _
  · obtain ⟨hh, ht, -⟩ := hstart.inTask more [] (.settle d (p ++ [x])) (.mainLoop b :: rest)
    have hidle := hstart.setTask_idle more [] (.settle d (p ++ [x]))
    have hstep := step_settle_message
      (s := { (s.withReceive b d more []).setTask b (.settle d (p ++ [x])) with schedule := .mainLoop b :: rest })
      rfl hh ht hok
    have hfree := congrArg (fun u : State => exec (.ofVal m.val)
      { u with schedule := rest, rx := s.rx.onBoard b d m.side }) hidle
    exact hstep.trans hfree

end Sys2Proof.Machine

/-! # Proofs: a board's receive buffer stays a head of a message (R194, R216, R217) -/

namespace Sys2Proof.Machine

/-! ## Steps that keep a buffer a head of a message -/

/-- R216, R217: from `s` to `t`, a buffer that is a head of a message that waits for more bytes stays one. -/
structure KeepsHead (b : BoardId) (d : Dir) (s t : State) : Prop where
  cfg : t.cfg = s.cfg
  head : s.HeadWaits b d → t.HeadWaits b d

section
variable {s t u : State} {b c : BoardId} {d e : Dir}

theorem KeepsHead.refl (s : State) : KeepsHead b d s s := ⟨rfl, id⟩

theorem KeepsHead.trans (h : KeepsHead b d s t) (k : KeepsHead b d t u) : KeepsHead b d s u :=
  ⟨k.cfg.trans h.cfg, fun hs => k.head (h.head hs)⟩

/-- The buffer, and whether `resolve_once` is still to run on it, are all that matters. -/
theorem KeepsHead.of_receiver (hcfg : t.cfg = s.cfg) (hacc : (t.board b).acc.get d = (s.board b).acc.get d)
    (htask : (t.board b).task = .resolve d ↔ (s.board b).task = .resolve d) : KeepsHead b d s t := by
  refine ⟨hcfg, fun h => ?_⟩
  simpa only [State.HeadWaits, hcfg, hacc, htask] using h

theorem KeepsHead.of_boards (hcfg : t.cfg = s.cfg) (h : t.boards = s.boards) : KeepsHead b d s t := by
  have hb : t.board b = s.board b := by rw [State.board, h, State.board]
  exact .of_receiver hcfg (by rw [hb]) (by rw [hb])

theorem KeepsHead.of_setBoard {x : Board} (hacc : c = b → x.acc.get d = (s.board c).acc.get d)
    (htask : c = b → (x.task = .resolve d ↔ (s.board c).task = .resolve d)) :
    KeepsHead b d s (s.setBoard c x) := by
  refine .of_receiver rfl ?_ ?_ <;> rw [State.board_setBoard] <;> split
  · rename_i h; subst h; exact hacc rfl
  · rfl
  · rename_i h; subst h; exact htask rfl
  · rfl

theorem KeepsHead.of_setBoard_same {x : Board} (hacc : x.acc = (s.board c).acc) (htask : x.task = (s.board c).task) :
    KeepsHead b d s (s.setBoard c x) :=
  .of_setBoard (fun _ => by rw [hacc]) (fun _ => by rw [htask])

theorem KeepsHead.of_setTask {k : Task} (hk : k ≠ .resolve d) (hs : (s.board c).task ≠ .resolve d) :
    KeepsHead b d s (s.setTask c k) :=
  .of_setBoard (fun _ => rfl) (fun _ => iff_of_false hk hs)

theorem KeepsHead.of_setEngine (t : Txe) : KeepsHead b d s (s.setEngine c e t) := .of_setBoard_same rfl rfl

/-- What an operation returns does not matter. -/
theorem KeepsHead.of_ret (h : KeepsHead b d s t) (r : Option Ret) : KeepsHead b d s { t with ret := r } :=
  h.trans (.of_boards rfl rfl)

/-- An operation that leaves its board's buffers and what its main loop is in. -/
theorem KeepsHead.of_returns {x : Board} {r : Option Ret} (ht : t = { s.setBoard c x with ret := r })
    (hacc : x.acc = (s.board c).acc) (htask : x.task = (s.board c).task) : KeepsHead b d s t := by
  rw [ht]
  exact (KeepsHead.of_setBoard_same hacc htask).of_ret r

/-! ## Blocking operations -/

theorem finishTask_keepsHead {r : Res} (hs : (s.board c).task ≠ .resolve d) : KeepsHead b d s (finishTask c r s) :=
  (KeepsHead.of_setTask (by simp) hs).of_ret _

theorem blockTask_keepsHead {k : Task} (hk : k ≠ .resolve d) (hs : (s.board c).task ≠ .resolve d) :
    KeepsHead b d s (blockTask c k s) :=
  (KeepsHead.of_setTask hk hs).of_ret none

theorem finishWrite_keepsHead {who : Caller} {r : Res} (hs : (s.board c).task ≠ .resolve d) :
    KeepsHead b d s (finishWrite c e who r s) := by
  cases who with
  | application => exact finishTask_keepsHead hs
  | router =>
    cases r with
    | ok => exact finishTask_keepsHead hs
    | err k =>
      have hlog : KeepsHead b d s (s.boardLog c (.writeError e k)) := .of_setBoard_same (by rfl) (by rfl)
      exact hlog.trans (finishTask_keepsHead (by rwa [State.boardLog, State.board_setBoard_same]))

theorem writePass_keepsHead {bytes : List Byte} {who : Caller} (hs : (s.board c).task ≠ .resolve d) :
    KeepsHead b d s (writePass c e bytes who s) := by
  unfold writePass
  simp only
  split
  · exact (KeepsHead.of_setEngine _).trans (finishWrite_keepsHead (by rwa [State.setEngine_task]))
  · split
    · exact (KeepsHead.of_setEngine _).trans (finishWrite_keepsHead (by rwa [State.setEngine_task]))
    · exact (KeepsHead.of_setEngine _).trans (blockTask_keepsHead (by simp) (by rwa [State.setEngine_task]))

theorem flushTest_keepsHead (hs : (s.board c).task ≠ .resolve d) : KeepsHead b d s (flushTest c e s) := by
  unfold flushTest
  simp only
  split
  · exact blockTask_keepsHead (by simp) hs
  · split
    · exact blockTask_keepsHead (by simp) hs
    · split
      · exact (KeepsHead.of_setEngine _).trans (finishTask_keepsHead (by rwa [State.setEngine_task]))
      · exact (KeepsHead.of_setEngine _).trans (blockTask_keepsHead (by simp) (by rwa [State.setEngine_task]))
      · exact (KeepsHead.of_setEngine _).trans (finishTask_keepsHead (by rwa [State.setEngine_task]))

theorem continueTask_keepsHead : KeepsHead b d s (continueTask c s) := by
  unfold continueTask
  split <;> rename_i hk
  · exact .refl s
  · exact .refl s
  · exact .refl s
  · exact writePass_keepsHead (by simp [hk])
  · exact .of_setTask (by simp) (by simp [hk])
  · exact .refl s
  · exact flushTest_keepsHead (by simp [hk])
  · exact .of_setTask (by simp) (by simp [hk])
  · exact .refl s

/-! ## Operations -/

theorem State.Free.task_ne_resolve (h : s.Free c) : (s.board c).task ≠ .resolve d := by
  rw [h.2]
  simp

theorem startWrite_keepsHead {bytes : List Byte} {who : Caller} (h : startWrite c e bytes who s = .next t) :
    KeepsHead b d s t := by
  obtain ⟨-, hf, -, rfl⟩ := startWrite_eq_next.mp h
  split
  · exact finishWrite_keepsHead hf.task_ne_resolve
  · exact writePass_keepsHead hf.task_ne_resolve

theorem onCommand_keepsHead {dc : DirectedCommand} (h : onCommand c dc s = .next t) : KeepsHead b d s t := by
  unfold onCommand at h
  split at h
  · obtain ⟨-, h⟩ := onMainLoop_eq_next.mp h
    cases h
    exact .of_returns rfl rfl rfl
  · split at h
    · exact startWrite_keepsHead h
    · obtain ⟨-, h⟩ := onMainLoop_eq_next.mp h
      cases h
      exact .of_returns rfl rfl rfl

theorem onResponse_keepsHead {sr : SideResponse} (h : onResponse c sr s = .next t) : KeepsHead b d s t := by
  obtain ⟨-, hf, -, rfl⟩ := onResponse_eq_next.mp h
  exact .of_ret (.of_setBoard (fun _ => by rfl) fun _ => iff_of_false (by simp) hf.task_ne_resolve) none

/-- R231, R234: a message received. -/
theorem exec_ofVal_keepsHead {v : Val} (h : exec (.ofVal v) s = .next t) : KeepsHead b d s t := by
  cases v with
  | command c => exact onCommand_keepsHead (withWf_eq_next.mp (exec_ofCommand c s ▸ h)).2
  | response r =>
    have hr := (withWf_eq_next.mp (exec_ofResponse r s ▸ h)).2
    split at hr
    · cases hr
      exact .of_boards rfl rfl
    · exact onResponse_keepsHead hr

/-- R61: an operation of the host, or a pure function. -/
theorem exec_keepsHead_of_not_board {i : Instr} (h : exec i s = .next t)
    (ho : ownerOf i = .anyone ∨ ownerOf i = .host) : KeepsHead b d s t :=
  .of_boards (exec_cfg h).1 (exec_boards_of_not_board h ho)

/-- Log entry 38: of a board's operations only `ingest` and `resolve_once` on the buffer itself touch it. -/
def TouchesBuffer (b : BoardId) (d : Dir) (i : Instr) : Prop :=
  (∃ bytes, i = .linkIngest (.board b d) bytes) ∨ ∃ map, i = .linkResolveOnce (.board b d) map

theorem exec_keepsHead_of_board {i : Instr} (h : exec i s = .next t) (ho : ownerOf i = .board c)
    (hi : ¬TouchesBuffer b d i) : KeepsHead b d s t := by
  have buffer : ∀ {a : BoardId} {f : Dir} {bs : List Byte}, ¬(a = b ∧ f = d) →
      KeepsHead b d s (s.setBoardAcc a f bs) := fun {a f bs} hne => by
    refine .of_setBoard (fun ha => ?_) fun _ => .rfl
    rw [PerDir.get_set, if_neg fun hd => hne ⟨ha, hd.symm⟩]
  cases i
  case rbAdd r x | rbAddAll r xs | rbTake r =>
    cases r with
    | engine a f => cases h
    | alone a => cases h; exact .of_returns rfl rfl rfl
  case rbPeek r | rbIsEmpty r | rbIsFull r =>
    cases r with
    | engine a f => cases h
    | alone a => cases h; exact .of_boards rfl rfl
  case txSetDevice a f w =>
    obtain ⟨-, h⟩ := withDir_eq_next.mp h
    obtain ⟨-, h⟩ := onMainLoop_eq_next.mp h
    split at h
    · cases h
    · cases h; exact (KeepsHead.of_setEngine _).of_ret _
  case txKick a f | txTryWrite a f =>
    simp only [exec, execTxKick, execTxTryWrite] at h
    obtain ⟨-, h⟩ := withDir_eq_next.mp h
    cases h
    exact (KeepsHead.of_setEngine _).of_ret _
  case txWrite a f bytes => exact startWrite_keepsHead h
  case txFlush a f =>
    obtain ⟨-, hf, -, rfl⟩ := startFlush_eq_next.mp h
    exact flushTest_keepsHead hf.task_ne_resolve
  case linkIngest a bytes =>
    cases a with
    | host p => cases ho
    | board a f =>
      obtain ⟨-, h⟩ := withDir_eq_next.mp h
      obtain ⟨-, h⟩ := onMainLoop_eq_next.mp h
      cases h
      exact (buffer fun ⟨ha, hf⟩ => hi (.inl ⟨bytes, by rw [ha, hf]⟩)).of_ret _
  case linkResolveOnce a map =>
    cases a with
    | host p => cases ho
    | board a f =>
      obtain ⟨-, h⟩ := withDir_eq_next.mp h
      obtain ⟨-, h⟩ := onMainLoop_eq_next.mp h
      cases h
      exact (buffer fun ⟨ha, hf⟩ => hi (.inr ⟨map, by rw [ha, hf]⟩)).of_ret _
  case routerOnCommand a dc => exact onCommand_keepsHead (withWf_eq_next.mp h).2
  case routerLocalDispatch a m | routerCannotForward a dc =>
    obtain ⟨-, h⟩ := onMainLoop_eq_next.mp (withWf_eq_next.mp h).2
    cases h
    exact .of_returns rfl rfl rfl
  case routerLocalReaction a r =>
    obtain ⟨-, h⟩ := onMainLoop_eq_next.mp (withWf_eq_next.mp h).2
    cases h
    rw [localReaction_eq]
    exact .of_returns rfl rfl rfl
  case routerForwardCommand a dc => exact startWrite_keepsHead (withWf_eq_next.mp h).2
  case routerOnResponse a sr => exact onResponse_keepsHead (withWf_eq_next.mp h).2
  case routerSendResponse a r => exact startWrite_keepsHead (withWf_eq_next.mp h).2
  all_goals cases ho

/-! ## The receive step -/

theorem State.mainLoopFree_iff : s.mainLoopFree c = true ↔ s.Free c := by
  simp [State.mainLoopFree, State.mainLoopRuns]

/-- R216: when a main loop takes a byte. -/
theorem receiveByte_cases (s : State) (c : BoardId) (e : Dir) : receiveByte c e s = s ∨
    ∃ x xs, s.Free c ∧ receiveByte c e s = s.setBoard c { s.board c with
      rxq := (s.board c).rxq.set e xs
      acc := (s.board c).acc.set e ((s.board c).acc.get e ++ [x])
      task := .resolve e } := by
  by_cases hg : s.Free c ∧ s.hasDir c e = true
  · cases hx : (s.board c).rxq.get e with
    | nil => simp [receiveByte, hx]
    | cons x xs =>
      refine .inr ⟨x, xs, hg.1, ?_⟩
      rw [receiveByte_of hg.1 hg.2 hx]
      simp [State.withReceive, State.setTask]
  · rw [← State.mainLoopFree_iff, ← Bool.and_eq_true] at hg
    exact .inl (if_neg hg)

/-- R219: when a read fault meets a main loop. -/
theorem readFault_cases (s : State) (c : BoardId) (e : Dir) (k : ErrKind) : readFault c e k s = s ∨
    s.Free c ∧ readFault c e k s = s.setBoard c { s.board c with
      acc := (s.board c).acc.set e []
      log := (s.board c).log ++ [.readError e k] } := by
  by_cases hg : s.Free c ∧ s.hasDir c e = true
  · exact .inr ⟨hg.1, readFault_of hg.1 hg.2 k⟩
  · rw [← State.mainLoopFree_iff, ← Bool.and_eq_true] at hg
    exact .inl (if_neg hg)

/-- A part of a receive step on one link: another link's buffer stays, and is not the one to resolve. -/
theorem KeepsHead.of_link {x : Board} {bs : List Byte} (hacc : x.acc = (s.board c).acc.set e bs)
    (hother : e ≠ d → x.task ≠ .resolve d ∧ (s.board c).task ≠ .resolve d)
    (hown : e = d → s.HeadWaits c d →
      if x.task = .resolve d then bs ≠ [] ∧ parseDirected s.cfg.logMax (mapOf d) bs.dropLast = .incomplete
      else parseDirected s.cfg.logMax (mapOf d) bs = .incomplete) :
    KeepsHead b d s (s.setBoard c x) := by
  by_cases he : e = d
  · by_cases hc : c = b
    · subst hc he
      refine ⟨rfl, fun h => ?_⟩
      simpa only [State.HeadWaits, State.board_setBoard_same, hacc, PerDir.get_set_same, State.setBoard_cfg] using
        hown rfl h
    · exact .of_setBoard (fun h => absurd h hc) fun h => absurd h hc
  · obtain ⟨hx, hs⟩ := hother he
    exact .of_setBoard (fun _ => by rw [hacc, PerDir.get_set, if_neg (Ne.symm he)]) fun _ => iff_of_false hx hs

/-- R216: a byte taken stands behind a head that waits. -/
theorem receiveByte_keepsHead : KeepsHead b d s (receiveByte c e s) := by
  rcases receiveByte_cases s c e with h | ⟨x, xs, hf, h⟩ <;> rw [h]
  · exact .refl s
  · refine .of_link rfl (fun he => ⟨by simpa using he, hf.task_ne_resolve⟩) fun he hs => ?_
    rw [State.HeadWaits, if_neg hf.task_ne_resolve] at hs
    subst he
    simpa using hs

/-- R219: a read error leaves an empty buffer. -/
theorem readFault_keepsHead {k : ErrKind} : KeepsHead b d s (readFault c e k s) := by
  rcases readFault_cases s c e k with h | ⟨hf, h⟩ <;> rw [h]
  · exact .refl s
  · refine .of_link rfl (fun _ => ⟨hf.task_ne_resolve, hf.task_ne_resolve⟩) fun _ _ => ?_
    rw [if_neg hf.task_ne_resolve]
    rfl

theorem State.setTask_setBoardAcc (s : State) (c : BoardId) (e : Dir) (bs : List Byte) (k : Task) :
    (s.setBoardAcc c e bs).setTask c k =
      s.setBoard c { s.board c with acc := (s.board c).acc.set e bs, task := k } := by
  simp [State.setBoardAcc, State.setTask]

/-- R215: `resolve_once` writes the buffer, and the main loop then acts on what was taken, or is free. -/
theorem resolveAtBoard_eq (s : State) (c : BoardId) (e : Dir) : ∃ k, (∀ f, k ≠ .resolve f) ∧
    resolveAtBoard c e s = s.setBoard c { s.board c with
      acc := (s.board c).acc.set e (resolveHead s.cfg.logMax (mapOf e) ((s.board c).acc.get e)).2, task := k } := by
  refine ⟨_, fun f => ?_, State.setTask_setBoardAcc s c e _ _⟩
  split <;> simp

/-- R194, R215: what is left of a buffer that waited before its last byte waits, or is empty. -/
theorem resolveHead_left_waits {m : Nat} {map : MsgMap} {p : List Byte} (x : Byte)
    (hp : parseDirected m map p = .incomplete) :
    parseDirected m map (resolveHead m map (p ++ [x])).2 = .incomplete := by
  by_cases hv : parseDirected m map (p ++ [x]) = .incomplete
  · simp only [resolveHead, hv]
  · rw [resolveHead_last hp hv]
    rfl

/-- R216: what `resolve_once` leaves is still a head. -/
theorem resolveAtBoard_keepsHead (ht : (s.board c).task = .resolve e) : KeepsHead b d s (resolveAtBoard c e s) := by
  obtain ⟨k, hk, heq⟩ := resolveAtBoard_eq s c e
  rw [heq]
  refine .of_link rfl (fun he => ⟨hk d, by simpa [ht] using he⟩) fun he hs => ?_
  subst he
  obtain ⟨p, x, hacc, hp⟩ := hs.eq_append ht
  rw [if_neg (hk e), hacc]
  exact resolveHead_left_waits x hp

theorem settle_keepsHead {bytes : List Byte} (hk : (s.board c).task = .settle e bytes)
    (h : settle c e bytes s = .next t) : KeepsHead b d s t := by
  have hne : (s.board c).task ≠ .resolve d := by simp [hk]
  rcases settle_cases h with ⟨v, n, -, he⟩ | ⟨rx, log, rfl⟩
  · have hidle : KeepsHead b d s { s.setTask c .idle with rx := s.rx.onBoard c e v.side } :=
      (KeepsHead.of_setTask (by simp) hne).trans (.of_boards rfl rfl)
    exact hidle.trans (exec_ofVal_keepsHead he)
  · have hlog : KeepsHead b d s (s.setBoard c { s.board c with task := .idle, log := log }) :=
      .of_setBoard (fun _ => by rfl) fun _ => iff_of_false (by simp) hne
    exact hlog.trans (.of_boards rfl rfl)

/-- Every step of a main loop, but a request of this one's that touches the buffer (log entry 38). -/
theorem mainLoopStep_keepsHead
    (hi : c = b → (s.board b).task = .idle → ∀ i, (s.board b).todo.head? = some i → ¬TouchesBuffer b d i)
    (h : mainLoopStep c s = .next t) : KeepsHead b d s t := by
  unfold mainLoopStep at h
  split at h
  · cases h; exact .refl s
  · split at h
    next hk =>
      split at h
      · cases h; exact .refl s
      next i more hq =>
        obtain ⟨he, ho⟩ := callAs_next h
        have hpop : KeepsHead b d s (s.setBoard c { s.board c with todo := more }) := .of_setBoard_same rfl rfl
        refine hpop.trans ?_
        rcases ho with ho | ho
        · exact exec_keepsHead_of_not_board he (.inl ho)
        · refine exec_keepsHead_of_board he ho fun htouch => ?_
          have hcb : c = b := by
            rcases htouch with ⟨bytes, rfl⟩ | ⟨map, rfl⟩ <;> cases ho <;> rfl
          subst hcb
          exact hi rfl hk i (by rw [hq]; rfl) htouch
    next hk => cases h; exact resolveAtBoard_keepsHead hk
    next hk => exact settle_keepsHead hk h
    · cases h; exact continueTask_keepsHead
    · cases h; exact continueTask_keepsHead

/-! ## The other agents -/

theorem Task.wake_eq_resolve {k : Task} {seen : Bool} : k.wake seen = .resolve d ↔ k = .resolve d := by
  cases k <;> simp [Task.wake]

/-- R32: a handler leaves the parameters. -/
theorem takeInterrupt_cfg {seen : Bool} {k : State → Result} (hk : IsHandler c k)
    (h : takeInterrupt c seen k s = .next t) : t.cfg = s.cfg := by
  obtain ⟨v, hv, h⟩ := andThen_eq_next.mp h
  cases h
  rcases hk _ v hv with rfl | ⟨i, hi, -⟩
  · rfl
  · exact (exec_cfg hi).1

/-- R294, R297: a handler touches no buffer, and at most wakes a blocking operation. -/
theorem takeInterrupt_keepsHead {seen : Bool} {k : State → Result} (hk : IsHandler c k)
    (h : takeInterrupt c seen k s = .next t) : KeepsHead b d s t := by
  obtain ⟨hacc, htask⟩ := takeInterrupt_kept (c := b) h hk
  refine .of_receiver (takeInterrupt_cfg hk h) (by rw [hacc]) ?_
  rw [htask]
  split
  · exact Task.wake_eq_resolve
  · rfl

/-- R293: another handler, where none runs; where one does, the event has no effect (log entry 3). -/
theorem otherInterrupt_keepsHead {call : Option Instr} {seen : Bool} (h : otherInterrupt c call seen s = .next t) :
    KeepsHead b d s t := by
  cases hh : (s.board c).inHandler with
  | true =>
    have hmasked : otherInterrupt c call seen s = .next s := by simp [otherInterrupt, State.mainLoopRuns, hh]
    cases hmasked.symm.trans h
    exact .refl s
  | false =>
    obtain ⟨k, hk, htakes⟩ := otherInterrupt_takes call seen hh
    exact takeInterrupt_keepsHead hk (htakes.symm.trans h)

theorem setLine_keepsHead (l : LinkId) (bs : List Byte) : KeepsHead b d s (setLine l bs s) := by
  cases l with
  | fromPort p => exact .of_boards rfl rfl
  | fromEngine c e => exact .of_setBoard_same rfl rfl

theorem wireDeliver_keepsHead (l : LinkId) : KeepsHead b d s (wireDeliver l s) := by
  unfold wireDeliver
  split
  · exact .refl s
  · split
    · exact setLine_keepsHead l _
    · rename_i xs _ _ r _
      refine (setLine_keepsHead l xs).trans ?_
      cases r with
      | port p => exact .of_boards rfl rfl
      | path c e => exact .of_setBoard_same rfl rfl

theorem mapDevice_keepsHead (f : Device → Device) : KeepsHead b d s (mapDevice c e f s) := by
  unfold mapDevice
  split
  · exact .refl s
  · exact .of_setEngine _

theorem devEmit_keepsHead : KeepsHead b d s (devEmit c e s) := by
  unfold devEmit
  split
  · exact .refl s
  · split
    · exact .refl s
    · exact (KeepsHead.of_setEngine _).trans (.of_setBoard_same (by rfl) (by rfl))

end

/-- R61: every event but a request of the board's main loop that touches the buffer. -/
theorem runEvent_keepsHead {s t : State} {b : BoardId} {d : Dir} {ev : Event}
    (hi : ev = .mainLoop b → (s.board b).task = .idle → ∀ i, (s.board b).todo.head? = some i →
      ¬TouchesBuffer b d i)
    (h : runEvent ev s = .next t) : KeepsHead b d s t := by
  cases ev <;> simp only [runEvent] at h
  case request c i => cases h; exact .of_setBoard_same rfl rfl
  case mainLoop c => exact mainLoopStep_keepsHead (fun hc => hi (by rw [hc])) h
  case receive c e => cases h; exact receiveByte_keepsHead
  case readFault c e k => cases h; exact readFault_keepsHead
  case readyInterrupt c e seen =>
    rcases readyInterrupt_cases (s := s) c e seen with hcase | hcase
    · cases hcase.symm.trans h; exact .refl s
    · exact takeInterrupt_keepsHead (isHandler_exec rfl) (hcase.symm.trans h)
  case otherInterrupt c call seen => exact otherInterrupt_keepsHead h
  case devComplete c e => cases h; exact mapDevice_keepsHead _
  case devEmit c e => cases h; exact devEmit_keepsHead
  case devAnswer c e a => cases h; exact mapDevice_keepsHead _
  case wireDeliver l => cases h; exact wireDeliver_keepsHead l
  case wireGlitch l bs => cases h; exact setLine_keepsHead l bs
  case hostLoop i =>
    unfold hostLoopStep at h
    split at h
    · obtain ⟨he, ho⟩ := callAs_next h
      exact exec_keepsHead_of_not_board he ho
    · cases h; exact .refl s
  case hostNext =>
    cases h
    obtain ⟨x, r, rx, hx⟩ := hostNextStep_moved s
    exact .of_boards (by rw [hx]) (by rw [hx])
  case portWriteAnswer | portAvailAnswer | portReadAnswer => cases h; exact .of_boards rfl rfl

/-- R217: how long a receive buffer can be: a head that waits, and the byte just taken. -/
theorem State.HeadWaits.length_le {s : State} {b : BoardId} {d : Dir} (h : s.HeadWaits b d) :
    ((s.board b).acc.get d).length ≤ waitingBound s.cfg.logMax + 1 := by
  unfold State.HeadWaits at h
  split at h
  · have hp := parseDirected_incomplete_length h.2
    rw [List.length_dropLast] at hp
    omega
  · exact Nat.le_succ_of_le (parseDirected_incomplete_length h)

/-- Log entry 34: R217's bound, where R86's sentence holds. -/
theorem waitingBound_of_le {m : Nat} (h : 7 ≤ m) : waitingBound m = m + 2 := by
  unfold waitingBound longestFixedBody
  omega

/-- Settles O35: the next event keeps the head, and a head has R217's bound. -/
theorem boardBufferStaysAHeadOfAMessage : Obligations.BoardBufferStaysAHeadOfAMessage := by
  intro s t b d hs hi h
  have hkeeps : KeepsHead b d s t := by
    cases hsch : s.schedule with
    | nil =>
      have ht : step s = .next s := by simp only [step, hsch]
      cases ht.symm.trans h
      exact .refl s
    | cons e rest =>
      have hrun := (step_of_schedule hsch).symm.trans h
      have hused : KeepsHead b d s { s with schedule := rest } := .of_boards rfl rfl
      refine hused.trans (runEvent_keepsHead (fun he hk i hq => ?_) hrun)
      obtain ⟨hingest, hresolve⟩ := hi (by rw [hsch, he]; rfl) hk i hq
      rintro (⟨bytes, hib⟩ | ⟨map, him⟩)
      · exact hingest bytes hib
      · exact hresolve map him
  have hbound := (hkeeps.head hs).length_le
  rw [hkeeps.cfg] at hbound
  exact ⟨hkeeps.head hs, hbound, fun hm => by rwa [waitingBound_of_le hm] at hbound⟩

end Sys2Proof.Machine

/-! # Proofs: the side router (R210, R230 to R236) -/

namespace Sys2Proof.Machine

section
variable {s : State} {b : BoardId} {dc : DirectedCommand} {sr : SideResponse} {i : Instr}

/-! ## Messages received, and the router's operations -/

/-- R216, R230: a well-formed command received for a board is that board's `on_command`. -/
theorem exec_eq_onCommand (hwf : dc.command.Wf)
    (hi : i = .routerOnCommand b dc ∨ (i = .ofCommand dc.command ∧ s.rx.cmdAt = b ∧ s.rx.side = dc.side)) :
    exec i s = onCommand b dc s := by
  rcases hi with rfl | ⟨rfl, rfl, hside⟩
  · rw [exec, execRouterOnCommand, hwf, withWf_none]
  · rw [exec_ofCommand, runCommand, hwf, withWf_none, hside]

/-- R216, R234: a well-formed response received by a board is that board's `on_response`. -/
theorem exec_eq_onResponse (hwf : sr.response.Wf s.cfg.logMax)
    (hi : i = .routerOnResponse b sr ∨
      (i = .ofResponse sr.response ∧ s.rx.respAt = .board b ∧ s.rx.side = sr.side)) :
    exec i s = onResponse b sr s := by
  rcases hi with rfl | ⟨rfl, hat, hside⟩
  · rw [exec, execRouterOnResponse, hwf, withWf_none]
  · rw [exec_ofResponse, runResponse, hwf, withWf_none, hat, hside]

/-! ## The three branches of `on_command` (R230) -/

/-- R231. -/
theorem onCommand_of_own (hside : dc.side = s.cfg.boardSide.get b) (hf : s.Free b) :
    onCommand b dc s = .next (localDispatch b dc.command s) := by
  rw [onCommand, if_pos hside, onMainLoop_of hf]

/-- R232. -/
theorem onCommand_of_leaf (hside : dc.side ≠ s.cfg.boardSide.get b) (hleaf : s.cfg.hasDownstream.get b = false)
    (hf : s.Free b) : onCommand b dc s = .next (cannotForward b dc s) := by
  rw [onCommand, if_neg hside, if_neg (by simp [hleaf]), onMainLoop_of hf]

/-- R233. -/
theorem onCommand_of_downstream (hside : dc.side ≠ s.cfg.boardSide.get b)
    (hdown : s.cfg.hasDownstream.get b = true) : onCommand b dc s = forwardCommand b dc s := by
  rw [onCommand, if_neg hside, if_pos hdown]

/-! ## Writing into an engine -/

/-- R146: a `write` of bytes on a free board completes as its first pass. -/
theorem startWrite_passed {d : Dir} {bytes : List Byte} {w : Device} (who : Caller) (hdir : s.hasDir b d = true)
    (hf : s.Free b) (hrb : (s.engine b d).rb.Wf) (hdev : (s.engine b d).dev = some w) (hb : bytes ≠ []) :
    ∃ t : State, startWrite b d bytes who s = .next t ∧ WritePassed b d bytes who w s t :=
  ⟨_, startWrite_of hdir hf hdev hb, writePass_passed who hrb hdev⟩

/-- R149: of a `write` just begun on a board whose engines are left alone, the next step runs the first pass. -/
theorem step_of_write_begun {d : Dir} {bytes : List Byte} {who : Caller} {w : Device} {x : Board} {r : Option Ret}
    {rest : List Event} (hs : s.schedule = .mainLoop b :: rest) (hdir : s.hasDir b d = true)
    (hrb : (s.engine b d).rb.Wf) (hdev : (s.engine b d).dev = some w) (hh : x.inHandler = false)
    (ht : x.task = .write d bytes .running who) (htx : x.tx = (s.board b).tx) :
    ∃ u : State, step { s.setBoard b x with ret := r } = .next u ∧
      WritePassed b d bytes who w { s.setBoard b x with ret := r, schedule := rest } u := by
  have hboard : State.board { s.setBoard b x with ret := r } b = x := State.board_setBoard_same s b x
  have hengine : State.engine { s.setBoard b x with ret := r } b d = s.engine b d := by
    rw [State.engine, hboard, htx, State.engine]
  obtain ⟨-, -, hpass⟩ := writeRunsPassByPass { s.setBoard b x with ret := r } b d bytes w
    ((State.setBoard_hasDir s b b x d).trans hdir) (by rwa [hengine]) (by rwa [hengine])
  exact hpass who rest (by rwa [hboard]) (by rwa [hboard]) hs

end

/-! ## The obligations -/

/-- Settles O40: every form is `forward_command`, which is one `write`. -/
theorem commandsForTheOtherSideAreForwarded : Obligations.CommandsForTheOtherSideAreForwarded := by
  intro s b dc w i hwf hf hdown hrb hdev hi
  have hforward : exec i s = forwardCommand b dc s := by
    rcases hi with rfl | ⟨hside, hi⟩
    · rw [exec, execRouterForwardCommand, hwf, withWf_none]
    · rw [exec_eq_onCommand hwf hi, onCommand_of_downstream hside hdown]
  rw [hforward]
  exact startWrite_passed .router hdown hf hrb hdev (List.cons_ne_nil _ _)

/-- Settles O41: `on_response` begins the `write` whose first pass the next step runs. -/
theorem responsesClimbTheChain : Obligations.ResponsesClimbTheChain := by
  intro s b sr w i hwf hf hdown hrb hdev hi
  refine ⟨_, ?_, rfl, fun rest hs => ?_⟩
  · rw [exec_eq_onResponse hwf hi]
    exact onResponse_eq_next.mpr ⟨hdown, hf, by simp [hdev], rfl⟩
  · exact step_of_write_begun hs rfl hrb hdev hf.1 rfl rfl

/-- Settles O43: `send_response` is one `write` on the upward engine, which every board has. -/
theorem ownResponsesCarryTheOwnSide : Obligations.OwnResponsesCarryTheOwnSide := by
  intro s b r w hwf hf hrb hdev
  rw [exec, execRouterSendResponse, hwf, withWf_none]
  exact startWrite_passed .application rfl hf hrb hdev (List.cons_ne_nil _ _)

/-- Settles O38: every form is `local_dispatch`. -/
theorem commandsForThisBoardAreDispatched : Obligations.CommandsForThisBoardAreDispatched := by
  intro s b c i hwf hf hi
  show exec i s = .next (localDispatch b c s)
  have own (hi : i = .routerOnCommand b ⟨s.cfg.boardSide.get b, c⟩ ∨
      (i = .ofCommand c ∧ s.rx.cmdAt = b ∧ s.rx.side = s.cfg.boardSide.get b)) :
      exec i s = .next (localDispatch b c s) :=
    (exec_eq_onCommand (dc := ⟨s.cfg.boardSide.get b, c⟩) hwf hi).trans (onCommand_of_own rfl hf)
  rcases hi with hmessage | hon | rfl
  · exact own (.inr hmessage)
  · exact own (.inl hon)
  · rw [exec, execRouterLocalDispatch, hwf, withWf_none, onMainLoop_of hf]

/-- Settles O39: every form is `cannot_forward`. -/
theorem leavesLogWhatTheyCannotForward : Obligations.LeavesLogWhatTheyCannotForward := by
  intro s b dc i hwf hf hi
  show exec i s = .next (cannotForward b dc s)
  rcases hi with rfl | ⟨hside, hleaf, hi⟩
  · rw [exec, execRouterCannotForward, hwf, withWf_none, onMainLoop_of hf]
  · rw [exec_eq_onCommand hwf hi, onCommand_of_leaf hside hleaf hf]

/-- Settles O42: by the reaction of each response. -/
theorem onlyPowerOffHasALocalReaction : Obligations.OnlyPowerOffHasALocalReaction := by
  intro s b r hwf hf
  rw [exec, execRouterLocalReaction, hwf, withWf_none, onMainLoop_of hf, localReaction_eq]

end Sys2Proof.Machine

/-! # Proofs: the host dispatcher (R250 to R263) -/

namespace Sys2Proof.Machine

section
variable {s : State} {side p : Side} {now : Time}

/-! ## The operations, with their guards passed -/

theorem exec_hostTransmit {c : Command} (hwf : c.Wf) :
    exec (.hostTransmit side c) s = returning (transmit side c s) := by
  rw [exec, execHostTransmit, hwf, withWf_none]

theorem exec_hostSendCommand {c : Command} (hwf : c.Wf) (hn : s.host.clock ≤ now) :
    exec (.hostSendCommand side c now) s =
      returning (sendCommand side c now { s with host := { s.host with clock := now } }) := by
  rw [exec, execHostSendCommand, hwf, withWf_none, withClock_of hn]

theorem exec_hostTransmitTarget {x : Word64} (hn : s.host.clock ≤ now) :
    exec (.hostTransmitTarget side x now) s =
      returning (transmitTarget side x now { s with host := { s.host with clock := now } }) := by
  rw [exec, execHostTransmitTarget, withClock_of hn]

theorem exec_hostSetTarget {x : Word64} (hn : s.host.clock ≤ now) :
    exec (.hostSetTarget side x now) s =
      returning (setTarget side x now { s with host := { s.host with clock := now } }) := by
  rw [exec, execHostSetTarget, withClock_of hn]

theorem exec_hostReceive (hp : s.cfg.port.get p = true) :
    exec (.hostReceive p) s = .next ((receiveAtHost p s).returns .unit) := by
  rw [exec, execHostReceive, if_pos hp]

/-! ## Sends (R252 to R255) -/

/-- R255. -/
theorem sendDue_iff {interval : Time} {last : Option Time} :
    sendDue interval last now = true ↔ last = none ∨ ∃ a, last = some a ∧ interval ≤ now - a := by
  cases last <;> simp [sendDue]

/-- R255: a due target is sent. -/
theorem setTarget_of_due {x : Word64} (h : sendDue s.cfg.minSendInterval (s.link side).lastSend now = true) :
    setTarget side x now s = transmitTarget side x now s := by
  rw [setTarget, if_pos h]

/-- R255: a target within the interval is held. -/
theorem setTarget_of_early {x : Word64} {a : Time} (ha : (s.link side).lastSend = some a)
    (h : now - a < s.cfg.minSendInterval) :
    setTarget side x now s = (s.setLink side { s.link side with pending := some x }, .ok) := by
  have hdue : ¬sendDue s.cfg.minSendInterval (s.link side).lastSend now = true := by
    simpa [ha, sendDue] using h
  rw [setTarget, if_neg hdue]

/-- R252: with no port a command is dropped, and logged the first time. -/
theorem transmit_of_no_port {c : Command} (h : selectPort s.cfg side = none) :
    transmit side c s = ({ s with host := { s.host with
      noPortLogged := true
      log := if s.host.noPortLogged then s.host.log else s.host.log ++ [.noPort] } }, .ok) := by
  simp only [transmit, h, dropCommand]
  split
  · rename_i hlogged
    rw [← hlogged]
  · rfl

/-- R252: with a port the directed encoding is written there. -/
theorem transmit_of_port {c : Command} (h : selectPort s.cfg side = some p) :
    transmit side c s = writePort p (encDirectedCommand ⟨side, c⟩) s := by
  simp only [transmit, h]

/-- R263: answers to come that begin with no error are none, or begin with the answer of the contract. -/
theorem answers_without_error {α : Type} {as : List (Option α)} (h : ∀ e, as.head? ≠ some (some e)) :
    as = [] ∨ ∃ rest, as = none :: rest := by
  rcases as with _ | ⟨_ | e, rest⟩
  · exact .inl rfl
  · exact .inr ⟨rest, rfl⟩
  · exact absurd rfl (h e)

/-- R263: a port that answers no error takes all the bytes. -/
theorem Port.writeAll_of_ok {q : Port} {bytes : List Byte} (h : ∀ f, q.writeAnswers.head? ≠ some (some f)) :
    q.writeAll bytes = ({ q with line := q.line ++ bytes, writeAnswers := q.writeAnswers.tail }, .ok) := by
  rcases answers_without_error h with ha | ⟨rest, ha⟩ <;> rw [Port.writeAll, ha] <;> rfl

/-- R263: a port that answers an error takes the bytes its answer names. -/
theorem Port.writeAll_of_fault {q : Port} {bytes : List Byte} {f : PortFault}
    (h : q.writeAnswers.head? = some (some f)) :
    q.writeAll bytes = ({ q with line := q.line ++ bytes.take f.sent, writeAnswers := q.writeAnswers.tail },
      .err (.deviceError f.error)) := by
  obtain ⟨as, ha⟩ := List.head?_eq_some_iff.mp h
  simp only [Port.writeAll, ha, List.tail_cons]

end

/-- Settles O46: the model's `select_port` is the rule's. -/
theorem eachSideUsesItsOwnPortOrTheOther : Obligations.EachSideUsesItsOwnPortOrTheOther := fun _ _ => rfl

/-- Settles O47, by the port selected and its answer. -/
theorem transmitWritesOrDrops : Obligations.TransmitWritesOrDrops := by
  intro s side c hwf
  rw [exec_hostTransmit hwf]
  refine ⟨fun hnone => ?_, fun p hp => ⟨fun hok => ?_, fun f hf => ?_⟩⟩
  · rw [transmit_of_no_port hnone]; rfl
  · rw [transmit_of_port hp, writePort, Port.writeAll_of_ok hok]; rfl
  · rw [transmit_of_port hp, writePort, Port.writeAll_of_fault hf]; rfl

/-- Settles O48: both operations are `transmit` and their stamp. -/
theorem sendsAreStampedAsTheirRuleSays : Obligations.SendsAreStampedAsTheirRuleSays := by
  intro s side c x now hwf hn
  refine ⟨⟨_, exec_hostTransmit hwf, ?_⟩, ⟨_, exec_hostTransmit rfl, exec_hostTransmitTarget hn⟩⟩
  have hcfg := (transmit_kept side c { s with host := { s.host with clock := now } }).cfg
  rw [exec_hostSendCommand hwf hn, sendCommand, hcfg]
  cases s.cfg.stampAllCommands <;> rfl

/-- Settles O49, by whether the target is due. -/
theorem targetsAreSentOrHeld : Obligations.TargetsAreSentOrHeld := by
  intro s side x now hn
  rw [exec_hostSetTarget hn]
  refine ⟨fun hdue => ⟨_, congrArg returning (setTarget_of_due (sendDue_iff.mpr hdue)), exec_hostTransmitTarget hn⟩,
    fun a ha hearly => ?_⟩
  rw [setTarget_of_early (s := { s with host := { s.host with clock := now } }) ha hearly]; rfl

end Sys2Proof.Machine

/-! # Proofs: `receive` at the host (R256, R260, R263, R219) -/

namespace Sys2Proof.Machine

/-! ## The port's two calls (R263, R280) -/

section
variable {q : Port} {m : Nat}

/-- R256: an error of `bytes_available` ends the calls. -/
theorem Port.poll_of_unavailable {e : DevError} (h : q.availAnswers.head? = some (some e)) :
    q.poll m = ({ q with availAnswers := q.availAnswers.tail }, .error (.deviceError e)) := by
  obtain ⟨rest, ha⟩ := List.head?_eq_some_iff.mp h
  rw [Port.poll, Port.bytesAvailable, ha]
  rfl

/-- R256: where `bytes_available` answers, the bounded `read` follows. -/
theorem Port.poll_of_available (h : ∀ e, q.availAnswers.head? ≠ some (some e)) :
    q.poll m = Port.read { q with availAnswers := q.availAnswers.tail } (min q.rx.length m) := by
  obtain ⟨rx, line, writes, avails, reads⟩ := q
  rcases answers_without_error (as := avails) h with rfl | ⟨rest, rfl⟩ <;> rfl

/-- R280: a `read` that raises an error takes no byte. -/
theorem Port.read_of_error {e : DevError} (h : q.readAnswers.head? = some (some e)) :
    q.read m = ({ q with readAnswers := q.readAnswers.tail }, .error (.deviceError e)) := by
  obtain ⟨rest, hr⟩ := List.head?_eq_some_iff.mp h
  rw [Port.read, hr]
  rfl

/-- R263: a `read` takes exactly the bytes asked for. -/
theorem Port.read_of_ok (h : ∀ e, q.readAnswers.head? ≠ some (some e)) :
    q.read m = ({ q with rx := q.rx.drop m, readAnswers := q.readAnswers.tail }, .ok (q.rx.take m)) := by
  rcases answers_without_error h with hr | ⟨rest, hr⟩ <;> rw [Port.read, hr] <;> rfl

/-- R256: the first of the two calls that fails ends them, and takes no byte. -/
theorem Port.poll_of_error {e : DevError} (h : q.availAnswers.head? = some (some e) ∨
    ((∀ e', q.availAnswers.head? ≠ some (some e')) ∧ q.readAnswers.head? = some (some e))) :
    (q.poll m).2 = .error (.deviceError e) ∧ (q.poll m).1.rx = q.rx := by
  rcases h with ha | ⟨ha, hr⟩
  · rw [Port.poll_of_unavailable ha]
    exact ⟨rfl, rfl⟩
  · rw [Port.poll_of_available ha, Port.read_of_error (q := { q with availAnswers := q.availAnswers.tail }) hr]
    exact ⟨rfl, rfl⟩

/-- R256: with no error the bounded chunk is taken. -/
theorem Port.poll_of_ok (ha : ∀ e, q.availAnswers.head? ≠ some (some e))
    (hr : ∀ e, q.readAnswers.head? ≠ some (some e)) :
    (q.poll m).2 = .ok (q.rx.take (min q.rx.length m)) ∧ (q.poll m).1.rx = q.rx.drop (min q.rx.length m) := by
  rw [Port.poll_of_available ha, Port.read_of_ok (q := { q with availAnswers := q.availAnswers.tail }) hr]
  exact ⟨rfl, rfl⟩

end

section
variable {s t : State} {p : Side}

/-! ## One attempt to resolve the head of the buffer -/

/-- What resolving one message of side `p` leaves: the buffer, and what the two output ports have carried. -/
abbrev ResolvedTo (p : Side) (t : State) (acc : List Byte) (log : List HostLog) (yielded : List SideResponse) : Prop :=
  (t.link p).acc = acc ∧ t.host.log = log ∧ t.host.yielded = yielded

/-- R215: a buffer that waits for more bytes stays. -/
theorem resolveAtHost_of_incomplete (h : parseDirected s.cfg.logMax .response (s.link p).acc = .incomplete) :
    ResolvedTo p (resolveAtHost p s) (s.link p).acc s.host.log s.host.yielded := by
  simp only [resolveAtHost, resolveHead, h]
  exact ⟨by simp, rfl, rfl⟩

/-- R256: a response is yielded and its bytes dropped. -/
theorem resolveAtHost_of_response {r : SideResponse} {n : Nat}
    (h : parseDirected s.cfg.logMax .response (s.link p).acc = .ok (.response r) n) :
    ResolvedTo p (resolveAtHost p s) ((s.link p).acc.drop n) s.host.log (s.host.yielded ++ [r]) := by
  simp only [resolveAtHost, resolveHead, h]
  exact ⟨congrArg HostLink.acc (State.link_setLink_same s p _), rfl, rfl⟩

/-- R215, R218: the bytes of a decode error that reports its count are dropped and logged. -/
theorem resolveAtHost_of_counted_error {k : ErrKind} {c : Nat}
    (h : parseDirected s.cfg.logMax .response (s.link p).acc = .err k (some c)) :
    ResolvedTo p (resolveAtHost p s) ((s.link p).acc.drop c)
      (s.host.log ++ [.decodeError k ((s.link p).acc.take c) p]) s.host.yielded := by
  simp only [resolveAtHost, resolveHead, h]
  exact ⟨congrArg HostLink.acc (State.link_setLink_same s p _), rfl, rfl⟩

/-- R215, R218: a decode error with no count takes the whole buffer. -/
theorem resolveAtHost_of_uncounted_error {k : ErrKind}
    (h : parseDirected s.cfg.logMax .response (s.link p).acc = .err k none) :
    ResolvedTo p (resolveAtHost p s) [] (s.host.log ++ [.decodeError k (s.link p).acc p]) s.host.yielded := by
  simp only [resolveAtHost, resolveHead, h]
  exact ⟨congrArg HostLink.acc (State.link_setLink_same s p _), rfl, rfl⟩

/-- Resolving reads the buffer, not the port. -/
theorem resolveAtHost_port (p : Side) (s : State) : ((resolveAtHost p s).link p).port = (s.link p).port := by
  have hset := congrArg HostLink.port (State.link_setLink_same s p
    { s.link p with acc := (resolveHead s.cfg.logMax .response (s.link p).acc).2 })
  unfold resolveAtHost
  simp only
  split <;> exact hset

/-! ## What `receive` does -/

theorem receiveAtHost_of_error {k : ErrKind} (h : ((s.link p).port.poll s.cfg.readMax).2 = .error k) :
    receiveAtHost p s =
      (s.setLink p { s.link p with acc := [], port := ((s.link p).port.poll s.cfg.readMax).1 }).hostLog
        (.readError p k) := by
  simp only [receiveAtHost, h]

theorem receiveAtHost_of_chunk {chunk : List Byte} (h : ((s.link p).port.poll s.cfg.readMax).2 = .ok chunk) :
    receiveAtHost p s = resolveAtHost p
      (s.setLink p { s.link p with
        acc := (s.link p).acc ++ chunk, port := ((s.link p).port.poll s.cfg.readMax).1 }) := by
  simp only [receiveAtHost, h]

/-- What `receive` on side `p` leaves alone: the other side, and of the host all but its links and its two output
ports. -/
def ReceiveKept (p : Side) (s t : State) : Prop :=
  t.link p.opposite = s.link p.opposite ∧
    t.host = { s.host with link := t.host.link, yielded := t.host.yielded, log := t.host.log }

theorem ReceiveKept.setLink (s : State) (p : Side) (l : HostLink) : ReceiveKept p s (s.setLink p l) :=
  ⟨State.link_setLink_opposite s p l, rfl⟩

theorem ReceiveKept.trans {u : State} (h : ReceiveKept p s t) (k : ReceiveKept p t u) : ReceiveKept p s u := by
  obtain ⟨hlink, hhost⟩ := h
  obtain ⟨hlink', hhost'⟩ := k
  refine ⟨hlink'.trans hlink, ?_⟩
  rw [hhost', hhost]

theorem resolveAtHost_receiveKept (p : Side) (s : State) : ReceiveKept p s (resolveAtHost p s) := by
  have hset := ReceiveKept.setLink s p
    { s.link p with acc := (resolveHead s.cfg.logMax .response (s.link p).acc).2 }
  unfold resolveAtHost
  simp only
  split
  · exact hset
  · exact ⟨hset.1, rfl⟩
  · exact hset
  · exact ⟨hset.1, rfl⟩

theorem receiveAtHost_receiveKept (p : Side) (s : State) : ReceiveKept p s (receiveAtHost p s) := by
  cases h : ((s.link p).port.poll s.cfg.readMax).2 with
  | error k =>
    rw [receiveAtHost_of_error h]
    exact ⟨(ReceiveKept.setLink s p _).1, rfl⟩
  | ok chunk =>
    rw [receiveAtHost_of_chunk h]
    exact (ReceiveKept.setLink s p _).trans (resolveAtHost_receiveKept p _)

/-- R256, R219: the first error of the port's calls empties the buffer and is logged, and the received bytes stay. -/
theorem receiveAtHost_of_fault {e : DevError} (h : (s.link p).port.availAnswers.head? = some (some e) ∨
    ((∀ e', (s.link p).port.availAnswers.head? ≠ some (some e')) ∧
      (s.link p).port.readAnswers.head? = some (some e))) :
    ResolvedTo p (receiveAtHost p s) [] (s.host.log ++ [.readError p (.deviceError e)]) s.host.yielded ∧
      ((receiveAtHost p s).link p).port.rx = (s.link p).port.rx := by
  obtain ⟨herr, hrx⟩ := Port.poll_of_error (m := s.cfg.readMax) h
  rw [receiveAtHost_of_error herr]
  have hlink : ∀ l, (s.setLink p l).link p = l := State.link_setLink_same s p
  exact ⟨⟨congrArg HostLink.acc (hlink _), rfl, rfl⟩, (congrArg (fun l => l.port.rx) (hlink _)).trans hrx⟩

/-- R256: with no error `receive` resolves the buffer's head once the bounded chunk is in it. -/
theorem receiveAtHost_of_ok (ha : ∀ e, (s.link p).port.availAnswers.head? ≠ some (some e))
    (hr : ∀ e, (s.link p).port.readAnswers.head? ≠ some (some e)) :
    ∃ u : State, receiveAtHost p s = resolveAtHost p u ∧ u.cfg = s.cfg ∧
      ResolvedTo p u ((s.link p).acc ++ (s.link p).port.rx.take (min (s.link p).port.rx.length s.cfg.readMax))
        s.host.log s.host.yielded ∧
      (u.link p).port.rx = (s.link p).port.rx.drop (min (s.link p).port.rx.length s.cfg.readMax) := by
  obtain ⟨hchunk, hrx⟩ := Port.poll_of_ok (m := s.cfg.readMax) ha hr
  have hlink : ∀ l, (s.setLink p l).link p = l := State.link_setLink_same s p
  exact ⟨_, receiveAtHost_of_chunk hchunk, rfl, ⟨congrArg HostLink.acc (hlink _), rfl, rfl⟩,
    (congrArg (fun l => l.port.rx) (hlink _)).trans hrx⟩

end

/-- Settles O51: by what the port's calls answer, and then by the parse of the buffer with the chunk. -/
theorem receiveResolvesOneMessage : Obligations.ReceiveResolvesOneMessage := by
  intro s p
  refine ⟨fun hp => by rw [exec, execHostReceive, if_neg (by simp [hp])], fun hp => ?_⟩
  obtain ⟨hother, hhost⟩ := receiveAtHost_receiveKept p s
  obtain ⟨hsend, hpending, -⟩ := receiveAtHost_link p p s
  refine ⟨_, exec_hostReceive hp, rfl, (receiveAtHost_kept p s).boards, hsend, hpending, hother, hhost,
    fun e he => ?_, fun ha hr => ⟨_, rfl, ?_⟩⟩
  · obtain ⟨⟨hacc, hlog, hyielded⟩, hrx⟩ := receiveAtHost_of_fault he
    exact ⟨hacc, hrx, hlog, hyielded⟩
  · obtain ⟨u, hu, hcfg, ⟨hacc, hlog, hyielded⟩, hrx⟩ := receiveAtHost_of_ok ha hr
    rw [hu, ← hrx]
    refine ⟨congrArg Port.rx (resolveAtHost_port p u), fun acc heq => ?_⟩
    rw [heq, ← hacc, ← hcfg, ← hlog, ← hyielded]
    exact ⟨resolveAtHost_of_incomplete, fun _ _ => resolveAtHost_of_response,
      fun _ _ => resolveAtHost_of_counted_error, fun _ => resolveAtHost_of_uncounted_error⟩

/-! ## The other side (R260) -/

/-- What one side of the dispatcher holds of its own: its timestamp, its pending target and its buffer, and not its
port. -/
abbrev SideKept (q : Side) (s t : State) : Prop :=
  (t.link q).lastSend = (s.link q).lastSend ∧ (t.link q).pending = (s.link q).pending ∧ (t.link q).acc = (s.link q).acc

theorem SideKept.setLink {s t : State} {side : Side} (h : SideKept side.opposite s t) (l : HostLink) :
    SideKept side.opposite s (t.setLink side l) := by
  rwa [SideKept, State.link_setLink_opposite]

theorem transmitTarget_opposite (side : Side) (x : Word64) (now : Time) (s : State) :
    SideKept side.opposite s (transmitTarget side x now s).1 :=
  SideKept.setLink (transmit_link side side.opposite (.setTarget x) s) _

theorem sendCommand_opposite (side : Side) (c : Command) (now : Time) (s : State) :
    SideKept side.opposite s (sendCommand side c now s).1 := by
  have h := transmit_link side side.opposite c s
  simp only [sendCommand]
  split
  · exact SideKept.setLink h _
  · exact h

theorem setTarget_opposite (side : Side) (x : Word64) (now : Time) (s : State) :
    SideKept side.opposite s (setTarget side x now s).1 := by
  unfold setTarget
  split
  · exact transmitTarget_opposite side x now s
  · exact SideKept.setLink ⟨rfl, rfl, rfl⟩ _

/-- Settles O54, operation by operation. -/
theorem sidesOfTheHostAreIndependent : Obligations.SidesOfTheHostAreIndependent := by
  intro s t side c x now i hi h
  show SideKept side.opposite s t
  simp only [List.mem_cons, List.not_mem_nil, or_false] at hi
  rcases hi with rfl | rfl | rfl | rfl | rfl
  · rw [exec, execHostSetTarget] at h
    obtain ⟨-, h⟩ := withClock_eq_next.mp h
    cases h
    exact setTarget_opposite side x now _
  · rw [exec, execHostTransmitTarget] at h
    obtain ⟨-, h⟩ := withClock_eq_next.mp h
    cases h
    exact transmitTarget_opposite side x now _
  · obtain ⟨-, h⟩ := withClock_eq_next.mp (withWf_eq_next.mp h).2
    cases h
    exact sendCommand_opposite side c now _
  · obtain ⟨-, h⟩ := withWf_eq_next.mp h
    cases h
    exact transmit_link side side.opposite c s
  · change (if _ then _ else _) = _ at h
    split at h <;> cases h
    obtain ⟨hother, -⟩ := receiveAtHost_receiveKept side s
    have hlink : ((receiveAtHost side s).returns .unit).link side.opposite = s.link side.opposite := hother
    rw [SideKept, hlink]
    exact ⟨rfl, rfl, rfl⟩

end Sys2Proof.Machine

/-! # Proofs: ticks and the spacing of target sends (R255, R257 to R259) -/

namespace Sys2Proof.Machine

section
variable {s t u : State} {side : Side} {st : TickStage} {task : HostTask} {now : Time}

/-! ## One stage -/

/-- R257: a side with nothing due is left as it is. -/
theorem flushPending_of_not_due (h : ¬TargetDue s now side) : flushPending side now s = s := by
  unfold flushPending
  split
  · rename_i x a hx ha
    exact if_neg fun hd => h ⟨x, a, hx, ha, hd⟩
  · rfl
  · rfl

section
variable {x : Word64} {a : Time} (hx : (s.link side).pending = some x) (ha : (s.link side).lastSend = some a)
  (hd : s.cfg.minSendInterval ≤ now - a)
include hx ha hd

/-- R257: a due target is sent. -/
theorem flushPending_of_sent (hr : transmitTarget side x now s = (u, .ok)) : flushPending side now s = u := by
  rw [flushPending, hx, ha]
  simp only [if_pos hd, hr]

/-- R257: the error of a due target's port is logged. -/
theorem flushPending_of_failed {k : ErrKind} (hr : transmitTarget side x now s = (u, .err k)) :
    flushPending side now s = u.hostLog (.writeError side k) := by
  rw [flushPending, hx, ha]
  simp only [if_pos hd, hr]

end

/-- R257: the model's send stage is the rule's. -/
theorem flushPending_sentIfDue (side : Side) (hn : s.host.clock = now) :
    SentIfDue side now s (flushPending side now s) := by
  by_cases hdue : TargetDue s now side
  · obtain ⟨x, a, hx, ha, hd⟩ := hdue
    have hexec : exec (.hostTransmitTarget side x now) s = returning (transmitTarget side x now s) := by
      subst hn
      exact exec_hostTransmitTarget le_rfl
    have hret := (transmitTarget_kept side x now s).ret
    simp only [SentIfDue, hx, ha, if_pos hd]
    refine ⟨_, hexec, ?_⟩
    rw [← hret]
    rcases hr : transmitTarget side x now s with ⟨u, _ | k⟩
    · exact .inl ⟨rfl, flushPending_of_sent hx ha hd hr⟩
    · exact .inr ⟨k, rfl, flushPending_of_failed hx ha hd hr⟩
  · have hsame := flushPending_of_not_due hdue
    unfold SentIfDue
    split
    · rename_i x a hx ha
      rw [if_neg fun hd => hdue ⟨x, a, hx, ha, hd⟩]
      exact hsame
    · exact hsame
    · exact hsame

/-- R257: the model's receive stage is the rule's. -/
theorem pollPort_polledIfPresent (p : Side) (s : State) : PolledIfPresent p s (pollPort p s) := by
  unfold PolledIfPresent pollPort
  split
  · rename_i hp
    refine ⟨_, exec_hostReceive hp, ?_⟩
    rw [← (receiveAtHost_kept p s).ret]
    rfl
  · rfl

theorem TickStage.run_done (st : TickStage) (hn : s.host.clock = now) : StageDone st now s (st.run now s) := by
  cases st with
  | send p => exact flushPending_sentIfDue p hn
  | receive p => exact pollPort_polledIfPresent p s

/-- R57, R257: the step of a tick in progress is its stage, with what comes after it. -/
theorem step_tickStage {rest : List Event} (hst : (st, task) ∈ tickStages now) (hs : s.schedule = .hostNext :: rest)
    (ht : s.host.task = .tick st now) : step s = .next ((st.run now { s with schedule := rest }).inTask task) := by
  rw [step_hostNext hs ht, tickStep_of hst]

theorem exec_hostTick (ht : s.host.task = .idle) (hn : s.host.clock ≤ now) :
    exec (.hostTick now) s =
      .next ((flushPending .left now { s with host := { s.host with clock := now } }).inTask
        (.tick (.send .right) now)) := by
  rw [exec, execHostTick, withHostFree_of ht, withClock_of hn]
  rfl

/-- Log entry 41. -/
theorem exec_hostTick_busy (ht : s.host.task ≠ .idle) : exec (.hostTick now) s = .refused .hostBusy := by
  rw [exec, execHostTick, withHostFree]
  split
  · rename_i hidle; exact absurd hidle ht
  · rfl

/-! ## The four stages together -/

/-- What a send stage leaves is told by the sides and the parameters alone. -/
theorem Flushed.congr {s' t' : State} (h : Flushed side now s t) (hcfg : s'.cfg = s.cfg) (hs : s'.link = s.link)
    (ht : t'.link = t.link) : Flushed side now s' t' := by
  obtain ⟨hsent, hheld, hother, hline⟩ := h
  constructor
  · simpa only [TargetDue, hcfg, hs, ht] using hsent
  · simpa only [TargetDue, hcfg, hs, ht] using hheld
  · simpa only [hs, ht] using hother
  · simpa only [dueBytes, hcfg, hs, ht] using hline

/-- R258: what a tick at `now` leaves of the sends and of the bytes on the links. -/
structure Ticked (now : Time) (s t : State) : Prop where
  sent : ∀ p, TargetDue s now p → (t.link p).pending = none ∧ (t.link p).lastSend = some now
  held : ∀ p, ¬TargetDue s now p →
    (t.link p).pending = (s.link p).pending ∧ (t.link p).lastSend = (s.link p).lastSend
  line : (∀ q, (s.link q).port.writeAnswers = []) → ∀ q, (t.link q).port.line = (s.link q).port.line ++
    (if selectPort s.cfg .left = some q then dueBytes s now .left else []) ++
    (if selectPort s.cfg .right = some q then dueBytes s now .right else [])

/-- A side's target is due, and its message, by that side alone. -/
theorem TargetDue.congr {p : Side} (hcfg : t.cfg = s.cfg) (hp : (t.link p).pending = (s.link p).pending)
    (hl : (t.link p).lastSend = (s.link p).lastSend) : TargetDue t now p ↔ TargetDue s now p := by
  rw [TargetDue, hcfg, hp, hl]

theorem dueBytes_congr {p : Side} (hcfg : t.cfg = s.cfg) (hp : (t.link p).pending = (s.link p).pending)
    (hl : (t.link p).lastSend = (s.link p).lastSend) : dueBytes t now p = dueBytes s now p := by
  rw [dueBytes, hcfg, hp, hl, dueBytes]

/-- R258, D31: the send for Left and then the send for Right. -/
theorem Flushed.ticked (hl : Flushed .left now s t) (hcfg : t.cfg = s.cfg) (hr : Flushed .right now t u) :
    Ticked now s u := by
  obtain ⟨hpending, hlast⟩ := hl.other
  have hdue : TargetDue t now .right ↔ TargetDue s now .right := TargetDue.congr hcfg hpending hlast
  obtain ⟨hpending', hlast'⟩ := hr.other
  refine ⟨fun p hp => ?_, fun p hp => ?_, fun hw q => ?_⟩
  · cases p with
    | left => exact ⟨hpending'.trans (hl.sent hp).1, hlast'.trans (hl.sent hp).2⟩
    | right => exact hr.sent (hdue.mpr hp)
  · cases p with
    | left => exact ⟨hpending'.trans (hl.held hp).1, hlast'.trans (hl.held hp).2⟩
    | right =>
      obtain ⟨hp', hl'⟩ := hr.held (mt hdue.mp hp)
      exact ⟨hp'.trans hpending, hl'.trans hlast⟩
  · have hbytes : dueBytes t now .right = dueBytes s now .right := dueBytes_congr hcfg hpending hlast
    obtain ⟨-, hline⟩ := hr.line (fun q => (hl.line hw q).1) q
    rw [hline, (hl.line hw q).2, hcfg, hbytes]

/-- What a `receive` leaves alone on each side. -/
abbrev SendsKept (s t : State) : Prop := ∀ q, (t.link q).lastSend = (s.link q).lastSend ∧
  (t.link q).pending = (s.link q).pending ∧ (t.link q).port.line = (s.link q).port.line

theorem Ticked.received (h : Ticked now s t) (k : SendsKept t u) : Ticked now s u := by
  obtain ⟨hsent, hheld, hline⟩ := h
  refine ⟨fun p hp => ?_, fun p hp => ?_, fun hw q => ?_⟩
  · obtain ⟨hl, hp', -⟩ := k p
    rw [hl, hp']
    exact hsent p hp
  · obtain ⟨hl, hp', -⟩ := k p
    rw [hl, hp']
    exact hheld p hp
  · obtain ⟨-, -, hq⟩ := k q
    rw [hq]
    exact hline hw q

/-- R57, R257: what a step of a tick leaves of the schedule, the host's thread, the result and the boards. -/
structure StageStepped (task : HostTask) (rest : List Event) (s t : State) : Prop where
  schedule : t.schedule = rest
  thread : t.host.task = task
  ret : t.ret = if task = .idle then some .unit else none
  boards : t.boards = s.boards

theorem TickStage.run_stepped (st : TickStage) (now : Time) (task : HostTask) (rest : List Event) (s : State) :
    StageStepped task rest s ((st.run now { s with schedule := rest }).inTask task) := by
  have h := st.run_kept now { s with schedule := rest }
  exact ⟨h.schedule, rfl, rfl, h.boards⟩

/-- R257: the step of a tick whose send for one side comes next. -/
theorem step_send {p : Side} {rest : List Event} (hst : (.send p, task) ∈ tickStages now)
    (hs : s.schedule = .hostNext :: rest) (ht : s.host.task = .tick (.send p) now) :
    ∃ t : State, step s = .next t ∧ StageStepped task rest s t ∧ Flushed p now s t :=
  ⟨_, step_tickStage hst hs ht, TickStage.run_stepped _ _ _ _ _,
    (flushPending_flushed p now { s with schedule := rest }).congr rfl rfl rfl⟩

/-- R257: the step of a tick whose `receive` for one side comes next. -/
theorem step_poll {p : Side} {rest : List Event} (hst : (.receive p, task) ∈ tickStages now)
    (hs : s.schedule = .hostNext :: rest) (ht : s.host.task = .tick (.receive p) now) :
    ∃ t : State, step s = .next t ∧ StageStepped task rest s t ∧ SendsKept s t :=
  ⟨_, step_tickStage hst hs ht, TickStage.run_stepped _ _ _ _ _, fun q => pollPort_link p q { s with schedule := rest }⟩

/-- R257: the three stages of a tick after its first, when no other agent steps between them. -/
theorem run_tick_after_first (hs : s.schedule = List.replicate 3 .hostNext)
    (ht : s.host.task = .tick (.send .right) now) :
    ∃ u t : State, core.run 3 s = .next t ∧ StageStepped .idle [] s t ∧ Flushed .right now s u ∧ SendsKept u t := by
  obtain ⟨u, hu, hu', hsent⟩ := step_send (task := .tick (.receive .left) now) (by simp [tickStages]) hs ht
  obtain ⟨v, hv, hv', hleft⟩ :=
    step_poll (task := .tick (.receive .right) now) (by simp [tickStages]) hu'.schedule hu'.thread
  obtain ⟨t, ht, ht', hright⟩ := step_poll (task := .idle) (by simp [tickStages]) hv'.schedule hv'.thread
  refine ⟨u, t, ?_, ⟨ht'.schedule, ht'.thread, ht'.ret, ?_⟩, hsent, fun q => ?_⟩
  · calc core.run 3 s
      _ = core.run 2 u := core_run_succ 2 hu
      _ = core.run 1 v := core_run_succ 1 hv
      _ = core.run 0 t := core_run_succ 0 ht
      _ = .next t := core_run_zero t
  · rw [ht'.boards, hv'.boards, hu'.boards]
  · obtain ⟨hlast, hpending, hline⟩ := hleft q
    obtain ⟨hlast', hpending', hline'⟩ := hright q
    exact ⟨hlast'.trans hlast, hpending'.trans hpending, hline'.trans hline⟩

/-- R257, R258: a tick of the idle host completes, its four stages in a row. -/
theorem hostTick_runs (ht : s.host.task = .idle) (hn : s.host.clock ≤ now) :
    ∃ a t : State, exec (.hostTick now) s = .next (a.inTask (.tick (.send .right) now)) ∧
      SentIfDue .left now { s with host := { s.host with clock := now } } a ∧
      core.run 3 { a.inTask (.tick (.send .right) now) with schedule := List.replicate 3 .hostNext } = .next t ∧
      StageStepped .idle [] s t ∧ Ticked now s t := by
  have hleft := flushPending_flushed .left now { s with host := { s.host with clock := now } }
  have hkept := flushPending_kept .left now { s with host := { s.host with clock := now } }
  generalize ha : flushPending .left now { s with host := { s.host with clock := now } } = a at hleft hkept
  have hfirst : SentIfDue .left now { s with host := { s.host with clock := now } } a :=
    ha ▸ flushPending_sentIfDue .left rfl
  obtain ⟨u, t, hrun, ⟨hsched, hthread, hret, hboards⟩, hright, hreceived⟩ := run_tick_after_first
    (s := { a.inTask (.tick (.send .right) now) with schedule := List.replicate 3 .hostNext }) rfl rfl
  have hsent : Ticked now s u :=
    (hleft.congr rfl rfl rfl : Flushed .left now s a).ticked hkept.cfg (hright.congr rfl rfl rfl)
  exact ⟨a, t, ha ▸ exec_hostTick ht hn, hfirst, hrun, ⟨hsched, hthread, hret, hboards.trans hkept.boards⟩,
    hsent.received hreceived⟩

/-- R258: the messages of the sides that use one port, Left before Right. -/
theorem flatten_dueBytes (s : State) (now : Time) (q : Side) :
    (([Side.left, Side.right].filter (fun p => selectPort s.cfg p = some q)).map (dueBytes s now)).flatten =
      (if selectPort s.cfg .left = some q then dueBytes s now .left else []) ++
        (if selectPort s.cfg .right = some q then dueBytes s now .right else []) := by
  by_cases hl : selectPort s.cfg .left = some q <;> by_cases hr : selectPort s.cfg .right = some q <;> simp [hl, hr]

/-- R258: a tick that finds one side alone due sends that side's message. -/
theorem Ticked.line_of_one (h : Ticked now s t) (hother : ¬TargetDue s now side.opposite)
    (hw : ∀ q, (s.link q).port.writeAnswers = []) (q : Side) : (t.link q).port.line = (s.link q).port.line ++
      (if selectPort s.cfg side = some q then dueBytes s now side else []) := by
  rw [h.line hw q]
  have hnone := dueBytes_of_not hother
  cases side <;> rw [Side.opposite] at hnone <;> simp [hnone]

/-! ## Targets held (R255) -/

/-- R255: what a `set_target` at `now` that holds its value leaves. -/
structure TargetHeld (side : Side) (x : Word64) (now : Time) (s t : State) : Prop where
  cfg : t.cfg = s.cfg
  clock : t.host.clock = now
  thread : t.host.task = s.host.task
  held : t.link side = { s.link side with pending := some x }
  other : t.link side.opposite = s.link side.opposite

section
variable {x y : Word64} {a m : Time}

/-- R255: a target within the interval is held. -/
theorem hostSetTarget_holds (x : Word64) (hn : s.host.clock ≤ now) (ha : (s.link side).lastSend = some a)
    (hearly : now - a < s.cfg.minSendInterval) :
    ∃ t : State, exec (.hostSetTarget side x now) s = .next t ∧ TargetHeld side x now s t := by
  obtain ⟨-, hheld⟩ := targetsAreSentOrHeld s side x now hn
  exact ⟨_, hheld a ha hearly, rfl, rfl, rfl, State.link_setLink_same _ side _, State.link_setLink_opposite _ side _⟩

theorem TargetHeld.lastSend (h : TargetHeld side x now s t) : (t.link side).lastSend = (s.link side).lastSend := by
  rw [h.held]

/-- R255: the later target stands in place of the older one. -/
theorem TargetHeld.replaced (h : TargetHeld side x m s t) (k : TargetHeld side y now t u) :
    TargetHeld side y now s u where
  cfg := k.cfg.trans h.cfg
  clock := k.clock
  thread := k.thread.trans h.thread
  held := by rw [k.held, h.held]
  other := k.other.trans h.other

/-- A held target puts nothing on a port. -/
theorem TargetHeld.port (h : TargetHeld side x now s t) (q : Side) : (t.link q).port = (s.link q).port := by
  by_cases hq : q = side
  · rw [hq, h.held]
  · rw [side_eq_opposite_of_ne hq, h.other]

end

/-! ## The interval between two sends (R259) -/

/-- R259: the next of two recorded sends is the same one or at least the interval after it. -/
def Spaced (interval : Time) (last next : Option Time) : Prop :=
  ∀ a b, last = some a → next = some b → b = a ∨ a + interval ≤ b

theorem spaced_refl (interval : Time) (last : Option Time) : Spaced interval last last := fun _ _ ha hb =>
  .inl (Option.some.inj (hb.symm.trans ha))

/-- R7: the interval is positive, so a time it allows is after the last. -/
theorem add_le_of_elapsed {interval a b : Nat} (hi : 0 < interval) (h : interval ≤ b - a) : a + interval ≤ b := by
  omega

theorem spaced_of_elapsed {interval : Time} {last : Option Time} (hi : 0 < interval)
    (h : ∀ a, last = some a → interval ≤ now - a) : Spaced interval last (some now) := fun a b ha hb => by
  obtain rfl := Option.some.inj hb
  exact .inr (add_le_of_elapsed hi (h a ha))

variable (hi : 0 < s.cfg.minSendInterval)
include hi

theorem setTarget_spaced (side p : Side) (x : Word64) (now : Time) :
    Spaced s.cfg.minSendInterval (s.link p).lastSend ((setTarget side x now s).1.link p).lastSend := by
  by_cases hp : p = side
  · subst hp
    by_cases hdue : sendDue s.cfg.minSendInterval (s.link p).lastSend now = true
    · have hsent : ((transmitTarget p x now s).1.link p).lastSend = some now := by simp [transmitTarget]
      rw [setTarget_of_due hdue, hsent]
      refine spaced_of_elapsed hi fun a ha => ?_
      simpa [ha, sendDue] using hdue
    · rw [setTarget, if_neg hdue, State.link_setLink_same]
      exact spaced_refl _ _
  · obtain rfl := side_eq_opposite_of_ne hp
    rw [(setTarget_opposite side x now s).1]
    exact spaced_refl _ _

theorem flushPending_spaced (side p : Side) (now : Time) :
    Spaced s.cfg.minSendInterval (s.link p).lastSend ((flushPending side now s).link p).lastSend := by
  have hflushed := flushPending_flushed side now s
  by_cases hp : p = side
  · subst hp
    by_cases hdue : TargetDue s now p
    · rw [(hflushed.sent hdue).2]
      obtain ⟨x, b, -, hb, hd⟩ := hdue
      refine spaced_of_elapsed hi fun a ha => ?_
      rwa [← Option.some.inj (hb.symm.trans ha)]
    · rw [(hflushed.held hdue).2]
      exact spaced_refl _ _
  · obtain rfl := side_eq_opposite_of_ne hp
    rw [hflushed.other.2]
    exact spaced_refl _ _

theorem tickStep_spaced (st : TickStage) (p : Side) (now : Time) :
    Spaced s.cfg.minSendInterval (s.link p).lastSend ((tickStep st now s).link p).lastSend := by
  have hlink : (tickStep st now s).link p = (st.run now s).link p := by
    unfold tickStep
    simp only
    split <;> rfl
  rw [hlink]
  cases st with
  | send side => exact flushPending_spaced hi side p now
  | receive side =>
    show Spaced _ _ ((pollPort side s).link p).lastSend
    rw [(pollPort_link side p s).1]
    exact spaced_refl _ _

end

/-- Settles O50: the four stages in a row, one stage by itself, and the refusal. -/
theorem ticksSendWhatIsDue : Obligations.TicksSendWhatIsDue := by
  refine ⟨fun s now _ hn hidle => ?_, fun s now st after rest hst ht hclock hs => ?_, fun _ _ => exec_hostTick_busy⟩
  · obtain ⟨a, t, hexec, hfirst, hrun, hstepped, hticked⟩ := hostTick_runs hidle hn
    refine ⟨a, t, hexec, hfirst, hrun, hstepped.thread, hstepped.ret, hstepped.boards,
      fun p => ⟨hticked.sent p, hticked.held p⟩, fun hw q => ?_⟩
    rw [hticked.line hw q, flatten_dueBytes, List.append_assoc]
  · exact ⟨_, st.run_done (s := { s with schedule := rest }) hclock, step_tickStage hst hs ht⟩

/-- Settles O52: a send by `set_target` or by a stage of a tick comes only when the interval has elapsed. -/
theorem targetSendsAreSpaced : Obligations.TargetSendsAreSpaced := by
  intro s t side p x now a b i rest hwf hstep ha hb
  obtain ⟨-, -, hi, -⟩ := hwf
  suffices h : Spaced s.cfg.minSendInterval (s.link p).lastSend (t.link p).lastSend from h a b ha hb
  rcases hstep with ⟨hmem, h⟩ | ⟨hs, h⟩
  · simp only [List.mem_cons, List.not_mem_nil, or_false] at hmem
    rcases hmem with rfl | rfl
    · rw [exec, execHostSetTarget] at h
      obtain ⟨-, h⟩ := withClock_eq_next.mp h
      cases h
      exact setTarget_spaced (s := { s with host := { s.host with clock := now } }) hi side p x now
    · obtain ⟨-, h⟩ := withClock_eq_next.mp (withHostFree_eq_next.mp h).2
      cases h
      exact tickStep_spaced (s := { s with host := { s.host with clock := now } }) hi (.send .left) p now
  · cases ht : s.host.task with
    | idle =>
      cases (step_hostNext_idle hs ht).symm.trans h
      exact spaced_refl _ _
    | tick st now =>
      cases (step_hostNext hs ht).symm.trans h
      exact tickStep_spaced (s := { s with schedule := rest }) hi st p now

/-- Settles O53: both targets are held, the second in place of the first, and the tick finds it alone due. -/
theorem onlyTheLatestHeldTargetIsSent : Obligations.OnlyTheLatestHeldTargetIsSent := by
  intro s side x y a m n k hm hmn hnk hidle ha hearly hearly' hlate hother hw
  obtain ⟨t1, h1, held1⟩ := hostSetTarget_holds x hm ha hearly
  obtain ⟨t2, h2, held2⟩ := hostSetTarget_holds y (held1.clock.trans_le hmn) (held1.lastSend.trans ha)
    (by rwa [held1.cfg])
  have held := held1.replaced held2
  have hy : (t2.link side).pending = some y := by rw [held.held]
  have ha2 : (t2.link side).lastSend = some a := held.lastSend.trans ha
  have hdue : t2.cfg.minSendInterval ≤ k - a := by rwa [held.cfg]
  have hnot : ¬TargetDue t2 k side.opposite := fun ⟨z, _, hz, _⟩ => by
    rw [held.other, hother] at hz
    cases hz
  obtain ⟨u, t4, h3, -, h4, hstepped, hticked⟩ :=
    hostTick_runs (held.thread.trans hidle) (held.clock.trans_le hnk)
  obtain ⟨hpending, hlast⟩ := hticked.sent side ⟨y, a, hy, ha2, hdue⟩
  refine ⟨t1, t2, _, t4, h1, h2, h3, h4, hstepped.thread, hpending, hlast, fun q => ?_⟩
  rw [hticked.line_of_one hnot (fun q => by rw [held.port, hw]) q, dueBytes_of hy ha2 hdue, held.port, held.cfg]

end Sys2Proof.Machine

/-! # Proofs: what a main loop alone may do, and the ready interrupt's step (R25, R237, R290 to R297) -/

namespace Sys2Proof.Machine

/-! ## Operations of a main loop (R25, R237, R297) -/

section
variable {b : BoardId} {d : Dir} {s t : State}

/-- R297: what runs behind the guard ran on a free main loop. -/
theorem onMainLoop_free {k : State → Result} (h : onMainLoop b k s = .next t) : s.Free b :=
  (onMainLoop_eq_next.mp h).1

theorem withAcc_board_free {k : State → Result} (h : withAcc (.board b d) k s = .next t) : s.Free b :=
  onMainLoop_free (withDir_eq_next.mp h).2

theorem startWrite_free {bytes : List Byte} {who : Caller} (h : startWrite b d bytes who s = .next t) : s.Free b :=
  onMainLoop_free (withDir_eq_next.mp h).2

theorem startFlush_free (h : startFlush b d s = .next t) : s.Free b := onMainLoop_free (withDir_eq_next.mp h).2

theorem onResponse_free {sr : SideResponse} (h : onResponse b sr s = .next t) : s.Free b :=
  onMainLoop_free (withDir_eq_next.mp h).2

theorem sendResponse_free {r : Response} (h : sendResponse b r s = .next t) : s.Free b := by
  rw [sendResponse] at h
  exact startWrite_free h

/-- R174: the guard of a well-formed operand adds nothing to what the operation behind it needs. -/
theorem withWf_next {c : Option IllFormed} {k : State → Result} (h : withWf c k s = .next t) : k s = .next t :=
  (withWf_eq_next.mp h).2

end

/-- Settles O12, operation by operation. -/
theorem mainLoopOperationsNeedAFreeMainLoop : Obligations.MainLoopOperationsNeedAFreeMainLoop := by
  intro s t b d w bytes map dc sr i hi h
  simp only [List.mem_cons, List.not_mem_nil, or_false] at hi
  rcases hi with rfl | rfl | rfl | rfl | rfl | rfl | rfl | rfl | rfl | rfl | rfl | rfl
  · exact onMainLoop_free (withDir_eq_next.mp h).2
  · exact startWrite_free h
  · exact startFlush_free h
  · exact withAcc_board_free h
  · exact withAcc_board_free h
  · exact onCommand_free (withWf_next h)
  · exact onMainLoop_free (withWf_next h)
  · exact onMainLoop_free (withWf_next h)
  · exact startWrite_free (withWf_next h)
  · exact onResponse_free (withWf_next h)
  · exact onMainLoop_free (withWf_next h)
  · exact sendResponse_free (withWf_next h)

/-! ## The ready interrupt (R290, R294, R295) -/

/-- R290: when the ready interrupt is not pending, its step leaves the state as it is (log entry 3). -/
theorem readyInterrupt_of_not_pending {s : State} {b : BoardId} {d : Dir} (seen : Bool)
    (h : ¬∃ w, (s.engine b d).dev = some w ∧ (s.engine b d).irqEn = true ∧ w.ready = true) :
    readyInterrupt b d seen s = .next s := by
  have hpending : (s.engine b d).readyPending = false := by
    unfold Txe.readyPending
    split
    · rfl
    · rename_i w hw
      exact Bool.eq_false_iff.mpr fun hp => h ⟨w, hw, Bool.and_eq_true_iff.mp hp⟩
  simp [readyInterrupt, hpending]

/-- Settles O14: the interrupt pending, and not. -/
theorem readyInterruptRunsTryWriteOnce : Obligations.ReadyInterruptRunsTryWriteOnce := by
  intro s b d seen rest hs hh hdir
  rw [step_of_schedule hs]
  refine ⟨fun ⟨w, hdev, hirq, hr⟩ => ?_, readyInterrupt_of_not_pending (s := { s with schedule := rest }) seen⟩
  have hentered : (enterHandler b { s with schedule := rest }).hasDir b d = true :=
    (State.setBoard_hasDir _ b b _ d).trans hdir
  refine ⟨_, exec_kick_of hentered (i := .txTryWrite b d) (by simp), ?_⟩
  calc readyInterrupt b d seen { s with schedule := rest }
    _ = takeInterrupt b seen (exec (.txTryWrite b d)) { s with schedule := rest } :=
      readyInterrupt_of_pending (s := { s with schedule := rest }) seen hh hdir hdev hirq hr
    _ = .next (leaveHandler b seen (kickEngine b d (enterHandler b { s with schedule := rest }))) :=
      takeInterrupt_tryWrite (s := { s with schedule := rest }) seen hdir

end Sys2Proof.Machine

/-! # Proofs: the devices, the links and the wiring (R2, R62, R301, R322) -/

namespace Sys2Proof.Machine

/-! ## A device's steps (R301) -/

section
variable {s : State} {b : BoardId} {d : Dir}

/-- R301 `emit`: the oldest accepted byte leaves the device and comes behind those on the link. -/
theorem devEmit_of_accepted {w : Device} {x : Byte} {xs : List Byte} (hdev : (s.engine b d).dev = some w)
    (hout : w.out = x :: xs) :
    devEmit b d s = s.setBoard b { s.board b with
      tx := (s.board b).tx.set d { s.engine b d with dev := some { w with out := xs } }
      line := (s.board b).line.set d ((s.board b).line.get d ++ [x]) } := by
  simp [devEmit, hdev, hout, appendLine, State.setEngine]

/-- R301: with no byte accepted, or no device, there is nothing to emit. -/
theorem devEmit_of_none_accepted (h : ∀ w, (s.engine b d).dev = some w → w.out = []) : devEmit b d s = s := by
  unfold devEmit
  split
  · rfl
  · rename_i w hw
    rw [h w hw]

theorem mapDevice_of_absent (f : Device → Device) (h : (s.engine b d).dev = none) : mapDevice b d f s = s := by
  rw [mapDevice, h]

end

/-! ## The ends of a link (R62) -/

section
variable (l : LinkId) (bs : List Byte) (r : Receiver) (x : Byte) (s : State)

theorem lineOf_setLine (k : LinkId) : lineOf k (setLine l bs s) = if k = l then bs else lineOf k s := by
  cases k <;> cases l
  case fromPort.fromPort q p => by_cases h : q = p <;> simp [lineOf, setLine, State.link_setLink, h]
  case fromEngine.fromEngine c e b d =>
    by_cases h : c = b <;> simp [lineOf, setLine, State.board_setBoard, PerDir.get_set, h]
  all_goals rfl

theorem receivedAt_setLine : receivedAt r (setLine l bs s) = receivedAt r s := by
  cases r <;> cases l
  case port.fromPort q p => by_cases h : q = p <;> simp [receivedAt, setLine, State.link_setLink, h]
  case path.fromEngine c e b d => by_cases h : c = b <;> simp [receivedAt, setLine, State.board_setBoard, h]
  all_goals rfl

theorem lineOf_arrive (k : LinkId) : lineOf k (arrive r x s) = lineOf k s := by
  cases k <;> cases r
  case fromPort.port q p => by_cases h : q = p <;> simp [lineOf, arrive, State.link_setLink, h]
  case fromEngine.path c e b d => by_cases h : c = b <;> simp [lineOf, arrive, State.board_setBoard, h]
  all_goals rfl

theorem receivedAt_arrive (q : Receiver) :
    receivedAt q (arrive r x s) = receivedAt q s ++ (if r = q then [x] else []) := by
  cases q <;> cases r
  case port.port q p =>
    by_cases h : p = q
    · simp [receivedAt, arrive, h]
    · simp [receivedAt, arrive, State.link_setLink, h, Ne.symm h]
  case path.path c e b d =>
    by_cases hb : b = c
    · by_cases hd : d = e
      · simp [receivedAt, arrive, hb, hd]
      · simp [receivedAt, arrive, PerDir.get_set, hb, hd, Ne.symm hd]
    · simp [receivedAt, arrive, State.board_setBoard, hb, Ne.symm hb]
  all_goals simp [receivedAt, arrive]

/-- R62: what a byte's way over a link leaves: all of the block but what is on a link or received at its end. -/
structure WireKept (s t : State) : Prop where
  cfg : t.cfg = s.cfg
  rx : t.rx = s.rx
  ret : t.ret = s.ret
  schedule : t.schedule = s.schedule
  board : ∀ b, t.board b = { s.board b with rxq := (t.board b).rxq, line := (t.board b).line }
  host : t.host = { s.host with link := t.host.link }
  link : ∀ p, t.link p = { s.link p with port :=
    { (s.link p).port with rx := (t.link p).port.rx, line := (t.link p).port.line } }

theorem WireKept.trans {s t u : State} (h : WireKept s t) (k : WireKept t u) : WireKept s u where
  cfg := k.cfg.trans h.cfg
  rx := k.rx.trans h.rx
  ret := k.ret.trans h.ret
  schedule := k.schedule.trans h.schedule
  board b := by rw [k.board, h.board]
  host := by rw [k.host, h.host]
  link p := by rw [k.link, h.link]

/-- A board's part: only what it has received and what is on its links. -/
theorem WireKept.setBoard {b : BoardId} {x : Board}
    (h : x = { s.board b with rxq := x.rxq, line := x.line }) : WireKept s (s.setBoard b x) where
  cfg := rfl
  rx := rfl
  ret := rfl
  schedule := rfl
  board c := by
    rw [State.board_setBoard]
    split
    · rename_i hc
      rw [hc]
      exact h
    · rfl
  host := rfl
  link _ := rfl

/-- The host's part: only what a port has received and what is on its link. -/
theorem WireKept.setLink {p : Side} {y : HostLink}
    (h : y = { s.link p with port := { (s.link p).port with rx := y.port.rx, line := y.port.line } }) :
    WireKept s (s.setLink p y) where
  cfg := rfl
  rx := rfl
  ret := rfl
  schedule := rfl
  board _ := rfl
  host := rfl
  link q := by
    rw [State.link_setLink]
    split
    · rename_i hq
      rw [hq]
      exact h
    · rfl

theorem setLine_wireKept : WireKept s (setLine l bs s) := by
  cases l with
  | fromPort p => exact .setLink s rfl
  | fromEngine b d => exact .setBoard s rfl

theorem arrive_wireKept : WireKept s (arrive r x s) := by
  cases r with
  | port p => exact .setLink s rfl
  | path b d => exact .setBoard s rfl

end

/-! ## A link's step (R62, R322) -/

section
variable {l : LinkId} {s : State}

theorem wireDeliver_of_empty (h : lineOf l s = []) : wireDeliver l s = s := by rw [wireDeliver, h]

/-- R62, R322: the oldest byte of a link leaves it, and arrives at the end the wiring gives or is lost. -/
theorem wireDeliver_delivers {x : Byte} {xs : List Byte} (h : lineOf l s = x :: xs) :
    (∀ k, lineOf k (wireDeliver l s) = if k = l then xs else lineOf k s) ∧
    (∀ r, receivedAt r (wireDeliver l s) =
      receivedAt r s ++ (if receiverOf s.cfg l = some r then [x] else [])) ∧
    WireKept s (wireDeliver l s) := by
  rw [wireDeliver, h]
  cases hr : receiverOf s.cfg l with
  | none =>
    exact ⟨lineOf_setLine l xs s, fun r => by simp [receivedAt_setLine], setLine_wireKept l xs s⟩
  | some e =>
    refine ⟨fun k => ?_, fun r => ?_, (setLine_wireKept l xs s).trans (arrive_wireKept e x _)⟩
    · rw [lineOf_arrive, lineOf_setLine]
    · simp [receivedAt_arrive, receivedAt_setLine]

end

/-! ## The wiring (R2) -/

/-- R2: of two boards only one is wired to a port. -/
theorem boardOnPort_of_only {c : Config} {b : BoardId} {p : Side} (h : c.upstream.get b = .hostPort p)
    (hother : c.upstream.get b.other ≠ .hostPort p) : boardOnPort c p = some b := by
  cases b with
  | boardA => exact if_pos h
  | boardB => exact (if_neg hother).trans (if_pos h)

/-- Settles O56: the device's two steps, the link's step, and the wiring. -/
theorem devicesEmitAndLinksDeliver : Obligations.DevicesEmitAndLinksDeliver := by
  refine ⟨fun s b d rest => ⟨fun hs => ⟨fun w x xs hdev hout => ?_, fun hnone => ?_⟩,
    fun hs => ⟨fun w hdev => step_devComplete hs hdev, fun habsent => ?_⟩⟩,
    fun s l rest hs => ⟨fun hempty => ?_, fun x xs hline => ?_⟩, fun c b p hport hother => ⟨?_, ?_⟩,
    fun c b hchain hdown => ⟨?_, ?_⟩⟩
  · rw [step_of_schedule hs]
    exact congrArg Host.Outcome.next (devEmit_of_accepted (s := { s with schedule := rest }) hdev hout)
  · rw [step_of_schedule hs]
    exact congrArg Host.Outcome.next (devEmit_of_none_accepted (s := { s with schedule := rest }) hnone)
  · rw [step_of_schedule hs]
    exact congrArg Host.Outcome.next (mapDevice_of_absent (s := { s with schedule := rest }) _ habsent)
  · rw [step_of_schedule hs]
    exact congrArg Host.Outcome.next (wireDeliver_of_empty (s := { s with schedule := rest }) hempty)
  · obtain ⟨hlines, hreceived, hkept⟩ := wireDeliver_delivers (s := { s with schedule := rest }) hline
    exact ⟨_, step_of_schedule hs, (hlines l).trans (if_pos rfl), fun k hk => (hlines k).trans (if_neg hk), hreceived,
      hkept.cfg, hkept.rx, hkept.ret, hkept.schedule, hkept.board, hkept.host, hkept.link⟩
  · rw [receiverOf, boardOnPort_of_only hport hother]
    rfl
  · rw [receiverOf, hport]
  · rw [receiverOf, hchain]
    exact if_pos hdown
  · rw [receiverOf, BoardId.other_other]
    exact if_pos ⟨hdown, hchain⟩

end Sys2Proof.Machine
